-- ==== Sys2Proof/Word.lean ====
section
/-! DEFINITION. The machine word (spec/00_scope.md R9). -/

namespace Sys2Proof

/-- R9, R20: a Word, read as a signed two's-complement integer. It is held in 32 bits, `XLEN`'s value on this hardware; on a
launch with a smaller `XLEN` (`Config.Params.xlen`) the pattern is held sign-extended, so that its signed value is the
Word's. -/
abbrev Word := BitVec 32

/-- The Word of a signed value in `[-2^31, 2^31-1]`. -/
def word (z : Int) : Word := BitVec.ofInt 32 z

/-- R71: an instruction word, 32 bits at every `XLEN`. -/
abbrev InstrWord := BitVec 32

end Sys2Proof
end

