-- ==== Sys2Proof/Config.lean ====
section
/-! DEFINITION. What the spec fixes for this hardware (spec/00_scope.md R7). The rows of R7 that the spec
leaves OPEN (92_eei_decisions.md D1, D2, D4, D5, D12, D13) are the fields of `Params`, whose default is the value
this hardware takes; `DMEM_INIT` (OPEN, D14) and `NPROG` come with `State.initialize`; the others are constants. -/

namespace Sys2Proof.Config

/-- R7 `CODE_BASE`: the code address of instruction record 0. -/
def codeBase : Int := 4000

/-- R7 `ILEN`: the distance between the addresses of consecutive instructions. -/
def ilen : Int := 4

/-- R7 `BTB_CAP`: entries in the branch target buffer. -/
def btbCap : Nat := 4

/-- R7 `HIST_MAX`: top of the saturating history counter. -/
def histMax : Nat := 3

/-- R7 `CNT_MAX`: saturation value of a BTB entry's execution count. -/
def cntMax : Nat := 2 ^ 32 - 1

/-- R7, R37 `DMEM_INIT`: what a data word that nothing has written holds at reset (default: every word 0).
Another `DMEM_INIT` is given to `State.initialize` as the words that differ from it. -/
def dmemDefault : Word := 0

/-- D1 `XLEN`: the widths the model takes. R72 extends a 15-bit immediate to a Word, so a Word has at least 15 bits. -/
abbrev Xlen := { n : Nat // 15 ≤ n ∧ n ≤ 32 }

/-- D2 `NREG`: the register file has at least one register; the 4-bit register fields of R71 assume at most 16. -/
abbrev Nreg := { n : Nat // 1 ≤ n ∧ n ≤ 16 }

/-- R7: the parameters a launch may choose (each OPEN in 92_eei_decisions.md), fixed for a run. -/
structure Params where
  /-- R7 `XLEN`: the width of a Word. -/
  xlen : Xlen := ⟨32, by decide⟩
  /-- R7 `NREG`: the number of general registers, indices `0..NREG-1`. -/
  nreg : Nreg := ⟨16, by decide⟩
  /-- R7 `FLAGS_ON_LOGICAL`: AND, OR, XOR write the condition codes. -/
  flagsOnLogical : Bool := true
  /-- R7 `FLAGS_ON_MOVC`: MOVC writes the condition codes. -/
  flagsOnMovc : Bool := false
  /-- R7 `CMP_EXACT`: CMP and CML set the flags from the exact comparison, not the wrapped difference. -/
  cmpExact : Bool := false
  /-- R7 `PTR_INC`: what an auto-increment load or store adds to its base register. -/
  ptrInc : Int := 4
  /-- R7 `DMEM_WORDS`: the number of words of data memory. -/
  dmemWords : Nat := 4096
  deriving DecidableEq, Repr

/-- R7, column "value": what this hardware takes. -/
def defaultParams : Params := {}

end Sys2Proof.Config
end

