-- ==== Sys2Proof/Syntax.lean ====
section
/-! DEFINITION. The instruction record and the instructions (spec/30_encoding.md R70, R74, R75): one constructor of
`Instr` per row of spec/opcode_table.json, holding the record fields that the opcode uses. Register fields are
integers, because the loader's records are: an index outside `0..NREG-1` is caught by Decode (R117), not by the type. -/

namespace Sys2Proof

/-- R74: the opcodes, and what a record may hold in their place: `invalid`, the pseudo-opcode of a word that matches
no row (R73), and `unknown n`, any other enumerated value at the record level (R76 (d), R202). -/
inductive Opcode where
  | add
  | sub
  | mul
  | div
  | and
  | or
  | xor
  | movc
  | load
  | store
  | bz
  | bnz
  | halt
  | addl
  | subl
  | loadp
  | storep
  | cmp
  | cml
  | bp
  | bnp
  | jump
  | jalr
  | invalid
  | unknown (n : Nat)
  deriving DecidableEq, Repr

/-- R70: the record the loader delivers; the normative form of an instruction. -/
structure Record where
  opcode : Opcode
  rd : Int
  rs1 : Int
  rs2 : Int
  imm : Word
  deriving DecidableEq, Repr

/-- R70, R75: an instruction, with the fields its opcode uses. -/
inductive Instr where
  /-- `ADD`, R160. -/
  | add (rd rs1 rs2 : Int)
  /-- `SUB`, R161. -/
  | sub (rd rs1 rs2 : Int)
  /-- `MUL`, R162. -/
  | mul (rd rs1 rs2 : Int)
  /-- `DIV`, R201. -/
  | div (rd rs1 rs2 : Int) (imm : Word)
  /-- `AND`, R163. -/
  | and (rd rs1 rs2 : Int)
  /-- `OR`, R164. -/
  | or (rd rs1 rs2 : Int)
  /-- `XOR`, R165. -/
  | xor (rd rs1 rs2 : Int)
  /-- `MOVC`, R168. -/
  | movc (rd : Int) (imm : Word)
  /-- `LOAD`, R180. -/
  | load (rd rs1 : Int) (imm : Word)
  /-- `STORE`, R182. -/
  | store (rs1 rs2 : Int) (imm : Word)
  /-- `BZ`, R190. -/
  | bz (imm : Word)
  /-- `BNZ`, R191. -/
  | bnz (imm : Word)
  /-- `HALT`, R200. -/
  | halt
  /-- `ADDL`, R166. -/
  | addl (rd rs1 : Int) (imm : Word)
  /-- `SUBL`, R167. -/
  | subl (rd rs1 : Int) (imm : Word)
  /-- `LOADP`, R181. -/
  | loadp (rd rs1 : Int) (imm : Word)
  /-- `STOREP`, R183. -/
  | storep (rs1 rs2 : Int) (imm : Word)
  /-- `CMP`, R169. -/
  | cmp (rs1 rs2 : Int)
  /-- `CML`, R170. -/
  | cml (rs1 : Int) (imm : Word)
  /-- `BP`, R192. -/
  | bp (imm : Word)
  /-- `BNP`, R193. -/
  | bnp (imm : Word)
  /-- `JUMP`, R194. -/
  | jump (rs1 : Int) (imm : Word)
  /-- `JALR`, R195. -/
  | jalr (rd rs1 : Int) (imm : Word)
  deriving DecidableEq, Repr

/-- R74: the opcode number (the two pseudo-opcodes have none). -/
def Opcode.number? : Opcode → Option Nat
  | .add => some 0
  | .sub => some 1
  | .mul => some 2
  | .div => some 3
  | .and => some 4
  | .or => some 5
  | .xor => some 6
  | .movc => some 7
  | .load => some 8
  | .store => some 9
  | .bz => some 10
  | .bnz => some 11
  | .halt => some 12
  | .addl => some 13
  | .subl => some 14
  | .loadp => some 15
  | .storep => some 16
  | .cmp => some 17
  | .cml => some 18
  | .bp => some 19
  | .bnp => some 20
  | .jump => some 21
  | .jalr => some 22
  | .invalid => none
  | .unknown _ => none

/-- R70: the instruction a record stands for: the fields its opcode uses (R75), the others ignored; none when the
opcode is not in R74. -/
def Record.instr? (r : Record) : Option Instr :=
  match r.opcode with
  | .add => some (.add r.rd r.rs1 r.rs2)
  | .sub => some (.sub r.rd r.rs1 r.rs2)
  | .mul => some (.mul r.rd r.rs1 r.rs2)
  | .div => some (.div r.rd r.rs1 r.rs2 r.imm)
  | .and => some (.and r.rd r.rs1 r.rs2)
  | .or => some (.or r.rd r.rs1 r.rs2)
  | .xor => some (.xor r.rd r.rs1 r.rs2)
  | .movc => some (.movc r.rd r.imm)
  | .load => some (.load r.rd r.rs1 r.imm)
  | .store => some (.store r.rs1 r.rs2 r.imm)
  | .bz => some (.bz r.imm)
  | .bnz => some (.bnz r.imm)
  | .halt => some .halt
  | .addl => some (.addl r.rd r.rs1 r.imm)
  | .subl => some (.subl r.rd r.rs1 r.imm)
  | .loadp => some (.loadp r.rd r.rs1 r.imm)
  | .storep => some (.storep r.rs1 r.rs2 r.imm)
  | .cmp => some (.cmp r.rs1 r.rs2)
  | .cml => some (.cml r.rs1 r.imm)
  | .bp => some (.bp r.imm)
  | .bnp => some (.bnp r.imm)
  | .jump => some (.jump r.rs1 r.imm)
  | .jalr => some (.jalr r.rd r.rs1 r.imm)
  | .invalid => none
  | .unknown _ => none

/-- R70, R73: the record of an instruction, every field its opcode does not use 0. -/
def Instr.record : Instr → Record
  | .add rd rs1 rs2 => ⟨.add, rd, rs1, rs2, 0⟩
  | .sub rd rs1 rs2 => ⟨.sub, rd, rs1, rs2, 0⟩
  | .mul rd rs1 rs2 => ⟨.mul, rd, rs1, rs2, 0⟩
  | .div rd rs1 rs2 imm => ⟨.div, rd, rs1, rs2, imm⟩
  | .and rd rs1 rs2 => ⟨.and, rd, rs1, rs2, 0⟩
  | .or rd rs1 rs2 => ⟨.or, rd, rs1, rs2, 0⟩
  | .xor rd rs1 rs2 => ⟨.xor, rd, rs1, rs2, 0⟩
  | .movc rd imm => ⟨.movc, rd, 0, 0, imm⟩
  | .load rd rs1 imm => ⟨.load, rd, rs1, 0, imm⟩
  | .store rs1 rs2 imm => ⟨.store, 0, rs1, rs2, imm⟩
  | .bz imm => ⟨.bz, 0, 0, 0, imm⟩
  | .bnz imm => ⟨.bnz, 0, 0, 0, imm⟩
  | .halt => ⟨.halt, 0, 0, 0, 0⟩
  | .addl rd rs1 imm => ⟨.addl, rd, rs1, 0, imm⟩
  | .subl rd rs1 imm => ⟨.subl, rd, rs1, 0, imm⟩
  | .loadp rd rs1 imm => ⟨.loadp, rd, rs1, 0, imm⟩
  | .storep rs1 rs2 imm => ⟨.storep, 0, rs1, rs2, imm⟩
  | .cmp rs1 rs2 => ⟨.cmp, 0, rs1, rs2, 0⟩
  | .cml rs1 imm => ⟨.cml, 0, rs1, 0, imm⟩
  | .bp imm => ⟨.bp, 0, 0, 0, imm⟩
  | .bnp imm => ⟨.bnp, 0, 0, 0, imm⟩
  | .jump rs1 imm => ⟨.jump, 0, rs1, 0, imm⟩
  | .jalr rd rs1 imm => ⟨.jalr, rd, rs1, 0, imm⟩

/-- R74: the opcode of an instruction. -/
def Instr.opcode (i : Instr) : Opcode := i.record.opcode

end Sys2Proof
end

