-- ==== Sys2Proof/WellFormed.lean ====
section
/-! DEFINITION. Which instructions have an instruction word (spec/30_encoding.md R72): register indices in `0..15`
and an immediate in `-16384..16383`, for every field the opcode uses. -/

namespace Sys2Proof

/-- R72: a register index that the 4-bit field holds. -/
def regOk (r : Int) : Bool := decide (0 ≤ r ∧ r < 16)

/-- R72: an immediate that the 15-bit field holds. -/
def immOk (imm : Word) : Bool := decide (-16384 ≤ imm.toInt ∧ imm.toInt ≤ 16383)

/-- R72: the instruction has a word. -/
def Instr.wf : Instr → Bool
  | .add rd rs1 rs2 => regOk rd && regOk rs1 && regOk rs2
  | .sub rd rs1 rs2 => regOk rd && regOk rs1 && regOk rs2
  | .mul rd rs1 rs2 => regOk rd && regOk rs1 && regOk rs2
  | .div rd rs1 rs2 imm => regOk rd && regOk rs1 && regOk rs2 && immOk imm
  | .and rd rs1 rs2 => regOk rd && regOk rs1 && regOk rs2
  | .or rd rs1 rs2 => regOk rd && regOk rs1 && regOk rs2
  | .xor rd rs1 rs2 => regOk rd && regOk rs1 && regOk rs2
  | .movc rd imm => regOk rd && immOk imm
  | .load rd rs1 imm => regOk rd && regOk rs1 && immOk imm
  | .store rs1 rs2 imm => regOk rs1 && regOk rs2 && immOk imm
  | .bz imm => immOk imm
  | .bnz imm => immOk imm
  | .halt => true
  | .addl rd rs1 imm => regOk rd && regOk rs1 && immOk imm
  | .subl rd rs1 imm => regOk rd && regOk rs1 && immOk imm
  | .loadp rd rs1 imm => regOk rd && regOk rs1 && immOk imm
  | .storep rs1 rs2 imm => regOk rs1 && regOk rs2 && immOk imm
  | .cmp rs1 rs2 => regOk rs1 && regOk rs2
  | .cml rs1 imm => regOk rs1 && immOk imm
  | .bp imm => immOk imm
  | .bnp imm => immOk imm
  | .jump rs1 imm => regOk rs1 && immOk imm
  | .jalr rd rs1 imm => regOk rd && regOk rs1 && immOk imm

/-- R76: Decode refuses `DIV` and `LOADP` with `rd = rs1` although both have a word (R201, R181). -/
def Instr.refusedByDecode : Instr → Bool
  | .div _ _ _ _ => true
  | .loadp rd rs1 _ => decide (rd = rs1)
  | _ => false

end Sys2Proof
end

