-- ==== Sys2Proof/Decode.lean ====
section
/-! DEFINITION. The 32-bit instruction word (spec/30_encoding.md R71 to R76, R82): the decoder, total on any word and
rejecting by name, the encoder, and the assembler form of R75, R79. There is no byte order to lay out (R52): an
instruction is one word, and its bits are the table's bits. -/

namespace Sys2Proof

/-- R71: the five fields of a word. -/
def fieldOp (w : InstrWord) : BitVec 5 := w.extractLsb' 27 5
def fieldRd (w : InstrWord) : BitVec 4 := w.extractLsb' 23 4
def fieldRs1 (w : InstrWord) : BitVec 4 := w.extractLsb' 19 4
def fieldRs2 (w : InstrWord) : BitVec 4 := w.extractLsb' 15 4
def fieldImm (w : InstrWord) : BitVec 15 := w.extractLsb' 0 15

/-- R72: a register field as a register index. -/
def regOfField (f : BitVec 4) : Int := f.toNat

/-- R72 `sext_15`. -/
def immOfField (f : BitVec 15) : Word := f.signExtend 32

/-- R73, R76: why a word is no instruction. -/
inductive Reject where
  /-- R76 (b): an opcode number in 23..31. -/
  | reservedNumber (n : Nat)
  /-- R76 (c): opcode number `n`, with a non-zero bit in a field the opcode does not use. -/
  | mustBeZero (n : Nat)
  deriving DecidableEq, Repr

/-- R73: the instruction, if the fields its opcode does not use are zero. -/
def ifZero (n : Nat) (unused : Bool) (i : Instr) : Except Reject Instr :=
  if unused then .ok i else .error (.mustBeZero n)

/-- R72, R75, R82: the instruction of a word. -/
def decode (w : InstrWord) : Except Reject Instr :=
  let rd := regOfField (fieldRd w)
  let rs1 := regOfField (fieldRs1 w)
  let rs2 := regOfField (fieldRs2 w)
  let imm := immOfField (fieldImm w)
  let noRd := fieldRd w == 0
  let noRs1 := fieldRs1 w == 0
  let noRs2 := fieldRs2 w == 0
  let noImm := fieldImm w == 0
  match (fieldOp w).toNat with
  | 0 => ifZero 0 (noImm) (.add rd rs1 rs2)
  | 1 => ifZero 1 (noImm) (.sub rd rs1 rs2)
  | 2 => ifZero 2 (noImm) (.mul rd rs1 rs2)
  | 3 => .ok (.div rd rs1 rs2 imm)
  | 4 => ifZero 4 (noImm) (.and rd rs1 rs2)
  | 5 => ifZero 5 (noImm) (.or rd rs1 rs2)
  | 6 => ifZero 6 (noImm) (.xor rd rs1 rs2)
  | 7 => ifZero 7 (noRs1 && noRs2) (.movc rd imm)
  | 8 => ifZero 8 (noRs2) (.load rd rs1 imm)
  | 9 => ifZero 9 (noRd) (.store rs1 rs2 imm)
  | 10 => ifZero 10 (noRd && noRs1 && noRs2) (.bz imm)
  | 11 => ifZero 11 (noRd && noRs1 && noRs2) (.bnz imm)
  | 12 => ifZero 12 (noRd && noRs1 && noRs2 && noImm) .halt
  | 13 => ifZero 13 (noRs2) (.addl rd rs1 imm)
  | 14 => ifZero 14 (noRs2) (.subl rd rs1 imm)
  | 15 => ifZero 15 (noRs2) (.loadp rd rs1 imm)
  | 16 => ifZero 16 (noRd) (.storep rs1 rs2 imm)
  | 17 => ifZero 17 (noRd && noImm) (.cmp rs1 rs2)
  | 18 => ifZero 18 (noRd && noRs2) (.cml rs1 imm)
  | 19 => ifZero 19 (noRd && noRs1 && noRs2) (.bp imm)
  | 20 => ifZero 20 (noRd && noRs1 && noRs2) (.bnp imm)
  | 21 => ifZero 21 (noRd && noRs2) (.jump rs1 imm)
  | 22 => ifZero 22 (noRs2) (.jalr rd rs1 imm)
  | n => .error (.reservedNumber n)

/-- R73: the pseudo-record of a word that is no instruction. Its other fields are read by no rule. -/
def Record.invalid : Record := ⟨.invalid, 0, 0, 0, 0⟩

/-- R82: `decode : Word32 -> Record`, total. -/
def decodeRecord (w : InstrWord) : Record :=
  match decode w with
  | .ok i => i.record
  | .error _ => Record.invalid

/-- R71: the layout of a word: `op` in bits 31:27, `rd` 26:23, `rs1` 22:19, `rs2` 18:15, `imm15` 14:0. -/
def joinFields (op : BitVec 5) (rd rs1 rs2 : BitVec 4) (imm : BitVec 15) : InstrWord := op ++ rd ++ rs1 ++ rs2 ++ imm

/-- R71: the packing of one record in one word. -/
def pack (op : Nat) (rd rs1 rs2 : Int) (imm : Word) : InstrWord :=
  joinFields (BitVec.ofNat 5 op) (BitVec.ofInt 4 rd) (BitVec.ofInt 4 rs1) (BitVec.ofInt 4 rs2) (imm.setWidth 15)

/-- R72: the word of a well-formed instruction. -/
def encode : Instr → InstrWord
  | .add rd rs1 rs2 => pack 0 rd rs1 rs2 0
  | .sub rd rs1 rs2 => pack 1 rd rs1 rs2 0
  | .mul rd rs1 rs2 => pack 2 rd rs1 rs2 0
  | .div rd rs1 rs2 imm => pack 3 rd rs1 rs2 imm
  | .and rd rs1 rs2 => pack 4 rd rs1 rs2 0
  | .or rd rs1 rs2 => pack 5 rd rs1 rs2 0
  | .xor rd rs1 rs2 => pack 6 rd rs1 rs2 0
  | .movc rd imm => pack 7 rd 0 0 imm
  | .load rd rs1 imm => pack 8 rd rs1 0 imm
  | .store rs1 rs2 imm => pack 9 0 rs1 rs2 imm
  | .bz imm => pack 10 0 0 0 imm
  | .bnz imm => pack 11 0 0 0 imm
  | .halt => pack 12 0 0 0 0
  | .addl rd rs1 imm => pack 13 rd rs1 0 imm
  | .subl rd rs1 imm => pack 14 rd rs1 0 imm
  | .loadp rd rs1 imm => pack 15 rd rs1 0 imm
  | .storep rs1 rs2 imm => pack 16 0 rs1 rs2 imm
  | .cmp rs1 rs2 => pack 17 0 rs1 rs2 0
  | .cml rs1 imm => pack 18 0 rs1 0 imm
  | .bp imm => pack 19 0 0 0 imm
  | .bnp imm => pack 20 0 0 0 imm
  | .jump rs1 imm => pack 21 0 rs1 0 imm
  | .jalr rd rs1 imm => pack 22 rd rs1 0 imm

/-- R75: a row of the opcode table: `w` is an instruction of the row exactly when `w & mask = value`. -/
structure OpcodeRow where
  opcode : Opcode
  mask : InstrWord
  value : InstrWord
  deriving DecidableEq, Repr

/-- R75: a word belongs to a row. -/
def OpcodeRow.admits (row : OpcodeRow) (w : InstrWord) : Bool := w &&& row.mask == row.value

/-- R75: the columns "mask" and "match". The decoder does not use them: a claim compares the two. -/
def opcodeRows : List OpcodeRow :=
  [⟨.add, 0xF8007FFF, 0x00000000⟩,
   ⟨.sub, 0xF8007FFF, 0x08000000⟩,
   ⟨.mul, 0xF8007FFF, 0x10000000⟩,
   ⟨.div, 0xF8000000, 0x18000000⟩,
   ⟨.and, 0xF8007FFF, 0x20000000⟩,
   ⟨.or, 0xF8007FFF, 0x28000000⟩] ++
  [⟨.xor, 0xF8007FFF, 0x30000000⟩,
   ⟨.movc, 0xF87F8000, 0x38000000⟩,
   ⟨.load, 0xF8078000, 0x40000000⟩,
   ⟨.store, 0xFF800000, 0x48000000⟩,
   ⟨.bz, 0xFFFF8000, 0x50000000⟩,
   ⟨.bnz, 0xFFFF8000, 0x58000000⟩] ++
  [⟨.halt, 0xFFFFFFFF, 0x60000000⟩,
   ⟨.addl, 0xF8078000, 0x68000000⟩,
   ⟨.subl, 0xF8078000, 0x70000000⟩,
   ⟨.loadp, 0xF8078000, 0x78000000⟩,
   ⟨.storep, 0xFF800000, 0x80000000⟩,
   ⟨.cmp, 0xFF807FFF, 0x88000000⟩] ++
  [⟨.cml, 0xFF878000, 0x90000000⟩,
   ⟨.bp, 0xFFFF8000, 0x98000000⟩,
   ⟨.bnp, 0xFFFF8000, 0xA0000000⟩,
   ⟨.jump, 0xFF878000, 0xA8000000⟩,
   ⟨.jalr, 0xF8078000, 0xB0000000⟩]

/-- The word of a row of spec/opcode_table.json as the table numbers its bits (bit 0 the least significant). -/
def tableWord (nbits w : Nat) : InstrWord := BitVec.ofNat 32 (w % 2 ^ nbits)

/-- The instruction the decoder reads from an instruction whose bits are `w`. -/
def decodeTableWord (nbits w : Nat) : Option Instr := (decode (tableWord nbits w)).toOption

/-- R79: a register operand. -/
def asmReg (r : Int) : String := "R" ++ toString r

/-- R79: an immediate operand. -/
def asmImm (imm : Word) : String := "#" ++ toString imm.toInt

/-- R79: a statement: the mnemonic, a space, the operands separated by commas. -/
def asmLine (mnemonic : String) (operands : List String) : String :=
  if operands.isEmpty then mnemonic else mnemonic ++ " " ++ ",".intercalate operands

/-- R75, R79: the assembler form. -/
def Instr.assembler : Instr → String
  | .add rd rs1 rs2 => asmLine "ADD" [asmReg rd, asmReg rs1, asmReg rs2]
  | .sub rd rs1 rs2 => asmLine "SUB" [asmReg rd, asmReg rs1, asmReg rs2]
  | .mul rd rs1 rs2 => asmLine "MUL" [asmReg rd, asmReg rs1, asmReg rs2]
  | .div rd rs1 rs2 _ => asmLine "DIV" [asmReg rd, asmReg rs1, asmReg rs2]
  | .and rd rs1 rs2 => asmLine "AND" [asmReg rd, asmReg rs1, asmReg rs2]
  | .or rd rs1 rs2 => asmLine "OR" [asmReg rd, asmReg rs1, asmReg rs2]
  | .xor rd rs1 rs2 => asmLine "XOR" [asmReg rd, asmReg rs1, asmReg rs2]
  | .movc rd imm => asmLine "MOVC" [asmReg rd, asmImm imm]
  | .load rd rs1 imm => asmLine "LOAD" [asmReg rd, asmReg rs1, asmImm imm]
  | .store rs1 rs2 imm => asmLine "STORE" [asmReg rs1, asmReg rs2, asmImm imm]
  | .bz imm => asmLine "BZ" [asmImm imm]
  | .bnz imm => asmLine "BNZ" [asmImm imm]
  | .halt => asmLine "HALT" []
  | .addl rd rs1 imm => asmLine "ADDL" [asmReg rd, asmReg rs1, asmImm imm]
  | .subl rd rs1 imm => asmLine "SUBL" [asmReg rd, asmReg rs1, asmImm imm]
  | .loadp rd rs1 imm => asmLine "LOADP" [asmReg rd, asmReg rs1, asmImm imm]
  | .storep rs1 rs2 imm => asmLine "STOREP" [asmReg rs1, asmReg rs2, asmImm imm]
  | .cmp rs1 rs2 => asmLine "CMP" [asmReg rs1, asmReg rs2]
  | .cml rs1 imm => asmLine "CML" [asmReg rs1, asmImm imm]
  | .bp imm => asmLine "BP" [asmImm imm]
  | .bnp imm => asmLine "BNP" [asmImm imm]
  | .jump rs1 imm => asmLine "JUMP" [asmReg rs1, asmImm imm]
  | .jalr rd rs1 imm => asmLine "JALR" [asmReg rd, asmReg rs1, asmImm imm]

end Sys2Proof
end

