-- ==== Sys2Proof/Machine/State.lean ====
section
/-! DEFINITION. The state of the core (spec/10_state.md R20 to R37), the fatal conditions (spec/60_exceptions.md
R210), and the state right after reset (R37). Everything is plain data. -/

namespace Sys2Proof.Machine

/-- R210: the fatal conditions, with the information each records. A stage raises one by answering `.fault`; the cycle
that detects it is discarded and the condition is recorded in `State.fault` (R216). All are safe: the machine stops
where the spec stops it. -/
inductive Fault where
  /-- Code 1, raised by `State.initialize` on an empty instruction sequence (R211). Safe. -/
  | initError
  /-- Code 2, raised by Decode on `DIV`, a reserved or unknown opcode, `INVALID`, or `LOADP` with `rd = rs1` (R212);
  and by any stage whose latch holds an opcode it has no row for, which no run reaches (R202). Safe. -/
  | invalidOpcode (pc : Word) (opcode : Opcode)
  /-- Code 3, raised by Decode on a used register field outside `0..NREG-1` (R213). Safe. -/
  | registerIndexOutOfRange (pc : Word) (index : Int)
  /-- Code 4, raised by Memory on a data address outside data memory (R214). Safe. -/
  | memoryAddressOutOfRange (pc : Word) (addr : Word)
  /-- Code 5, raised by Decode on a poisoned latch (R219). Safe. -/
  | codeAddressInvalid (pc : Word)
  deriving DecidableEq, Repr

/-- R210, column "Code". -/
def Fault.code : Fault → Nat
  | .initError => 1
  | .invalidOpcode _ _ => 2
  | .registerIndexOutOfRange _ _ => 3
  | .memoryAddressOutOfRange _ _ => 4
  | .codeAddressInvalid _ => 5

/-- What the model has no meaning for. Nothing raises it: every instruction has its meaning. Safe. -/
inductive Refusal where
  /-- An arm of `exec` that has no meaning yet; no arm is left. Safe. -/
  | notModelled (mnemonic : String)
  deriving DecidableEq, Repr

/-- What a stage answers. -/
abbrev Result (σ : Type) := Host.Outcome σ Fault Refusal

/-- R92: the two families of conditional branches. -/
inductive Family where
  | A
  | B
  deriving DecidableEq, Repr

/-- R24 `opcode`: an opcode, or `BADPC` in a latch that Fetch poisoned (R50). -/
inductive LatchOp where
  | op (o : Opcode)
  | badpc
  deriving DecidableEq, Repr

/-- R24: a pipeline latch, field by field. -/
structure Latch where
  /-- `valid`: holds a valid instruction; for `FL`, fetch is enabled (R25). -/
  valid : Bool
  /-- `stalled`: this stage is held this cycle. -/
  stalled : Bool
  /-- `pc`: address of the instruction in this latch. -/
  pc : Word
  /-- `opcode`. -/
  opcode : LatchOp
  /-- `rd`, `rs1`, `rs2`: operand register indices. -/
  rd : Int
  rs1 : Int
  rs2 : Int
  /-- `imm`. -/
  imm : Word
  /-- `rs1_value`, `rs2_value`: resolved operand values. -/
  rs1Value : Word
  rs2Value : Word
  /-- `result`. -/
  result : Word
  /-- `mem_addr`: computed memory address. -/
  memAddr : Word
  /-- `family`: the branch type tag. -/
  family : Option Family
  /-- `btb_hit`: Fetch found a predictive hit for this instruction and redirected `pc`. -/
  btbHit : Bool
  deriving DecidableEq, Repr

/-- R37: a latch with every field 0, `none` or false (opcode number 0 is `ADD`). -/
def Latch.empty : Latch :=
  { valid := false, stalled := false, pc := 0, opcode := .op .add, rd := 0, rs1 := 0, rs2 := 0, imm := 0,
    rs1Value := 0, rs2Value := 0, result := 0, memAddr := 0, family := none, btbHit := false }

/-- R24, R70: the instruction a latch holds; none for a poisoned latch and for an opcode that is not in R74. -/
def Latch.instr? (l : Latch) : Option Instr :=
  match l.opcode with
  | .op o => Record.instr? ⟨o, l.rd, l.rs1, l.rs2, l.imm⟩
  | .badpc => none

/-- R23: the condition codes. -/
structure CondCodes where
  z : Bool
  p : Bool
  n : Bool
  deriving DecidableEq, Repr

/-- R26: one pair `(reg, value)` on a forwarding bus. -/
structure BusPair where
  reg : Int
  value : Word
  deriving DecidableEq, Repr

/-- R27: an entry of the branch target buffer. -/
structure BtbEntry where
  /-- `addr`: the address of a conditional branch, the unique key. -/
  addr : Word
  /-- `target`: the last computed taken-target of that branch. -/
  target : Word
  /-- `pred`: the prediction bit, true for 1 (predict taken). -/
  pred : Bool
  /-- `hist`: the 2-bit history counter, `0..3`. -/
  hist : Nat
  /-- `ever_taken`: has ever resolved taken. -/
  everTaken : Bool
  /-- `exec_count`: resolutions since the entry was created, saturating at `CNT_MAX`. -/
  execCount : Nat
  deriving DecidableEq, Repr

/-- R51: data memory as the list of (word address, Word) pairs that differ from `Config.dmemDefault`, addresses strictly
rising. Words and not bytes: R52 allows no byte view. -/
abbrev Memory := List (Nat × Word)

/-- R110: the five stage functions. -/
inductive Stage where
  | writeback
  | memory
  | execute
  | decode
  | fetch
  deriving DecidableEq, Repr

/-- The state of the core. -/
structure State where
  /-- R20: the general registers `x[0..NREG-1]`, in a file of 16; `NREG` is `params.nreg`, and no access reaches a place
  from `NREG` on. -/
  x : Vector Word 16
  /-- R21: the busy table `busy[0..NREG-1]`. -/
  busy : Vector Bool 16
  /-- R22: the fetch address register. -/
  pc : Word
  /-- R23: `Z`, `P`, `N`. -/
  cc : CondCodes
  /-- R25: the five latches `FL`, `DL`, `XL`, `ML`, `WL`. -/
  fl : Latch
  dl : Latch
  xl : Latch
  ml : Latch
  wl : Latch
  /-- R26: the two forwarding buses; empty at every cycle boundary. -/
  exbus : List BusPair
  membus : List BusPair
  /-- R28: the branch target buffer, oldest entry first. -/
  btb : List BtbEntry
  /-- R29. -/
  redirectPending : Bool
  /-- R30. -/
  retired : Nat
  /-- R33. -/
  cycles : Nat
  /-- R31. -/
  halted : Bool
  /-- R32: the recorded fatal condition. -/
  fault : Option Fault
  /-- R34, R51: data memory. -/
  dmem : Memory
  /-- R34, R50: code memory, the records in order (`NPROG` is its length); no step changes it (R61). -/
  code : List Record
  /-- R7, R36: the launch parameters; no step changes them. -/
  params : Config.Params
  /-- The model's own field: the stage function that `exec` is applied in (R110); `writeback`, the first of a cycle, at
  every cycle boundary. -/
  stage : Stage
  deriving DecidableEq, Repr

/-- R37: the state right after reset, with no program and `DMEM_INIT` all 0; `State.initialize` puts a program in. -/
def State.reset : State :=
  { x := Vector.replicate 16 0
    busy := Vector.replicate 16 false
    pc := word Config.codeBase
    cc := ⟨false, false, false⟩
    fl := { Latch.empty with valid := true }
    dl := Latch.empty
    xl := Latch.empty
    ml := Latch.empty
    wl := Latch.empty
    exbus := []
    membus := []
    btb := []
    redirectPending := false
    retired := 0
    cycles := 0
    halted := false
    fault := none
    dmem := []
    code := []
    params := Config.defaultParams
    stage := .writeback }

end Sys2Proof.Machine
end

