-- ==== Sys2Proof/Machine/Ops.lean ====
section
/-! DEFINITION. The wrap-around of arithmetic, the named operations over registers, busy bits, memories, latches and buses,
the flush, and what a fatal condition does. -/

namespace Sys2Proof.Config

/-- R9 `s32(z)`: the Word congruent to the integer `z` modulo `2^XLEN` (modulo `2^32` on this hardware). -/
def Params.s32 (p : Params) (z : Int) : Word := (BitVec.ofInt p.xlen.val z).signExtend 32

/-- R9: `w` is a Word of `XLEN` bits. -/
def Params.fits (p : Params) (w : Word) : Bool := p.s32 w.toInt == w

/-- R70: a register index in `[0, register-count)`. -/
def Params.hasRegister (p : Params) (r : Int) : Bool := decide (0 ≤ r ∧ r < p.nreg.val)

/-- R20: the place of register `r` in the file, if there is such a register. -/
def Params.regIndex? (p : Params) (r : Int) : Option (Fin 16) :=
  if h : 0 ≤ r ∧ r < p.nreg.val then some ⟨r.toNat, by have := p.nreg.2; omega⟩ else none

end Sys2Proof.Config

namespace Sys2Proof.Machine

/-! ### Registers and busy bits (spec/10_state.md R20, R21) -/

/-- R10 `x[r]`; there is no value for an index outside `0..NREG-1`, which Decode refuses (R117). -/
def State.readReg? (s : State) (r : Int) : Option Word :=
  (s.params.regIndex? r).map fun k => s.x.get k

/-- R10 `x[r] <- v`; no access is made for an index outside `0..NREG-1`. -/
def State.writeReg (s : State) (r : Int) (v : Word) : State :=
  match s.params.regIndex? r with
  | some k => { s with x := s.x.set k v }
  | none => s

/-- R10 `busy[r]`. -/
def State.isBusy (s : State) (r : Int) : Bool :=
  match s.params.regIndex? r with
  | some k => s.busy.get k
  | none => false

/-- R10 `busy[r] <- b`. -/
def State.setBusy (s : State) (r : Int) (b : Bool) : State :=
  match s.params.regIndex? r with
  | some k => { s with busy := s.busy.set k b }
  | none => s

/-- R122: mark every register of a list busy. -/
def State.markBusy (s : State) : List Int → State
  | [] => s
  | r :: rs => (s.setBusy r true).markBusy rs

/-- R130: `x[r] <- v ; busy[r] <- false`. -/
def State.commit (s : State) (r : Int) (v : Word) : State :=
  (s.writeReg r v).setBusy r false

/-- R130: the commits of one instruction, in order. -/
def State.commitAll (s : State) : List BusPair → State
  | [] => s
  | p :: ps => (s.commit p.reg p.value).commitAll ps

/-! ### Data memory (spec/20_memory.md R51, R63) -/

/-- R55: the word at an address: the last one written, or what an unlisted word reads as. -/
def Memory.read : Memory → Nat → Word
  | [], _ => Config.dmemDefault
  | (k, w) :: m, a => if k = a then w else Memory.read m a

/-- A listed word, or nothing where the word is what an unlisted address reads as. -/
def Memory.cell (a : Nat) (v : Word) : Memory :=
  if v = Config.dmemDefault then [] else [(a, v)]

/-- R55: write one word, keeping the canonical form. -/
def Memory.write : Memory → Nat → Word → Memory
  | [], a, v => Memory.cell a v
  | (k, w) :: m, a, v =>
    if a < k then Memory.cell a v ++ (k, w) :: m
    else if a = k then Memory.cell a v ++ m
    else (k, w) :: Memory.write m a v

/-- The canonical form from address `lo` on: addresses strictly rising, no word equal to the default. -/
def Memory.wfFrom : Nat → Memory → Bool
  | _, [] => true
  | lo, (k, w) :: m => decide (lo ≤ k) && decide (w ≠ Config.dmemDefault) && Memory.wfFrom (k + 1) m

/-- The canonical form. -/
def Memory.wf (m : Memory) : Bool := Memory.wfFrom 0 m

/-- Every listed word lies in `0..n-1`. -/
def Memory.below (m : Memory) (n : Nat) : Bool := m.all fun c => decide (c.1 < n)

/-- R63: the index of a data address, a signed Word, if it lies in `0..DMEM_WORDS-1`. -/
def State.dataIndex? (s : State) (a : Word) : Option Nat :=
  if 0 ≤ a.toInt ∧ a.toInt < s.params.dmemWords then some a.toInt.toNat else none

/-- R63 `MemRead(a, 1)`; none where it raises. -/
def State.memRead? (s : State) (a : Word) : Option Word :=
  (s.dataIndex? a).map s.dmem.read

/-- R63 `MemWrite(a, 1, v)`; none where it raises. -/
def State.memWrite? (s : State) (a v : Word) : Option State :=
  (s.dataIndex? a).map fun k => { s with dmem := s.dmem.write k v }

/-! ### Code memory (spec/20_memory.md R50) -/

/-- R50: the record index of a code address, whatever `NPROG` is. -/
def codeIndex? (a : Word) : Option Nat :=
  let off := a.toInt - Config.codeBase
  if off < 0 ∨ off % Config.ilen ≠ 0 then none else some (off / Config.ilen).toNat

/-- R50 `CodeRead(a)`: the record at a code address; none is `BADPC`. -/
def State.codeRead (s : State) (a : Word) : Option Record :=
  (codeIndex? a).bind fun k => s.code[k]?

/-! ### Latches and buses (spec/41_pipeline_stages.md R111, R112) -/

/-- R111: `XL <- DL ; DL.valid <- false`. -/
def State.advanceDecode (s : State) : State :=
  { s with xl := s.dl, dl := { s.dl with valid := false } }

/-- R123: `ML <- XL ; XL.valid <- false`. -/
def State.advanceExecute (s : State) : State :=
  { s with ml := s.xl, xl := { s.xl with valid := false } }

/-- R128: `WL <- ML ; ML.valid <- false`. -/
def State.advanceMemory (s : State) : State :=
  { s with wl := s.ml, ml := { s.ml with valid := false } }

/-- R130: `retired <- retired + 1 ; WL.valid <- false`. -/
def State.retire (s : State) : State :=
  { s with retired := s.retired + 1, wl := { s.wl with valid := false } }

/-- R113: `DL <- FL`. -/
def State.forwardFetch (s : State) : State :=
  { s with dl := s.fl }

/-- R115: `FL.valid <- false`. -/
def State.stopFetch (s : State) : State :=
  { s with fl := { s.fl with valid := false } }

/-- R31, R130: `halted <- true`. -/
def State.halt (s : State) : State :=
  { s with halted := true }

/-- R125: drive `EXBUS`. -/
def State.driveExbus (s : State) (ps : List BusPair) : State :=
  { s with exbus := s.exbus ++ ps }

/-- R129: drive `MEMBUS`. -/
def State.driveMembus (s : State) (ps : List BusPair) : State :=
  { s with membus := s.membus ++ ps }

/-- R112: both buses emptied. -/
def State.clearBuses (s : State) : State :=
  { s with exbus := [], membus := [] }

/-- R125: `XL.result <- r`. -/
def State.setResult (s : State) (r : Word) : State :=
  { s with xl := { s.xl with result := r } }

/-- R125: `XL.mem_addr <- a`. -/
def State.setMemAddr (s : State) (a : Word) : State :=
  { s with xl := { s.xl with memAddr := a } }

/-- R128: `ML.result <- v`. -/
def State.setLoaded (s : State) (v : Word) : State :=
  { s with ml := { s.ml with result := v } }

/-- R110: enter a stage function. -/
def State.at (s : State) (g : Stage) : State :=
  { s with stage := g }

/-! ### The flush (spec/41_pipeline_stages.md R126) -/

/-- R126 `Flush(t)`. -/
def State.flush (s : State) (t : Word) : State :=
  { s with
    pc := t
    dl := { s.dl with valid := false, stalled := false }
    fl := { s.fl with valid := true, stalled := false }
    redirectPending := true }

/-! ### Fatal conditions (spec/60_exceptions.md R216) -/

/-- R216: taking a fatal condition. `s` is the state at the end of the previous cycle: the cycle that detected `k` has
no other effect. There is no handler, no saved pc and no return (R217). -/
def State.takeFatal (s : State) (k : Fault) : State :=
  { s with fault := some k }

/-- R202, R203: what a stage raises on a latch whose opcode is not in R74. -/
def Latch.unsupported (l : Latch) : Fault :=
  match l.opcode with
  | .op o => .invalidOpcode l.pc o
  | .badpc => .codeAddressInvalid l.pc

/-- The latch that the current stage function works on. -/
def State.current (s : State) : Latch :=
  match s.stage with
  | .writeback => s.wl
  | .memory => s.ml
  | .execute => s.xl
  | .decode => s.dl
  | .fetch => s.fl

/-- R110: one stage function after another; the first that raises ends the cycle. -/
def andThen (r : Result State) (f : State → Result State) : Result State :=
  match r with
  | .next s => f s
  | .fault k => .fault k
  | .refused k => .refused k

end Sys2Proof.Machine
end

