-- ==== Sys2Proof/Machine/Btb.lean ====
section
/-! DEFINITION. The branch target buffer and predictor (spec/40_btb_predictor.md R90 to R99). -/

namespace Sys2Proof.Machine

/-- R90 `next_hist`. -/
def nextHist (h : Nat) (taken : Bool) : Nat :=
  if taken then min Config.histMax (h + 1) else h - 1

/-- R91: the prediction bit of a history. -/
def predOf (h : Nat) : Bool := decide (2 ≤ h)

/-- R96: the update of the entry of a resolved branch. -/
def BtbEntry.resolve (e : BtbEntry) (taken : Bool) (target : Word) : BtbEntry :=
  { e with
    hist := nextHist e.hist taken
    pred := predOf (nextHist e.hist taken)
    execCount := min Config.cntMax (e.execCount + 1)
    target := target
    everTaken := e.everTaken || taken }

/-- R93: the entry predicts taken for address `a`. -/
def BtbEntry.hits (e : BtbEntry) (a : Word) : Bool :=
  decide (e.addr = a) && e.everTaken && decide (e.execCount ≠ 0) && e.pred

/-- R93 `lookup(a)`: the oldest hit. -/
def btbLookup (btb : List BtbEntry) (a : Word) : Option BtbEntry :=
  btb.find? fun e => e.hits a

/-- R94: address `a` has an entry. -/
def btbHas (btb : List BtbEntry) (a : Word) : Bool :=
  btb.any fun e => decide (e.addr = a)

/-- R94: the entry a branch starts with. -/
def BtbEntry.fresh (a : Word) : Family → BtbEntry
  | .A => { addr := a, target := 0, pred := true, hist := 3, everTaken := false, execCount := 0 }
  | .B => { addr := a, target := 0, pred := false, hist := 0, everTaken := false, execCount := 0 }

/-- R94, R95: append as the newest entry; a full queue first loses its oldest. -/
def btbPush (btb : List BtbEntry) (e : BtbEntry) : List BtbEntry :=
  (if btb.length = Config.btbCap then btb.tail else btb) ++ [e]

/-- R94: the insertion Decode makes for a branch at `a`; `hit` is its latch's `btb_hit`. -/
def btbInsert (btb : List BtbEntry) (hit : Bool) (a : Word) (f : Family) : List BtbEntry :=
  if hit || btbHas btb a then btb else btbPush btb (BtbEntry.fresh a f)

/-- R96: the resolution update; no entry, no update (R100). -/
def btbUpdate (btb : List BtbEntry) (a : Word) (taken : Bool) (target : Word) : List BtbEntry :=
  btb.map fun e => if e.addr = a then e.resolve taken target else e

/-- R94, R122: what Decode does for the branch in `DL`. -/
def State.insertBranch (s : State) (f : Family) : State :=
  { s with btb := btbInsert s.btb s.dl.btbHit s.dl.pc f, dl := { s.dl with family := some f } }

/-- R96: what Execute does to the BTB for the branch in `XL`. -/
def State.resolveBranch (s : State) (taken : Bool) (target : Word) : State :=
  { s with btb := btbUpdate s.btb s.xl.pc taken target }

/-! ### The ring-buffer realisation (R98) -/

/-- R98: four slots, `head`, `tail`, `size`. -/
structure BtbRing where
  slots : Vector BtbEntry 4
  head : Fin 4
  tail : Fin 4
  size : Nat
  deriving DecidableEq, Repr

/-- R98: slots `head`, `head+1`, .. `head+size-1` modulo 4. -/
def BtbRing.toList (q : BtbRing) : List BtbEntry :=
  (List.range q.size).map fun k => q.slots.get (Fin.ofNat 4 (q.head.val + k))

/-- R98: append while there is room, else overwrite slot `head` and move both indices on. -/
def BtbRing.push (q : BtbRing) (e : BtbEntry) : BtbRing :=
  if q.size < Config.btbCap then
    { q with slots := q.slots.set q.tail e, tail := q.tail + 1, size := q.size + 1 }
  else
    { q with slots := q.slots.set q.head e, head := q.head + 1, tail := q.tail + 1 }

/-- R98: the shape of a ring: at most four entries, `tail` just past the newest. -/
def BtbRing.ok (q : BtbRing) : Bool :=
  decide (q.size ≤ 4) && decide (q.tail = Fin.ofNat 4 (q.head.val + q.size))

end Sys2Proof.Machine
end

