-- ==== Sys2Proof/Machine/Flags.lean ====
section
/-! DEFINITION. The condition codes (spec/42_alu.md R172, R169; spec/10_state.md R23). -/

namespace Sys2Proof.Machine

/-- R172 `flags(r)`: zero, positive, negative, by the signed value of the wrapped result. -/
def flagsOf (r : Word) : CondCodes :=
  { z := decide (r.toInt = 0), p := decide (0 < r.toInt), n := decide (r.toInt < 0) }

/-- R169: the flags of the exact comparison of two Words (`CMP_EXACT = true`). -/
def flagsExact (a b : Word) : CondCodes :=
  { z := decide (a.toInt = b.toInt), p := decide (b.toInt < a.toInt), n := decide (a.toInt < b.toInt) }

/-- R169, R170: the flags of a compare. -/
def flagsCompare (p : Config.Params) (a b : Word) : CondCodes :=
  if p.cmpExact then flagsExact a b else flagsOf (p.s32 (a.toInt - b.toInt))

/-- R124: write all three condition codes at once. -/
def State.setFlags (s : State) (c : CondCodes) : State :=
  { s with cc := c }

/-- R172: write the condition codes from `r` when `on`; otherwise they are unchanged. -/
def State.flagsWhen (s : State) (on : Bool) (r : Word) : State :=
  if on then s.setFlags (flagsOf r) else s

end Sys2Proof.Machine
end

