-- ==== Sys2Proof/Machine/Operands.lean ====
section
/-! DEFINITION. Operand resolution, the stall and the issue of Decode (spec/41_pipeline_stages.md R117 to R122), the one
addressing mode (spec/43_load_store.md R184), and the shared bodies of the five stages. -/

namespace Sys2Proof.Machine

/-! ### Addressing (R184) -/

/-- R184: `EA = s32(base + imm)`. -/
def effectiveAddress (p : Config.Params) (base imm : Word) : Word := p.s32 (base.toInt + imm.toInt)

/-- R24, R184: the incremented base, `s32(base + PTR_INC)`. -/
def State.pointer (s : State) (base : Word) : Word := s.params.s32 (base.toInt + s.params.ptrInc)

/-! ### Source resolution (R119) -/

/-- R119: the value some pair of a bus gives for register `r`. -/
def busFind (bus : List BusPair) (r : Int) : Option Word :=
  (bus.find? fun p => decide (p.reg = r)).map BusPair.value

/-- R119 `resolve(r)`: `EXBUS`, then `MEMBUS`, then the register file if `r` is not busy; none is `unresolved`. -/
def State.resolve (s : State) (r : Int) : Option Word :=
  match busFind s.exbus r with
  | some v => some v
  | none =>
    match busFind s.membus r with
    | some v => some v
    | none => if s.isBusy r then none else s.readReg? r

/-- R118: the registers Decode handles for an instruction: the source for `rs1_value`, the source for `rs2_value`, the
destinations. -/
structure Operands where
  src1 : Option Int
  src2 : Option Int
  dests : List Int
  deriving DecidableEq, Repr

/-- R117: the register fields the opcode uses, in the order `rs1`, `rs2`, `rd`. -/
def Operands.fields (o : Operands) : List Int :=
  o.src1.toList ++ o.src2.toList ++ o.dests

end Sys2Proof.Machine

namespace Sys2Proof

open Sys2Proof.Machine

/-- R118: the table of operand classes. -/
def Instr.operands : Instr → Operands
  | .add rd rs1 rs2 => ⟨some rs1, some rs2, [rd]⟩
  | .sub rd rs1 rs2 => ⟨some rs1, some rs2, [rd]⟩
  | .mul rd rs1 rs2 => ⟨some rs1, some rs2, [rd]⟩
  | .div _ _ _ _ => ⟨none, none, []⟩
  | .and rd rs1 rs2 => ⟨some rs1, some rs2, [rd]⟩
  | .or rd rs1 rs2 => ⟨some rs1, some rs2, [rd]⟩
  | .xor rd rs1 rs2 => ⟨some rs1, some rs2, [rd]⟩
  | .movc rd _ => ⟨none, none, [rd]⟩
  | .load rd rs1 _ => ⟨some rs1, none, [rd]⟩
  | .store rs1 rs2 _ => ⟨some rs1, some rs2, []⟩
  | .bz _ => ⟨none, none, []⟩
  | .bnz _ => ⟨none, none, []⟩
  | .halt => ⟨none, none, []⟩
  | .addl rd rs1 _ => ⟨some rs1, none, [rd]⟩
  | .subl rd rs1 _ => ⟨some rs1, none, [rd]⟩
  | .loadp rd rs1 _ => ⟨some rs1, none, [rd, rs1]⟩
  | .storep rs1 rs2 _ => ⟨some rs1, some rs2, [rs2]⟩
  | .cmp rs1 rs2 => ⟨some rs1, some rs2, []⟩
  | .cml rs1 _ => ⟨some rs1, none, []⟩
  | .bp _ => ⟨none, none, []⟩
  | .bnp _ => ⟨none, none, []⟩
  | .jump rs1 _ => ⟨some rs1, none, []⟩
  | .jalr rd rs1 _ => ⟨some rs1, none, [rd]⟩

/-- R92: the family of a conditional branch; none for every other instruction. -/
def Instr.family? : Instr → Option Family
  | .bnz _ => some .A
  | .bp _ => some .A
  | .bz _ => some .B
  | .bnp _ => some .B
  | _ => none

end Sys2Proof

namespace Sys2Proof.Machine

/-- R117: the first register field the instruction uses that names no register. -/
def Operands.badField? (o : Operands) (p : Config.Params) : Option Int :=
  o.fields.find? fun f => !p.hasRegister f

/-- R122: the value field of a latch after resolution: the resolved value if the field is a source, else as it was. -/
def State.operand (s : State) (src : Option Int) (old : Word) : Option Word :=
  match src with
  | some r => s.resolve r
  | none => some old

/-! ### Decode (R117, R120 to R122) -/

/-- R121: the stall. -/
def State.stall (s : State) : State :=
  { s with dl := { s.dl with stalled := true }, fl := { s.fl with stalled := true } }

/-- R122: `DL.stalled <- false ; FL.stalled <- false`. -/
def State.unstall (s : State) : State :=
  { s with dl := { s.dl with stalled := false }, fl := { s.fl with stalled := false } }

/-- R122: keep the resolved operand values in `DL`. -/
def State.setOperands (s : State) (a b : Word) : State :=
  { s with dl := { s.dl with rs1Value := a, rs2Value := b } }

/-- R122: the proceed action of an instruction with destinations `ds`. -/
def State.issue (s : State) (a b : Word) (ds : List Int) : State :=
  (((s.setOperands a b).markBusy ds).unstall).advanceDecode

/-- R117, R120: Decode of an instruction with operands `o`: range check, then stall or issue. -/
def decodeOperands (o : Operands) (s : State) : Result State :=
  match o.badField? s.params with
  | some f => .fault (.registerIndexOutOfRange s.dl.pc f)
  | none =>
    match s.operand o.src1 s.dl.rs1Value, s.operand o.src2 s.dl.rs2Value with
    | some a, some b => if o.dests.any s.isBusy then .next s.stall else .next (s.issue a b o.dests)
    | _, _ => .next s.stall

/-- R122, R196: Decode of a conditional branch: no source, no destination, never a stall. -/
def decodeBranch (f : Family) (s : State) : Result State :=
  .next ((s.insertBranch f).unstall).advanceDecode

/-! ### Fetch (R113, R115) -/

/-- R113: forward the fetched instruction into Decode. -/
def fetchForward (s : State) : Result State := .next s.forwardFetch

/-- R115: the same for `HALT`, which switches Fetch off. -/
def fetchHalt (s : State) : Result State := .next s.forwardFetch.stopFetch

/-! ### Execute (R123, R125) -/

/-- R125: an instruction with a result: `XL.result`, the flags when `on`, the pair `(rd, result)` on `EXBUS`. -/
def executeResult (rd : Int) (r : Word) (on : Bool) (s : State) : Result State :=
  .next (((s.setResult r).flagsWhen on r).driveExbus [⟨rd, r⟩]).advanceExecute

/-- R169, R170: a compare: the flags only. -/
def executeCompare (a b : Word) (s : State) : Result State :=
  .next (s.setFlags (flagsCompare s.params a b)).advanceExecute

/-- R125, R184: a load or a store: `XL.mem_addr`, and the pointer pair of an auto-increment form on `EXBUS`. -/
def executeAddress (base imm : Word) (ps : List BusPair) (s : State) : Result State :=
  .next ((s.setMemAddr (effectiveAddress s.params base imm)).driveExbus ps).advanceExecute

/-- R196: the taken-target of the branch in `XL`. -/
def State.branchTarget (s : State) (imm : Word) : Word := s.params.s32 (s.xl.pc.toInt + imm.toInt)

/-- R195, R196: the address after the instruction in `XL`. -/
def State.fallThrough (s : State) : Word := s.params.s32 (s.xl.pc.toInt + Config.ilen)

/-- R196: resolution of a conditional branch: the BTB update, and a flush when the outcome is not what Fetch did. -/
def executeBranch (taken : Bool) (imm : Word) (s : State) : Result State :=
  let u := s.resolveBranch taken (s.branchTarget imm)
  if taken != s.xl.btbHit then
    .next (u.flush (if taken then s.branchTarget imm else s.fallThrough)).advanceExecute
  else
    .next u.advanceExecute

/-- R123: an instruction with nothing to execute. -/
def executeNothing (s : State) : Result State := .next s.advanceExecute

/-! ### Memory (R128, R129) -/

/-- R128: no data access; drive `MEMBUS`. -/
def memoryPass (ps : List BusPair) (s : State) : Result State :=
  .next (s.driveMembus ps).advanceMemory

/-- R128: a load; `ps` are the pairs driven with the loaded value. -/
def memoryLoad (ps : Word → List BusPair) (s : State) : Result State :=
  match s.memRead? s.ml.memAddr with
  | some v => .next ((s.setLoaded v).driveMembus (ps v)).advanceMemory
  | none => .fault (.memoryAddressOutOfRange s.ml.pc s.ml.memAddr)

/-- R128: a store of `ML.rs1_value`. -/
def memoryStore (ps : List BusPair) (s : State) : Result State :=
  match s.memWrite? s.ml.memAddr s.ml.rs1Value with
  | some t => .next (t.driveMembus ps).advanceMemory
  | none => .fault (.memoryAddressOutOfRange s.ml.pc s.ml.memAddr)

/-! ### Writeback (R130) -/

/-- R130: commit the register writes `ws`, retire. -/
def writebackCommit (ws : List BusPair) (s : State) : Result State :=
  .next (s.commitAll ws).retire

/-- R130: `HALT` retires. -/
def writebackHalt (s : State) : Result State := .next s.halt.retire

end Sys2Proof.Machine
end

