-- ==== Sys2Proof/Machine/Alu.lean ====
section
/-! DEFINITION. ALU, move and compare instructions (spec/42_alu.md). A meaning is what the stage function `s.stage` does to
the instruction in its latch: the lines Decode, Execute, Memory, Writeback of its rule. -/

namespace Sys2Proof.Machine

/-- R160 `ADD Rd,Rs1,Rs2`. -/
def execAdd (rd rs1 rs2 : Int) (s : State) : Result State :=
  match s.stage with
  | .fetch => fetchForward s
  | .decode => decodeOperands ⟨some rs1, some rs2, [rd]⟩ s
  | .execute => executeResult rd (s.params.s32 (s.xl.rs1Value.toInt + s.xl.rs2Value.toInt)) true s
  | .memory => memoryPass [⟨rd, s.ml.result⟩] s
  | .writeback => writebackCommit [⟨rd, s.wl.result⟩] s

/-- R161 `SUB Rd,Rs1,Rs2`. -/
def execSub (rd rs1 rs2 : Int) (s : State) : Result State :=
  match s.stage with
  | .fetch => fetchForward s
  | .decode => decodeOperands ⟨some rs1, some rs2, [rd]⟩ s
  | .execute => executeResult rd (s.params.s32 (s.xl.rs1Value.toInt - s.xl.rs2Value.toInt)) true s
  | .memory => memoryPass [⟨rd, s.ml.result⟩] s
  | .writeback => writebackCommit [⟨rd, s.wl.result⟩] s

/-- R162 `MUL Rd,Rs1,Rs2`. -/
def execMul (rd rs1 rs2 : Int) (s : State) : Result State :=
  match s.stage with
  | .fetch => fetchForward s
  | .decode => decodeOperands ⟨some rs1, some rs2, [rd]⟩ s
  | .execute => executeResult rd (s.params.s32 (s.xl.rs1Value.toInt * s.xl.rs2Value.toInt)) true s
  | .memory => memoryPass [⟨rd, s.ml.result⟩] s
  | .writeback => writebackCommit [⟨rd, s.wl.result⟩] s

/-- R163 `AND Rd,Rs1,Rs2`, bit by bit. -/
def execAnd (rd rs1 rs2 : Int) (s : State) : Result State :=
  match s.stage with
  | .fetch => fetchForward s
  | .decode => decodeOperands ⟨some rs1, some rs2, [rd]⟩ s
  | .execute => executeResult rd (s.xl.rs1Value &&& s.xl.rs2Value) s.params.flagsOnLogical s
  | .memory => memoryPass [⟨rd, s.ml.result⟩] s
  | .writeback => writebackCommit [⟨rd, s.wl.result⟩] s

/-- R164 `OR Rd,Rs1,Rs2`, bit by bit. -/
def execOr (rd rs1 rs2 : Int) (s : State) : Result State :=
  match s.stage with
  | .fetch => fetchForward s
  | .decode => decodeOperands ⟨some rs1, some rs2, [rd]⟩ s
  | .execute => executeResult rd (s.xl.rs1Value ||| s.xl.rs2Value) s.params.flagsOnLogical s
  | .memory => memoryPass [⟨rd, s.ml.result⟩] s
  | .writeback => writebackCommit [⟨rd, s.wl.result⟩] s

/-- R165 `XOR Rd,Rs1,Rs2`, bit by bit. -/
def execXor (rd rs1 rs2 : Int) (s : State) : Result State :=
  match s.stage with
  | .fetch => fetchForward s
  | .decode => decodeOperands ⟨some rs1, some rs2, [rd]⟩ s
  | .execute => executeResult rd (s.xl.rs1Value ^^^ s.xl.rs2Value) s.params.flagsOnLogical s
  | .memory => memoryPass [⟨rd, s.ml.result⟩] s
  | .writeback => writebackCommit [⟨rd, s.wl.result⟩] s

/-- R166 `ADDL Rd,Rs1,#imm`. -/
def execAddl (rd rs1 : Int) (imm : Word) (s : State) : Result State :=
  match s.stage with
  | .fetch => fetchForward s
  | .decode => decodeOperands ⟨some rs1, none, [rd]⟩ s
  | .execute => executeResult rd (s.params.s32 (s.xl.rs1Value.toInt + imm.toInt)) true s
  | .memory => memoryPass [⟨rd, s.ml.result⟩] s
  | .writeback => writebackCommit [⟨rd, s.wl.result⟩] s

/-- R167 `SUBL Rd,Rs1,#imm`. -/
def execSubl (rd rs1 : Int) (imm : Word) (s : State) : Result State :=
  match s.stage with
  | .fetch => fetchForward s
  | .decode => decodeOperands ⟨some rs1, none, [rd]⟩ s
  | .execute => executeResult rd (s.params.s32 (s.xl.rs1Value.toInt - imm.toInt)) true s
  | .memory => memoryPass [⟨rd, s.ml.result⟩] s
  | .writeback => writebackCommit [⟨rd, s.wl.result⟩] s

/-- R168 `MOVC Rd,#imm`. -/
def execMovc (rd : Int) (imm : Word) (s : State) : Result State :=
  match s.stage with
  | .fetch => fetchForward s
  | .decode => decodeOperands ⟨none, none, [rd]⟩ s
  | .execute => executeResult rd imm s.params.flagsOnMovc s
  | .memory => memoryPass [⟨rd, s.ml.result⟩] s
  | .writeback => writebackCommit [⟨rd, s.wl.result⟩] s

/-- R169 `CMP Rs1,Rs2`. -/
def execCmp (rs1 rs2 : Int) (s : State) : Result State :=
  match s.stage with
  | .fetch => fetchForward s
  | .decode => decodeOperands ⟨some rs1, some rs2, []⟩ s
  | .execute => executeCompare s.xl.rs1Value s.xl.rs2Value s
  | .memory => memoryPass [] s
  | .writeback => writebackCommit [] s

/-- R170 `CML Rs1,#imm`. -/
def execCml (rs1 : Int) (imm : Word) (s : State) : Result State :=
  match s.stage with
  | .fetch => fetchForward s
  | .decode => decodeOperands ⟨some rs1, none, []⟩ s
  | .execute => executeCompare s.xl.rs1Value imm s
  | .memory => memoryPass [] s
  | .writeback => writebackCommit [] s

end Sys2Proof.Machine
end

