-- ==== Sys2Proof/Machine/Control.lean ====
section
/-! DEFINITION. Branches and jumps (spec/44_control_transfer.md). A meaning is what the stage function `s.stage` does to
the instruction in its latch. -/

namespace Sys2Proof.Machine

/-- R190 `BZ #imm`, family B, taken on `Z` (R196). -/
def execBz (imm : Word) (s : State) : Result State :=
  match s.stage with
  | .fetch => fetchForward s
  | .decode => decodeBranch .B s
  | .execute => executeBranch s.cc.z imm s
  | .memory => memoryPass [] s
  | .writeback => writebackCommit [] s

/-- R191 `BNZ #imm`, family A, taken on not `Z` (R196). -/
def execBnz (imm : Word) (s : State) : Result State :=
  match s.stage with
  | .fetch => fetchForward s
  | .decode => decodeBranch .A s
  | .execute => executeBranch (!s.cc.z) imm s
  | .memory => memoryPass [] s
  | .writeback => writebackCommit [] s

/-- R192 `BP #imm`, family A, taken on `P` (R196). -/
def execBp (imm : Word) (s : State) : Result State :=
  match s.stage with
  | .fetch => fetchForward s
  | .decode => decodeBranch .A s
  | .execute => executeBranch s.cc.p imm s
  | .memory => memoryPass [] s
  | .writeback => writebackCommit [] s

/-- R193 `BNP #imm`, family B, taken on not `P` (R196). -/
def execBnp (imm : Word) (s : State) : Result State :=
  match s.stage with
  | .fetch => fetchForward s
  | .decode => decodeBranch .B s
  | .execute => executeBranch (!s.cc.p) imm s
  | .memory => memoryPass [] s
  | .writeback => writebackCommit [] s

/-- R125, R194: the target of `JUMP` and `JALR`, from the base that Decode resolved. -/
def State.jumpTarget (s : State) (imm : Word) : Word := effectiveAddress s.params s.xl.rs1Value imm

/-- R194: Execute of an unconditional transfer: `Flush(s32(a + i))`, no BTB action. -/
def executeJump (imm : Word) (s : State) : Result State :=
  .next (s.flush (s.jumpTarget imm)).advanceExecute

/-- R195: the same with a link: `result <- s32(XL.pc + 4)`, `(rd, result)` on `EXBUS`. -/
def executeJumpLink (rd : Int) (imm : Word) (s : State) : Result State :=
  .next ((((s.setResult s.fallThrough).driveExbus [⟨rd, s.fallThrough⟩]).flush (s.jumpTarget imm)).advanceExecute)

/-- R194 `JUMP Rs1,#imm`. -/
def execJump (rs1 : Int) (imm : Word) (s : State) : Result State :=
  match s.stage with
  | .fetch => fetchForward s
  | .decode => decodeOperands ⟨some rs1, none, []⟩ s
  | .execute => executeJump imm s
  | .memory => memoryPass [] s
  | .writeback => writebackCommit [] s

/-- R195 `JALR Rd,Rs1,#imm`. -/
def execJalr (rd rs1 : Int) (imm : Word) (s : State) : Result State :=
  match s.stage with
  | .fetch => fetchForward s
  | .decode => decodeOperands ⟨some rs1, none, [rd]⟩ s
  | .execute => executeJumpLink rd imm s
  | .memory => memoryPass [⟨rd, s.ml.result⟩] s
  | .writeback => writebackCommit [⟨rd, s.wl.result⟩] s

end Sys2Proof.Machine
end

