-- ==== Sys2Proof/Machine/LoadStore.lean ====
section
/-! DEFINITION. Loads and stores (spec/43_load_store.md). A meaning is what the stage function `s.stage` does to the
instruction in its latch. -/

namespace Sys2Proof.Machine

/-- R180 `LOAD Rd,Rs1,#imm`. -/
def execLoad (rd rs1 : Int) (imm : Word) (s : State) : Result State :=
  match s.stage with
  | .fetch => fetchForward s
  | .decode => decodeOperands ⟨some rs1, none, [rd]⟩ s
  | .execute => executeAddress s.xl.rs1Value imm [] s
  | .memory => memoryLoad (fun v => [⟨rd, v⟩]) s
  | .writeback => writebackCommit [⟨rd, s.wl.result⟩] s

/-- R181 `LOADP Rd,Rs1,#imm`; refused with `rd = rs1`. -/
def execLoadp (rd rs1 : Int) (imm : Word) (s : State) : Result State :=
  match s.stage with
  | .fetch => fetchForward s
  | .decode => if rd = rs1 then .fault (.invalidOpcode s.dl.pc .loadp) else decodeOperands ⟨some rs1, none, [rd, rs1]⟩ s
  | .execute => executeAddress s.xl.rs1Value imm [⟨rs1, s.pointer s.xl.rs1Value⟩] s
  | .memory => memoryLoad (fun v => [⟨rd, v⟩, ⟨rs1, s.pointer s.ml.rs1Value⟩]) s
  | .writeback => writebackCommit [⟨rs1, s.pointer s.wl.rs1Value⟩, ⟨rd, s.wl.result⟩] s

/-- R182 `STORE Rs1,Rs2,#imm`: `rs1` is stored, `rs2` is the base. -/
def execStore (rs1 rs2 : Int) (imm : Word) (s : State) : Result State :=
  match s.stage with
  | .fetch => fetchForward s
  | .decode => decodeOperands ⟨some rs1, some rs2, []⟩ s
  | .execute => executeAddress s.xl.rs2Value imm [] s
  | .memory => memoryStore [] s
  | .writeback => writebackCommit [] s

/-- R183 `STOREP Rs1,Rs2,#imm`. -/
def execStorep (rs1 rs2 : Int) (imm : Word) (s : State) : Result State :=
  match s.stage with
  | .fetch => fetchForward s
  | .decode => decodeOperands ⟨some rs1, some rs2, [rs2]⟩ s
  | .execute => executeAddress s.xl.rs2Value imm [⟨rs2, s.pointer s.xl.rs2Value⟩] s
  | .memory => memoryStore [⟨rs2, s.pointer s.ml.rs2Value⟩] s
  | .writeback => writebackCommit [⟨rs2, s.pointer s.wl.rs2Value⟩] s

end Sys2Proof.Machine
end

