-- ==== Sys2Proof/Machine/System.lean ====
section
/-! DEFINITION. Halt and the declared-but-unimplemented opcode (spec/45_halt_and_reserved.md). A meaning is what the stage
function `s.stage` does to the instruction in its latch. -/

namespace Sys2Proof.Machine

/-- R200 `HALT`. -/
def execHalt (s : State) : Result State :=
  match s.stage with
  | .fetch => fetchHalt s
  | .decode => decodeOperands ⟨none, none, []⟩ s
  | .execute => executeNothing s
  | .memory => memoryPass [] s
  | .writeback => writebackHalt s

/-- R201 `DIV`: fetched like any record, refused by Decode with `InvalidOpcode`. It cannot pass Decode; in a later
stage's latch, which no run reaches, it is the unsupported opcode of R202 and raises the same. -/
def execDiv (_rd _rs1 _rs2 : Int) (_imm : Word) (s : State) : Result State :=
  match s.stage with
  | .fetch => fetchForward s
  | .decode => .fault (.invalidOpcode s.dl.pc .div)
  | .execute => .fault (.invalidOpcode s.xl.pc .div)
  | .memory => .fault (.invalidOpcode s.ml.pc .div)
  | .writeback => .fault (.invalidOpcode s.wl.pc .div)

end Sys2Proof.Machine
end

