-- ==== Sys2Proof/Machine/Cycle.lean ====
section
/-! DEFINITION. One cycle: the five stage functions over the latches, in the order Writeback, Memory, Execute, Decode,
Fetch (spec/41_pipeline_stages.md R110 to R113), and how a program comes into code memory. -/

namespace Sys2Proof.Machine

/-- R111: stage `g` with latch `l`: nothing on a bubble, else the stage's work on the instruction in the latch. An opcode
that is not in R74 raises (R202, R203). -/
def runStage (g : Stage) (l : Latch) (s : State) : Result State :=
  if l.valid then
    match l.instr? with
    | some i => exec i (s.at g)
    | none => .fault l.unsupported
  else .next s

/-- R130. -/
def writebackStage (s : State) : Result State := runStage .writeback s.wl s

/-- R128. -/
def memoryStage (s : State) : Result State := runStage .memory s.ml s

/-- R123. -/
def executeStage (s : State) : Result State := runStage .execute s.xl s

/-- R117. -/
def decodeStage (s : State) : Result State := runStage .decode s.dl s

/-- R113: the latch Fetch fills from what it read at `a`: a record, or `BADPC`. -/
def fetchedLatch (old : Latch) (a : Word) (r : Option Record) (hit : Bool) : Latch :=
  { old with
    pc := a
    opcode := match r with | some c => .op c.opcode | none => .badpc
    rd := match r with | some c => c.rd | none => 0
    rs1 := match r with | some c => c.rs1 | none => 0
    rs2 := match r with | some c => c.rs2 | none => 0
    imm := match r with | some c => c.imm | none => 0
    rs1Value := 0, rs2Value := 0, result := 0, memAddr := 0, family := none, btbHit := hit }

/-- R113, R116: read the instruction at `pc` into `FL`, look it up in the BTB, and move `pc` on. -/
def State.fetchFill (s : State) : State :=
  match btbLookup s.btb s.pc with
  | some e => { s with fl := fetchedLatch s.fl s.pc (s.codeRead s.pc) true, pc := e.target }
  | none => { s with fl := fetchedLatch s.fl s.pc (s.codeRead s.pc) false, pc := s.params.s32 (s.pc.toInt + Config.ilen) }

/-- R113: the end of Fetch: the fetched latch goes to Decode, whatever it holds. -/
def fetchDeliver (s : State) : Result State :=
  match s.fl.instr? with
  | some i => exec i (s.at .fetch)
  | none => fetchForward (s.at .fetch)

/-- R113. -/
def fetchStage (s : State) : Result State :=
  if !s.fl.valid then .next s
  else if s.redirectPending then .next { s with redirectPending := false }
  else if s.fl.stalled then .next { s with fl := { s.fl with pc := s.pc } }
  else fetchDeliver s.fetchFill

/-- R110: the four stages that run before Fetch, with the buses emptied first (R112). -/
def backEnd (s : State) : Result State :=
  andThen (andThen (andThen (writebackStage s.clearBuses) memoryStage) executeStage) decodeStage

/-- R110: the five stage functions of one cycle. -/
def cycleStages (s : State) : Result State := andThen (backEnd s) fetchStage

/-- R33, R26: the end of a cycle: it is counted, and nothing on the buses survives. -/
def State.closeCycle (s : State) : State :=
  { s.clearBuses with cycles := s.cycles + 1, stage := .writeback }

/-- R110: one cycle. A halted or faulted core does not change (R132, R216); a fatal condition discards the cycle and is
recorded. -/
def stepCycle (s : State) : Result State :=
  if s.halted || s.fault.isSome then .next s
  else
    match cycleStages s with
    | .next t => .next t.closeCycle
    | .fault k => .next (s.takeFatal k)
    | .refused r => .refused r

/-- An empty pipeline with Fetch enabled: no instruction in flight, no stall, no redirect, not halted, not faulted. -/
def State.drain (s : State) : State :=
  { s with
    busy := Vector.replicate 16 false
    fl := { s.fl with valid := true, stalled := false }
    dl := { s.dl with valid := false, stalled := false }
    xl := { s.xl with valid := false }
    ml := { s.ml with valid := false }
    wl := { s.wl with valid := false }
    redirectPending := false
    halted := false
    fault := none }

/-- A record put where Fetch reads next: at `pc` if that is an address of the program or the one after it, else alone at
`CODE_BASE`. -/
def State.placeRecord (s : State) (r : Record) : State :=
  match codeIndex? s.pc with
  | some k =>
    if k < s.code.length then { s with code := s.code.set k r }
    else if k = s.code.length then { s with code := s.code ++ [r] }
    else { s with code := [r], pc := word Config.codeBase }
  | none => { s with code := [r], pc := word Config.codeBase }

end Sys2Proof.Machine
end

