-- ==== Sys2Proof/Machine/Step.lean ====
section
/-! DEFINITION. The step: one cycle (spec/00_scope.md R3, R12; spec/41_pipeline_stages.md R110). -/

namespace Sys2Proof.Machine

/-- R110: one cycle. -/
def step (s : State) : Host.Outcome State Fault Refusal := stepCycle s

/-- The state whose next cycle fetches the record of the word `w`, with no other instruction in flight. -/
def State.withFetchWord (s : State) (nbits w : Nat) : State :=
  s.drain.placeRecord (decodeRecord (tableWord nbits w))

end Sys2Proof.Machine
end

