-- ==== Sys2Proof/Machine/Lifecycle.lean ====
section
/-! DEFINITION. The lifecycle surface the host acts through (spec/70_reset_and_hazards.md R240 to R248) and the snapshot it
may read (spec/60_exceptions.md R232). -/

namespace Sys2Proof.Machine

/-- R37: data memory holding the given words over the default. -/
def Memory.ofWords : List (Nat × Word) → Memory
  | [] => []
  | (a, v) :: ws => (Memory.ofWords ws).write a v

/-- R240: `initialize(instructions)`: the reset state with the program in code memory, or `InitError` on an empty
sequence (R211). `params` and `init` are the launch inputs of R7. Records are not inspected. -/
def State.initialize (instructions : List Record) (params : Config.Params) (init : List (Nat × Word)) :
    Except Fault State :=
  if instructions.isEmpty then .error .initError
  else
    .ok { State.reset with
      code := instructions
      params := params
      dmem := Memory.ofWords (init.filter fun c => decide (c.1 < params.dmemWords)) }

/-- R244 `stepOneCycle(state)`: the state after one step, and `halted`. -/
def stepOneCycle (s : State) : State × Bool :=
  match step s with
  | .next t => (t, t.halted)
  | .fault _ => (s, s.halted)
  | .refused _ => (s, s.halted)

/-- R246: `ExecutionReport`. -/
structure ExecutionReport where
  cyclesExecuted : Nat
  instructionsRetired : Nat
  haltedNormally : Bool
  deriving DecidableEq, Repr

/-- R246: the state `runUntilHalt` leaves: at most `maxCycles` steps, none once halted or faulted. -/
def runState : Nat → State → State
  | 0, s => s
  | n + 1, s => if s.halted || s.fault.isSome then s else runState n (stepOneCycle s).1

/-- R246 `runUntilHalt(state, maxCycles)`. -/
def runUntilHalt (s : State) (maxCycles : Nat) : ExecutionReport :=
  let t := runState maxCycles s
  { cyclesExecuted := t.cycles, instructionsRetired := t.retired, haltedNormally := t.halted }

/-- R245 `dispose(state)`: nothing of the state survives. -/
def State.dispose (_s : State) : Unit := ()

/-- R232: the read-only snapshot. -/
structure Snapshot where
  pc : Word
  x : Vector Word 16
  busy : Vector Bool 16
  cc : CondCodes
  dmem : Memory
  deriving DecidableEq, Repr

/-- R232: the accessors. -/
def State.snapshot (s : State) : Snapshot :=
  { pc := s.pc, x := s.x, busy := s.busy, cc := s.cc, dmem := s.dmem }

end Sys2Proof.Machine
end

