-- ==== Sys2Proof/Machine/Sequential.lean ====
section
/-! DEFINITION. The sequential machine of R134 (spec/41_pipeline_stages.md) over the architectural state of R38
(spec/10_state.md): one whole instruction a step, its effect the "Net effect" line of its rule. It is what the pipelined
core is compared with; the core's own step does not use it. -/

namespace Sys2Proof.Machine

/-- R38: the architectural state, with the program and the parameters. -/
structure ArchState where
  x : Vector Word 16
  cc : CondCodes
  dmem : Memory
  /-- The sequential program counter: the address of the next instruction; of the `HALT`, once it has retired (R200). -/
  spc : Word
  retired : Nat
  halted : Bool
  fault : Option Fault
  code : List Record
  params : Config.Params
  deriving DecidableEq, Repr

namespace ArchState

/-- `x[r]`; R117 lets no other register through. -/
def get (a : ArchState) (r : Int) : Word :=
  match a.params.regIndex? r with
  | some k => a.x.get k
  | none => 0

/-- `x[r] <- v`. -/
def put (a : ArchState) (r : Int) (v : Word) : ArchState :=
  match a.params.regIndex? r with
  | some k => { a with x := a.x.set k v }
  | none => a

/-- The instruction is complete; the next is at `t`. -/
def goTo (a : ArchState) (t : Word) : ArchState :=
  { a with spc := t, retired := a.retired + 1 }

/-- `spc + 4`. -/
def after (a : ArchState) : Word := a.params.s32 (a.spc.toInt + Config.ilen)

/-- `spc <- spc + 4`. -/
def advance (a : ArchState) : ArchState := a.goTo a.after

/-- The fatal condition `k`: nothing else changes. -/
def raise (a : ArchState) (k : Fault) : ArchState := { a with fault := some k }

/-- The flags of `r`, when `on`. -/
def flagsWhen (a : ArchState) (on : Bool) (r : Word) : ArchState :=
  if on then { a with cc := flagsOf r } else a

/-- An ALU or move result. -/
def result (a : ArchState) (rd : Int) (r : Word) (on : Bool) : ArchState :=
  ((a.put rd r).flagsWhen on r).advance

/-- A compare. -/
def compare (a : ArchState) (u v : Word) : ArchState :=
  { a with cc := flagsCompare a.params u v }.advance

/-- R63: the index of a data address. -/
def dataIndex? (a : ArchState) (ea : Word) : Option Nat :=
  if 0 ≤ ea.toInt ∧ ea.toInt < a.params.dmemWords then some ea.toInt.toNat else none

/-- R184: the incremented base. -/
def pointer (a : ArchState) (base : Word) : Word := a.params.s32 (base.toInt + a.params.ptrInc)

/-- A conditional branch. -/
def branch (a : ArchState) (taken : Bool) (imm : Word) : ArchState :=
  a.goTo (if taken then a.params.s32 (a.spc.toInt + imm.toInt) else a.after)

/-- A load: `k` says what is written with the loaded word. -/
def load (a : ArchState) (ea : Word) (k : Word → ArchState) : ArchState :=
  match a.dataIndex? ea with
  | some n => (k (a.dmem.read n)).advance
  | none => a.raise (.memoryAddressOutOfRange a.spc ea)

/-- A store of `v`: `k` says what else is written. -/
def store (a : ArchState) (ea v : Word) (k : ArchState → ArchState) : ArchState :=
  match a.dataIndex? ea with
  | some n => (k { a with dmem := a.dmem.write n v }).advance
  | none => a.raise (.memoryAddressOutOfRange a.spc ea)

/-- The "Net effect" lines of R160 to R170, R180 to R183, R190 to R197, R200; `HALT` changes `halted` and `retired` only. -/
def effect (a : ArchState) : Instr → ArchState
  | .add rd rs1 rs2 => a.result rd (a.params.s32 ((a.get rs1).toInt + (a.get rs2).toInt)) true
  | .sub rd rs1 rs2 => a.result rd (a.params.s32 ((a.get rs1).toInt - (a.get rs2).toInt)) true
  | .mul rd rs1 rs2 => a.result rd (a.params.s32 ((a.get rs1).toInt * (a.get rs2).toInt)) true
  | .div _ _ _ _ => a.raise (.invalidOpcode a.spc .div)
  | .and rd rs1 rs2 => a.result rd (a.get rs1 &&& a.get rs2) a.params.flagsOnLogical
  | .or rd rs1 rs2 => a.result rd (a.get rs1 ||| a.get rs2) a.params.flagsOnLogical
  | .xor rd rs1 rs2 => a.result rd (a.get rs1 ^^^ a.get rs2) a.params.flagsOnLogical
  | .movc rd imm => a.result rd imm a.params.flagsOnMovc
  | .load rd rs1 imm => a.load (effectiveAddress a.params (a.get rs1) imm) fun v => a.put rd v
  | .store rs1 rs2 imm => a.store (effectiveAddress a.params (a.get rs2) imm) (a.get rs1) id
  | .bz imm => a.branch a.cc.z imm
  | .bnz imm => a.branch (!a.cc.z) imm
  | .halt => { a with halted := true, retired := a.retired + 1 }
  | .addl rd rs1 imm => a.result rd (a.params.s32 ((a.get rs1).toInt + imm.toInt)) true
  | .subl rd rs1 imm => a.result rd (a.params.s32 ((a.get rs1).toInt - imm.toInt)) true
  | .loadp rd rs1 imm =>
    a.load (effectiveAddress a.params (a.get rs1) imm) fun v => (a.put rs1 (a.pointer (a.get rs1))).put rd v
  | .storep rs1 rs2 imm =>
    a.store (effectiveAddress a.params (a.get rs2) imm) (a.get rs1) fun b => b.put rs2 (a.pointer (a.get rs2))
  | .cmp rs1 rs2 => a.compare (a.get rs1) (a.get rs2)
  | .cml rs1 imm => a.compare (a.get rs1) imm
  | .bp imm => a.branch a.cc.p imm
  | .bnp imm => a.branch (!a.cc.p) imm
  | .jump rs1 imm => a.goTo (effectiveAddress a.params (a.get rs1) imm)
  | .jalr rd rs1 imm => (a.put rd a.after).goTo (effectiveAddress a.params (a.get rs1) imm)

/-- R50: the record at a code address. -/
def codeRead (a : ArchState) (t : Word) : Option Record :=
  (codeIndex? t).bind fun k => a.code[k]?

/-- R117, R134: the instruction at a code address, or the condition that Decode raises for what is there. -/
def fetched (a : ArchState) (t : Word) : Except Fault Instr :=
  match a.codeRead t with
  | none => .error (.codeAddressInvalid t)
  | some r =>
    match r.instr? with
    | none => .error (.invalidOpcode t r.opcode)
    | some i =>
      if i.refusedByDecode then .error (.invalidOpcode t i.opcode)
      else
        match i.operands.badField? a.params with
        | some f => .error (.registerIndexOutOfRange t f)
        | none => .ok i

/-- R134: one step of the sequential machine. -/
def step (a : ArchState) : ArchState :=
  if a.halted || a.fault.isSome then a
  else
    match a.fetched a.spc with
    | .ok i => a.effect i
    | .error k => a.raise k

end ArchState

/-- R134, R37: the sequential machine where the core is right after reset. -/
def State.archReset (s : State) : ArchState :=
  { x := s.x, cc := s.cc, dmem := s.dmem, spc := s.pc, retired := s.retired, halted := s.halted, fault := s.fault,
    code := s.code, params := s.params }

end Sys2Proof.Machine
end

