-- ==== Sys2Proof/Safety.lean ====
section
/-! DEFINITION. What counts as a safe run, and the invariants of a run (spec/10_state.md R39, spec/40_btb_predictor.md R97,
R100, spec/41_pipeline_stages.md R131, spec/70_reset_and_hazards.md R248). -/

namespace Sys2Proof.Machine

/-! ### How a run goes (R248, R233) -/

/-- R233: the core is neither halted nor faulted. -/
def State.running (s : State) : Bool := !s.halted && s.fault.isNone

/-- R248: the state of a run that ended normally. -/
def State.endedNormally (s : State) : Bool := s.halted

/-- R216, R248: the state of a run that ended in a fault: the fault outcome, never final. -/
def State.endedInFault (s : State) : Bool := s.fault.isSome

/-- The states of runs: those that steps lead to from an initialized state. -/
inductive Reachable : State → Prop
  | start {code params init s} (h : State.initialize code params init = .ok s) : Reachable s
  | step {s t} (h : Reachable s) (e : step s = .next t) : Reachable t

/-- A safe run from `s` for `n` steps: no fatal condition. -/
def safeFor (n : Nat) (s : State) : Prop := ∀ k ≤ n, (runState k s).fault = none

/-! ### What a latch holds -/

/-- R118: the destinations of the instruction in a latch. -/
def Latch.dests (l : Latch) : List Int :=
  match l.instr? with
  | some i => i.operands.dests
  | none => []

/-- R21, R39: the latches behind Decode that hold an instruction, youngest first. -/
def State.inFlight (s : State) : List Latch := [s.xl, s.ml, s.wl].filter Latch.valid

end Sys2Proof.Machine

namespace Sys2Proof

/-- R117: an instruction that passes Decode's checks. -/
def Instr.passesDecode (i : Instr) (p : Config.Params) : Prop :=
  i.refusedByDecode = false ∧ i.operands.badField? p = none

end Sys2Proof

namespace Sys2Proof.Machine

/-- The latch holds the record at its address, or is poisoned because there is none (R50). -/
def State.holdsProgram (s : State) (l : Latch) : Prop :=
  match s.codeRead l.pc with
  | some r => l.opcode = .op r.opcode ∧ l.rd = r.rd ∧ l.rs1 = r.rs1 ∧ l.rs2 = r.rs2 ∧ l.imm = r.imm
  | none => l.opcode = .badpc

/-! ### What happens in the next cycle (R127, R251) -/

/-- R196: where a conditional branch in `XL` with outcome `taken` flushes to: the taken-target or the fall-through; nowhere
when the outcome is what Fetch did. -/
def State.misprediction? (s : State) (taken : Bool) (imm : Word) : Option Word :=
  if taken = s.xl.btbHit then none
  else some (s.params.s32 (s.xl.pc.toInt + if taken then imm.toInt else 4))

/-- R127: where an instruction in `XL` flushes to; none when it does not flush. -/
def State.flushOf (s : State) : Instr → Option Word
  | .jump _ imm => some (s.params.s32 (s.xl.rs1Value.toInt + imm.toInt))
  | .jalr _ _ imm => some (s.params.s32 (s.xl.rs1Value.toInt + imm.toInt))
  | .bz imm => s.misprediction? s.cc.z imm
  | .bnz imm => s.misprediction? (!s.cc.z) imm
  | .bp imm => s.misprediction? s.cc.p imm
  | .bnp imm => s.misprediction? (!s.cc.p) imm
  | _ => none

/-- R127: where the next cycle flushes to; none when it does not flush. -/
def State.flushTarget? (s : State) : Option Word :=
  if s.xl.valid then s.xl.instr?.bind s.flushOf else none

/-- R118: register `r` is a source of instruction `i`. -/
def Operands.reads (o : Operands) (r : Int) : Prop := o.src1 = some r ∨ o.src2 = some r

/-- R251: what makes instruction `i` in `DL` wait in the next cycle: a load in `XL` whose result is one of its sources, or an
instruction in `XL` or `ML` that writes one of its destinations. -/
def State.Waits (s : State) (i : Instr) : Prop :=
  (∃ r b imm, i.operands.reads r ∧ s.xl.valid = true ∧
      (s.xl.instr? = some (.load r b imm) ∨ s.xl.instr? = some (.loadp r b imm))) ∨
  ∃ d ∈ i.operands.dests, (s.xl.valid = true ∧ d ∈ s.xl.dests) ∨ (s.ml.valid = true ∧ d ∈ s.ml.dests)

/-! ### Invariants -/

/-- R39, R97 for one entry: the counter's range, the prediction bit, the counts. -/
structure BtbEntry.Ok (e : BtbEntry) : Prop where
  histRange : e.hist ≤ Config.histMax
  predIsHigh : e.pred = decide (2 ≤ e.hist)
  takenCounted : e.everTaken = true → 1 ≤ e.execCount
  countRange : e.execCount ≤ Config.cntMax

/-- R39, with R21, R26, R97 and the canonical form of data memory: what holds at every cycle boundary. -/
structure State.Inv (s : State) : Prop where
  /-- R26: nothing on the buses, and the cycle's first stage is next. -/
  exbusEmpty : s.exbus = []
  membusEmpty : s.membus = []
  stageFirst : s.stage = .writeback
  /-- R39 (a): a register is busy exactly when an instruction in flight writes it. -/
  busyExact : ∀ r, s.isBusy r = true ↔ ∃ l ∈ s.inFlight, r ∈ l.dests
  /-- R39 (a), R21: at most one instruction in flight writes a register. -/
  oneWriter : s.inFlight.Pairwise fun l m => ∀ r ∈ l.dests, r ∉ m.dests
  /-- R117, R202: only instructions that passed Decode are in flight. -/
  supported : ∀ l ∈ s.inFlight, ∃ i, l.instr? = some i ∧ i.passesDecode s.params
  /-- R39 (b). -/
  flagsExclusive : (s.cc.z && s.cc.p) = false ∧ (s.cc.z && s.cc.n) = false ∧ (s.cc.p && s.cc.n) = false
  /-- R39 (c), R97. -/
  btbSize : s.btb.length ≤ Config.btbCap
  btbUnique : (s.btb.map BtbEntry.addr).Nodup
  btbOk : ∀ e ∈ s.btb, e.Ok
  /-- R39 (d), R29. -/
  noRedirect : s.redirectPending = false
  /-- R39 (e). -/
  holdNeedsStall : s.dl.valid = false → s.fl.stalled = false
  /-- The canonical form of data memory, all of it inside `0..DMEM_WORDS-1` (R51). -/
  memoryWf : s.dmem.wf = true
  memoryBelow : s.dmem.below s.params.dmemWords = true

/-- R9: every Word field of a latch has `XLEN` bits. -/
structure Latch.Fits (p : Config.Params) (l : Latch) : Prop where
  pc : p.fits l.pc = true
  imm : p.fits l.imm = true
  rs1Value : p.fits l.rs1Value = true
  rs2Value : p.fits l.rs2Value = true
  result : p.fits l.result = true
  memAddr : p.fits l.memAddr = true

/-- R9, R7: every register, data word, immediate, address and latch field has `XLEN` bits. -/
structure State.WordsFit (s : State) : Prop where
  registers : ∀ r v, s.readReg? r = some v → s.params.fits v = true
  pc : s.params.fits s.pc = true
  fl : s.fl.Fits s.params
  dl : s.dl.Fits s.params
  xl : s.xl.Fits s.params
  ml : s.ml.Fits s.params
  wl : s.wl.Fits s.params
  entries : ∀ e ∈ s.btb, s.params.fits e.addr = true ∧ s.params.fits e.target = true
  data : ∀ c ∈ s.dmem, s.params.fits c.2 = true
  immediates : ∀ r ∈ s.code, s.params.fits r.imm = true

/-- R115, R131: nothing younger than a `HALT` that Decode was given is in the pipeline, and Fetch is off. -/
structure State.HaltInv (s : State) : Prop where
  inDecode : s.dl.valid = true → s.dl.instr? = some .halt → s.fl.valid = false
  inExecute : s.xl.valid = true → s.xl.instr? = some .halt → s.dl.valid = false ∧ s.fl.valid = false
  inMemory : s.ml.valid = true → s.ml.instr? = some .halt →
    s.xl.valid = false ∧ s.dl.valid = false ∧ s.fl.valid = false
  inWriteback : s.wl.valid = true → s.wl.instr? = some .halt →
    s.ml.valid = false ∧ s.xl.valid = false ∧ s.dl.valid = false ∧ s.fl.valid = false
  afterHalt : s.halted = true →
    s.wl.valid = false ∧ s.ml.valid = false ∧ s.xl.valid = false ∧ s.dl.valid = false ∧ s.fl.valid = false

/-- R97, R100: what the latches and the BTB hold is the program's. -/
structure State.ProgramInv (s : State) : Prop where
  inDecode : s.dl.valid = true → s.holdsProgram s.dl
  inExecute : s.xl.valid = true → s.holdsProgram s.xl
  inMemory : s.ml.valid = true → s.holdsProgram s.ml
  inWriteback : s.wl.valid = true → s.holdsProgram s.wl
  /-- R97: an entry belongs to a conditional branch of the program, and once resolved has its taken-target. -/
  entries : ∀ e ∈ s.btb, ∃ r i, s.codeRead e.addr = some r ∧ r.instr? = some i ∧ i.family?.isSome = true ∧
    (1 ≤ e.execCount → e.target = s.params.s32 (e.addr.toInt + r.imm.toInt))
  /-- R100: a predictive hit in Decode has its entry. -/
  hitHasEntry : s.dl.valid = true → s.dl.btbHit = true → btbHas s.btb s.dl.pc = true
  /-- R100: the entry of the branch in Execute exists. -/
  branchHasEntry : s.xl.valid = true → (∃ i, s.xl.instr? = some i ∧ i.family?.isSome = true) →
    btbHas s.btb s.xl.pc = true

end Sys2Proof.Machine
end

