-- ==== Sys2Proof/Certificates/Slice0/Obligations.lean ====
section
/-! DEFINITION. The statements for the provers: what the numbered rules of the spec say of this model. Each takes the
instruction through the stage functions its rule gives lines for: `exec i (s.at g)` is instruction `i` processed by stage
`g` in state `s` (spec/41_pipeline_stages.md R110, R111). -/

open Sys2Proof Sys2Proof.Machine

namespace Sys2Proof.Machine

/-- Frame: registers and busy bits outside `written` are as they were, and so is everything no instruction writes by
itself: the cycle counter, the recorded fault, the program and the parameters. -/
structure Frame (written : List Int) (s t : State) : Prop where
  registers : ∀ q, q ∉ written → t.readReg? q = s.readReg? q
  busyBits : ∀ q, q ∉ written → t.isBusy q = s.isBusy q
  cycles : t.cycles = s.cycles
  fault : t.fault = s.fault
  code : t.code = s.code
  params : t.params = s.params

/-- Nothing but the registers, the busy bits, the flags, the latches, the buses and `retired` changed: data memory word by
word, the BTB, the fetch address, the redirect flag and `halted` are as they were, and Fetch is only un-held. -/
structure QuietBesideRegisters (s t : State) : Prop where
  memory : ∀ k, t.dmem.read k = s.dmem.read k
  btb : t.btb = s.btb
  pc : t.pc = s.pc
  redirect : t.redirectPending = s.redirectPending
  halted : t.halted = s.halted
  fetch : t.fl = { s.fl with stalled := false }

/-- R122: the instruction in `DL` was issued to `XL` with operand values `a`, `b`, its destinations marked busy. -/
structure Issued (a b : Word) (dests : List Int) (s t : State) : Prop where
  xl : t.xl = { s.dl with rs1Value := a, rs2Value := b, stalled := false }
  dl : t.dl = { s.dl with rs1Value := a, rs2Value := b, stalled := false, valid := false }
  busy : ∀ q, t.isBusy q = (decide (q ∈ dests) || s.isBusy q)
  flags : t.cc = s.cc

/-- R125, R129, R130: the instruction issued in `t1` has result `r` for register `rd`: Execute (`t2`) writes the flags of
`r` when `on` and drives `EXBUS`, Memory (`t3`) drives `MEMBUS`, Writeback (`t4`) writes `x[rd]`, clears its busy bit and
retires; nothing else changes from `s` on. -/
structure ResultDelivered (rd : Int) (r : Word) (on : Bool) (s t1 t2 t3 t4 : State) : Prop where
  executeFlags : t2.cc = if on then flagsOf r else t1.cc
  executeBus : t2.exbus = s.exbus ++ [⟨rd, r⟩]
  memoryBus : t3.membus = s.membus ++ [⟨rd, r⟩]
  register : t4.readReg? rd = some r
  free : t4.isBusy rd = false
  flags : t4.cc = t2.cc
  retired : t4.retired = s.retired + 1
  frame : Frame [rd] s t4
  quiet : QuietBesideRegisters s t4

/-- R169, R170: Execute (`t2`) writes the flags of the comparison of `a` with `b`; no bus, register or memory word changes,
and the instruction retires. -/
structure Compared (a b : Word) (s t1 t2 t3 t4 : State) : Prop where
  wrapped : s.params.cmpExact = false → t2.cc = flagsOf (s.params.s32 (a.toInt - b.toInt))
  exact : s.params.cmpExact = true → (t2.cc.z = true ↔ a.toInt = b.toInt) ∧ (t2.cc.p = true ↔ b.toInt < a.toInt) ∧
    (t2.cc.n = true ↔ a.toInt < b.toInt)
  executeBus : t2.exbus = t1.exbus ∧ t1.exbus = s.exbus
  memoryBus : t3.membus = s.membus
  flags : t4.cc = t2.cc
  retired : t4.retired = s.retired + 1
  frame : Frame [] s t4
  quiet : QuietBesideRegisters s t4

end Sys2Proof.Machine

/-! ### Encoding (spec/30_encoding.md) -/

/-- R72, R73: encode, then decode, is the identity on every instruction that has a word. -/
def Obligations.DecodeOfEncodeIsTheInstruction : Prop :=
  ∀ i : Instr, i.wf = true → decode (encode i) = .ok i

/-- R73: decoding is injective on legal words: a word that decodes is the word of a well-formed instruction. -/
def Obligations.EncodeOfDecodeIsTheWord : Prop :=
  ∀ (w : InstrWord) (i : Instr), decode w = .ok i → i.wf = true ∧ encode i = w

/-- R75, R82: a word is an instruction of a row exactly when `w & mask = match`; rows are disjoint; a word of no row is
`INVALID`. -/
def Obligations.DecodeAgreesWithMaskAndMatch : Prop :=
  (∀ w : InstrWord, ∀ row ∈ opcodeRows, row.admits w = true ↔ ∃ i, decode w = .ok i ∧ i.opcode = row.opcode) ∧
  (∀ w : InstrWord, ∀ row ∈ opcodeRows, ∀ row' ∈ opcodeRows, row.admits w = true → row'.admits w = true → row = row') ∧
  (∀ w : InstrWord, (∀ row ∈ opcodeRows, row.admits w = false) → (decodeRecord w).opcode = .invalid)

/-- 95_test_vectors.md 2.1: words written out from the spec decode to the instructions they stand for. -/
def Obligations.SpecWordsDecode : Prop :=
  decode 0x01008000 = .ok (.add 2 0 1) ∧ decode 0x68887FF9 = .ok (.addl 1 1 (word (-7))) ∧
  decode 0x3F804000 = .ok (.movc 15 (word (-16384))) ∧ decode 0x88090000 = .ok (.cmp 1 2) ∧
  decode 0x79087FFC = .ok (.loadp 2 1 (word (-4))) ∧ decode 0x801A0000 = .ok (.storep 3 4 0) ∧
  decode 0xA0007FF4 = .ok (.bnp (word (-12))) ∧ decode 0xB3A80000 = .ok (.jalr 7 5 0) ∧
  decode 0x60000000 = .ok .halt ∧ decode 0x19088000 = .ok (.div 2 1 1 0) ∧
  (decodeRecord 0x60000001).opcode = .invalid ∧ (decodeRecord 0x50080008).opcode = .invalid ∧
  (decodeRecord 0xB8000000).opcode = .invalid

/-! ### Reset and the lifecycle surface (spec/10_state.md, spec/70_reset_and_hazards.md) -/

/-- R240, R211: `initialize` rejects the empty sequence; on any other it gives the reset state of R37 with the program, the
launch parameters and `DMEM_INIT`. The reset values are the spec's own choice (92_eei_decisions.md D14). -/
def Obligations.InitializeGivesTheResetState : Prop :=
  (∀ params init, State.initialize [] params init = .error .initError) ∧
  ∀ (code : List Record) (params : Config.Params) (init : List (Nat × Word)), code ≠ [] →
    ∃ s, State.initialize code params init = .ok s ∧
      (∀ r : Int, 0 ≤ r → r < params.nreg.val → s.readReg? r = some 0) ∧ (∀ r, s.isBusy r = false) ∧ s.pc.toInt = 4000 ∧
      s.cc = ⟨false, false, false⟩ ∧ s.fl = { Latch.empty with valid := true } ∧ s.dl = Latch.empty ∧
      s.xl = Latch.empty ∧ s.ml = Latch.empty ∧ s.wl = Latch.empty ∧ s.btb = [] ∧ s.redirectPending = false ∧
      s.retired = 0 ∧ s.cycles = 0 ∧ s.halted = false ∧ s.fault = none ∧ s.code = code ∧ s.params = params ∧
      (∀ k, s.dmem.read k =
        match (init.filter fun c => decide (c.1 < params.dmemWords)).find? fun c => decide (c.1 = k) with
        | some c => c.2
        | none => 0)

/-- R241: the first cycle after reset reads the record at `CODE_BASE` into `FL` and `DL` and moves `pc` to 4004; a `HALT` there
also switches Fetch off (R115). The cycle is counted, and every other part of the state is as it was. -/
def Obligations.FirstCycleFetchesTheEntryPoint : Prop :=
  ∀ (r : Record) (rest : List Record) (params : Config.Params) (init : List (Nat × Word)) (s : State) (l : Latch),
    State.initialize (r :: rest) params init = .ok s →
    l = { Latch.empty with
      valid := true, pc := 4000, opcode := .op r.opcode, rd := r.rd, rs1 := r.rs1, rs2 := r.rs2, imm := r.imm } →
    step s = .next { s with pc := 4004, dl := l, fl := { l with valid := decide (r.opcode ≠ .halt) }, cycles := 1 }

/-! ### The cycle (spec/41_pipeline_stages.md, spec/60_exceptions.md) -/

/-- R12, R110: the step is total and deterministic: every state has a next state. -/
def Obligations.EveryStateHasANextState : Prop :=
  ∀ s : State, ∃ t, step s = .next t

/-- R132, R216: a step on a halted or faulted core is the identity. -/
def Obligations.HaltedOrFaultedStepIsIdentity : Prop :=
  ∀ s : State, s.halted = true ∨ s.fault ≠ none → step s = .next s ∧ stepOneCycle s = (s, s.halted)

/-- R110, R216: a running core runs Writeback, Memory, Execute, Decode, Fetch in this order on emptied buses, and the
cycle is counted. Where Writeback, Memory, Execute or Decode raises, after the earlier stages have not, the cycle is
discarded whole and the fatal condition recorded. Fetch never raises. -/
def Obligations.StepIsTheFiveStagesInOrder : Prop :=
  ∀ s : State, s.running = true →
    (∀ u v w d t, writebackStage { s with exbus := [], membus := [] } = .next u → memoryStage u = .next v →
      executeStage v = .next w → decodeStage w = .next d → fetchStage d = .next t →
      step s = .next { t with cycles := t.cycles + 1, exbus := [], membus := [], stage := .writeback }) ∧
    (∀ k, writebackStage { s with exbus := [], membus := [] } = .fault k → step s = .next { s with fault := some k }) ∧
    (∀ u k, writebackStage { s with exbus := [], membus := [] } = .next u → memoryStage u = .fault k →
      step s = .next { s with fault := some k }) ∧
    (∀ u v k, writebackStage { s with exbus := [], membus := [] } = .next u → memoryStage u = .next v →
      executeStage v = .fault k → step s = .next { s with fault := some k }) ∧
    (∀ u v w k, writebackStage { s with exbus := [], membus := [] } = .next u → memoryStage u = .next v →
      executeStage v = .next w → decodeStage w = .fault k → step s = .next { s with fault := some k }) ∧
    (∀ d, ∃ t, fetchStage d = .next t) ∧
    (∀ k, cycleStages s = .fault k → step s = .next { s with fault := some k })

/-- R111: a stage with an empty latch does nothing; a stage whose latch holds instruction `i` is `exec i` in that stage; a
poisoned latch raises `CodeAddressInvalid` and an opcode outside R74 raises `InvalidOpcode`. -/
def Obligations.StagesRunTheInstructionInTheirLatch : Prop :=
  ∀ (u : State) (f : State → Result State) (g : Stage) (l : Latch),
    (f, g, l) ∈ [(writebackStage, Stage.writeback, u.wl), (memoryStage, .memory, u.ml), (executeStage, .execute, u.xl),
      (decodeStage, .decode, u.dl)] →
    (l.valid = false → f u = .next u) ∧
    (∀ i, l.valid = true → l.instr? = some i → f u = exec i (u.at g)) ∧
    (l.valid = true → l.opcode = .badpc → f u = .fault (.codeAddressInvalid l.pc)) ∧
    (∀ n, l.valid = true → l.opcode = .op (.unknown n) → f u = .fault (.invalidOpcode l.pc (.unknown n))) ∧
    (l.valid = true → l.opcode = .op .invalid → f u = .fault (.invalidOpcode l.pc .invalid))

/-- A step runs the decoded instruction: when the record at `pc` is that of a word that decodes to `i`, and the stages
before Fetch leave Fetch enabled, not skipped and not held, the step is `exec i` in Fetch on the
filled latch, closed as R110 says; the filled latch holds `i` at that address. -/
def Obligations.StepFetchesAndRunsTheDecodedInstruction : Prop :=
  ∀ (s u : State) (w : InstrWord) (i : Instr), s.running = true → decode w = .ok i →
    s.codeRead s.pc = some (decodeRecord w) → backEnd s = .next u →
    u.fl.valid = true → u.redirectPending = false → u.fl.stalled = false →
    ∃ t, exec i (u.fetchFill.at .fetch) = .next t ∧ step s = .next t.closeCycle ∧ u.fetchFill.fl.instr? = some i ∧
      u.fetchFill.fl.pc = s.pc ∧ t.dl = u.fetchFill.fl

/-- R61: no step changes the program. That no step changes the parameters either is the model's own clause: they are fields of
State here (log entry 8, DESIGN CHOICE), where R36 has them as parameters of the step. -/
def Obligations.StepKeepsProgramAndParameters : Prop :=
  ∀ s t : State, step s = .next t → t.code = s.code ∧ t.params = s.params

/-- R33, R130, R216: the counters. A step that neither faults nor finds the core stopped counts one cycle and retires the
instruction in `WL`, if there is one; a step that faults or finds the core stopped counts nothing. -/
def Obligations.StepCountsCyclesAndRetirements : Prop :=
  ∀ s t : State, step s = .next t →
    (s.running = true → t.fault = none →
      t.cycles = s.cycles + 1 ∧ t.retired = s.retired + if s.wl.valid then 1 else 0) ∧
    (s.running = false ∨ t.fault ≠ none → t.cycles = s.cycles ∧ t.retired = s.retired)

/-- R111, R113: which stage writes what. Of `exec` (the model's form of a stage's work on an instruction, log entry 1), for
every instruction: registers, `retired` and `halted` only in Writeback; data memory and `MEMBUS` only in Memory; flags,
`EXBUS`, `pc` and the redirect only in Execute; busy bits only in Decode and Writeback; the BTB only in Decode and Execute;
the cycle counter, the recorded fault, the program and the parameters in none. Of the Fetch stage, which also moves `pc` and
consumes the redirect before its instruction goes through `exec`: `pc`, the redirect, `FL` and `DL`, and nothing else. -/
def Obligations.StagesWriteOnlyTheirState : Prop :=
  (∀ (i : Instr) (s t : State), exec i s = .next t →
    (s.stage ≠ .writeback → t.x = s.x ∧ t.retired = s.retired ∧ t.halted = s.halted) ∧
    (s.stage ≠ .memory → t.dmem = s.dmem ∧ t.membus = s.membus) ∧
    (s.stage ≠ .execute → t.cc = s.cc ∧ t.exbus = s.exbus ∧ t.pc = s.pc ∧ t.redirectPending = s.redirectPending) ∧
    (s.stage ≠ .decode → s.stage ≠ .writeback → t.busy = s.busy) ∧
    (s.stage ≠ .decode → s.stage ≠ .execute → t.btb = s.btb) ∧
    t.cycles = s.cycles ∧ t.fault = s.fault ∧ t.code = s.code ∧ t.params = s.params) ∧
  (∀ s t : State, fetchStage s = .next t →
    t = { s with pc := t.pc, redirectPending := t.redirectPending, fl := t.fl, dl := t.dl, stage := t.stage })

/-- R111, R254: behind Decode the pipeline never waits: in a cycle without a fatal condition the instruction in `XL` goes to
`ML` and the one in `ML` to `WL`, each with its address. -/
def Obligations.InstructionsBehindDecodeAdvance : Prop :=
  ∀ s t : State, s.running = true → step s = .next t → t.fault = none →
    t.ml.valid = s.xl.valid ∧ t.wl.valid = s.ml.valid ∧
    (s.xl.valid = true → t.ml.instr? = s.xl.instr? ∧ t.ml.pc = s.xl.pc) ∧
    (s.ml.valid = true → t.wl.instr? = s.ml.instr? ∧ t.wl.pc = s.ml.pc)

/-- R250, R251, R120: when Decode issues and when it waits. With `XL` and `ML` empty the instruction in `DL` is issued in
this cycle and no fatal condition arises. Whatever is in `XL` and `ML`: in a cycle without a flush and without a fatal
condition it is issued, unless a load in `XL` produces one of its sources or an instruction in `XL` or `ML` writes one of
its destinations; then it stays in `DL` and `XL` gets a bubble. -/
def Obligations.DecodeIssuesWhenNothingIsAhead : Prop :=
  ∀ (s : State) (i : Instr), s.Inv → s.running = true → s.dl.valid = true → s.dl.instr? = some i → i.passesDecode s.params →
    (s.xl.valid = false → s.ml.valid = false →
      ∃ t, step s = .next t ∧ t.fault = none ∧ t.xl.valid = true ∧ t.xl.instr? = some i ∧ t.xl.pc = s.dl.pc ∧
        t.cycles = s.cycles + 1) ∧
    (∀ t, s.flushTarget? = none → step s = .next t → t.fault = none →
      ((∀ l ∈ [s.xl, s.ml], l.valid = true → ∀ r ∈ l.dests, r ∉ i.operands.fields) →
        t.xl.valid = true ∧ t.xl.instr? = some i ∧ t.xl.pc = s.dl.pc) ∧
      (¬s.Waits i → t.xl.valid = true ∧ t.xl.instr? = some i ∧ t.xl.pc = s.dl.pc) ∧
      (s.Waits i → t.xl.valid = false ∧ t.dl.valid = true ∧ t.dl.stalled = true ∧ t.dl.instr? = some i ∧
        t.dl.pc = s.dl.pc ∧ t.pc = s.pc))

/-! ### Fetch (R113 to R116) -/

/-- R113, R115: every instruction is forwarded into `DL` by Fetch; `HALT` also switches Fetch off; nothing else changes. -/
def Obligations.FetchForwardsEveryInstruction : Prop :=
  ∀ (i : Instr) (s : State), s.stage = .fetch →
    (i ≠ .halt → exec i s = .next { s with dl := s.fl }) ∧
    (i = .halt → exec i s = .next { s with dl := s.fl, fl := { s.fl with valid := false } })

/-- R113, R114, R116: an empty `FL` does nothing; a pending redirect is consumed and nothing is fetched; a held Fetch moves
nothing but `FL.pc`; otherwise `pc` moves to the target of a predictive hit, or by `ILEN`, and the record read at `pc`
(or `BADPC`) goes to `DL` with its value fields cleared. -/
def Obligations.FetchFollowsItsRules : Prop :=
  ∀ s : State,
    (s.fl.valid = false → fetchStage s = .next s) ∧
    (s.fl.valid = true → s.redirectPending = true → fetchStage s = .next { s with redirectPending := false }) ∧
    (s.fl.valid = true → s.redirectPending = false → s.fl.stalled = true →
      fetchStage s = .next { s with fl := { s.fl with pc := s.pc } }) ∧
    (s.fl.valid = true → s.redirectPending = false → s.fl.stalled = false →
      ∃ t, fetchStage s = .next t ∧ t.dl.valid = true ∧ t.dl.stalled = false ∧ t.dl.pc = s.pc ∧
        (match s.codeRead s.pc with
          | some r => t.dl.opcode = .op r.opcode ∧ t.dl.rd = r.rd ∧ t.dl.rs1 = r.rs1 ∧ t.dl.rs2 = r.rs2 ∧
              t.dl.imm = r.imm ∧ t.fl.valid = decide (r.opcode ≠ .halt)
          | none => t.dl.opcode = .badpc ∧ t.dl.rd = 0 ∧ t.dl.rs1 = 0 ∧ t.dl.rs2 = 0 ∧ t.dl.imm = 0 ∧
              t.fl.valid = true) ∧
        t.dl.rs1Value = 0 ∧ t.dl.rs2Value = 0 ∧ t.dl.result = 0 ∧ t.dl.memAddr = 0 ∧ t.dl.family = none ∧
        (match btbLookup s.btb s.pc with
          | some e => t.dl.btbHit = true ∧ t.pc = e.target
          | none => t.dl.btbHit = false ∧ t.pc = s.params.s32 (s.pc.toInt + 4)) ∧
        t.x = s.x ∧ t.busy = s.busy ∧ t.cc = s.cc ∧ t.dmem = s.dmem ∧ t.btb = s.btb ∧ t.xl = s.xl ∧ t.ml = s.ml ∧
        t.wl = s.wl ∧ t.retired = s.retired ∧ t.halted = s.halted)

/-! ### Decode (R117 to R122) -/

/-- R119: `EXBUS` first, then `MEMBUS`, then the register file of a register that is not busy, else unresolved. -/
def Obligations.ResolveFollowsTheStrictPriority : Prop :=
  ∀ (s : State) (r : Int),
    (∀ v, busFind s.exbus r = some v → s.resolve r = some v) ∧
    (∀ v, busFind s.exbus r = none → busFind s.membus r = some v → s.resolve r = some v) ∧
    (∀ v, busFind s.exbus r = none → busFind s.membus r = none → s.isBusy r = false → s.readReg? r = some v →
      s.resolve r = some v) ∧
    (busFind s.exbus r = none → busFind s.membus r = none → s.isBusy r = true → s.resolve r = none) ∧
    (∀ (bus : List BusPair) (v : Word), busFind bus r = some v → ⟨r, v⟩ ∈ bus) ∧
    (∀ bus : List BusPair, busFind bus r = none ↔ ∀ p ∈ bus, p.reg ≠ r)

/-- R120, R121: an instruction with an unresolved source or a busy destination is held in `DL`, Fetch is held with it, and
nothing else changes: no busy bit is set, no operand value is kept, `XL` is not written. -/
def Obligations.UnresolvedSourceOrBusyDestinationStalls : Prop :=
  ∀ (i : Instr) (s : State), s.stage = .decode → i.passesDecode s.params → i.family? = none →
    ((∃ r, i.operands.src1 = some r ∧ s.resolve r = none) ∨ (∃ r, i.operands.src2 = some r ∧ s.resolve r = none) ∨
      ∃ d ∈ i.operands.dests, s.isBusy d = true) →
    exec i s = .next { s with dl := { s.dl with stalled := true }, fl := { s.fl with stalled := true } }

/-- R117, R201, R181, R213: what Decode refuses: `DIV`; `LOADP` with `rd = rs1`; and, of the other instructions, a used
register field outside `0..NREG-1`, the first in the order `rs1`, `rs2`, `rd`. -/
def Obligations.DecodeRefusals : Prop :=
  (∀ (s : State) (rd rs1 rs2 : Int) (imm : Word), s.stage = .decode →
    exec (.div rd rs1 rs2 imm) s = .fault (.invalidOpcode s.dl.pc .div)) ∧
  (∀ (s : State) (r : Int) (imm : Word), s.stage = .decode →
    exec (.loadp r r imm) s = .fault (.invalidOpcode s.dl.pc .loadp)) ∧
  (∀ (i : Instr) (s : State) (before after : List Int) (f : Int), s.stage = .decode → i.refusedByDecode = false →
    i.operands.fields = before ++ f :: after → (∀ g ∈ before, 0 ≤ g ∧ g < s.params.nreg.val) →
      (f < 0 ∨ s.params.nreg.val ≤ f) →
    exec i s = .fault (.registerIndexOutOfRange s.dl.pc f))

/-- R201, R202: `DIV` behind Decode raises `InvalidOpcode` in every stage: it has no division semantics of any kind. -/
def Obligations.DivStopsInEveryStageBehindFetch : Prop :=
  ∀ (s : State) (rd rs1 rs2 : Int) (imm : Word), s.stage ≠ .fetch →
    exec (.div rd rs1 rs2 imm) s = .fault (.invalidOpcode s.current.pc .div)

/-! ### ALU, move, compare (spec/42_alu.md) -/

/-- R172: the flag function sets exactly one of `Z`, `P`, `N`, by the signed result. -/
def Obligations.FlagsAreExclusive : Prop :=
  ∀ r : Word, ((flagsOf r).z = true ↔ r.toInt = 0) ∧ ((flagsOf r).p = true ↔ 0 < r.toInt) ∧
    ((flagsOf r).n = true ↔ r.toInt < 0) ∧
    (flagsOf r = ⟨true, false, false⟩ ∨ flagsOf r = ⟨false, true, false⟩ ∨ flagsOf r = ⟨false, false, true⟩)

/-- R160 to R165: the three-register instructions, through Decode, Execute, Memory and Writeback: operands as resolved at
Decode, the result of the rule, the flags it writes, `(rd, result)` on `EXBUS` and on `MEMBUS`, `x[rd]` written, `busy[rd]`
cleared, one instruction retired, and nothing else. -/
def Obligations.ThreeRegisterInstructionsComplete : Prop :=
  ∀ (s : State) (rd rs1 rs2 : Int) (a b : Word),
    s.params.hasRegister rd = true → s.params.hasRegister rs1 = true → s.params.hasRegister rs2 = true →
    s.resolve rs1 = some a → s.resolve rs2 = some b →
    s.isBusy rd = false →
    ∀ e ∈ [(Instr.add rd rs1 rs2, s.params.s32 (a.toInt + b.toInt), true),
        (.sub rd rs1 rs2, s.params.s32 (a.toInt - b.toInt), true),
        (.mul rd rs1 rs2, s.params.s32 (a.toInt * b.toInt), true), (.and rd rs1 rs2, a &&& b, s.params.flagsOnLogical),
        (.or rd rs1 rs2, a ||| b, s.params.flagsOnLogical), (.xor rd rs1 rs2, a ^^^ b, s.params.flagsOnLogical)],
      ∃ t1 t2 t3 t4, exec e.1 (s.at .decode) = .next t1 ∧ exec e.1 (t1.at .execute) = .next t2 ∧
        exec e.1 (t2.at .memory) = .next t3 ∧ exec e.1 (t3.at .writeback) = .next t4 ∧
        Issued a b [rd] s t1 ∧ ResultDelivered rd e.2.1 e.2.2 s t1 t2 t3 t4

/-- R166, R167: the register-literal instructions, as above with the immediate for the second operand. -/
def Obligations.RegisterLiteralInstructionsComplete : Prop :=
  ∀ (s : State) (rd rs1 : Int) (imm a : Word),
    s.params.hasRegister rd = true → s.params.hasRegister rs1 = true → s.resolve rs1 = some a → s.isBusy rd = false →
    ∀ e ∈ [(Instr.addl rd rs1 imm, s.params.s32 (a.toInt + imm.toInt)),
        (.subl rd rs1 imm, s.params.s32 (a.toInt - imm.toInt))],
      ∃ t1 t2 t3 t4, exec e.1 (s.at .decode) = .next t1 ∧ exec e.1 (t1.at .execute) = .next t2 ∧
        exec e.1 (t2.at .memory) = .next t3 ∧ exec e.1 (t3.at .writeback) = .next t4 ∧
        Issued a s.dl.rs2Value [rd] s t1 ∧ ResultDelivered rd e.2 true s t1 t2 t3 t4

/-- R168: `MOVC`: no source; the immediate is the result; flags only when `FLAGS_ON_MOVC`. -/
def Obligations.MoveConstantCompletes : Prop :=
  ∀ (s : State) (rd : Int) (imm : Word), s.params.hasRegister rd = true → s.isBusy rd = false →
    ∃ t1 t2 t3 t4, exec (.movc rd imm) (s.at .decode) = .next t1 ∧ exec (.movc rd imm) (t1.at .execute) = .next t2 ∧
      exec (.movc rd imm) (t2.at .memory) = .next t3 ∧ exec (.movc rd imm) (t3.at .writeback) = .next t4 ∧
      Issued s.dl.rs1Value s.dl.rs2Value [rd] s t1 ∧ ResultDelivered rd imm s.params.flagsOnMovc s t1 t2 t3 t4

/-- R169, R170: the compares: the flags of the wrapped difference, or with `CMP_EXACT` of the exact comparison; no bus pair,
no register, one instruction retired, and nothing else. -/
def Obligations.CompareInstructionsComplete : Prop :=
  ∀ (s : State) (rs1 : Int) (a : Word), s.params.hasRegister rs1 = true → s.resolve rs1 = some a →
    (∀ (rs2 : Int) (b : Word), s.params.hasRegister rs2 = true → s.resolve rs2 = some b →
      ∃ t1 t2 t3 t4, exec (.cmp rs1 rs2) (s.at .decode) = .next t1 ∧ exec (.cmp rs1 rs2) (t1.at .execute) = .next t2 ∧
        exec (.cmp rs1 rs2) (t2.at .memory) = .next t3 ∧ exec (.cmp rs1 rs2) (t3.at .writeback) = .next t4 ∧
        Issued a b [] s t1 ∧ Compared a b s t1 t2 t3 t4) ∧
    (∀ imm : Word,
      ∃ t1 t2 t3 t4, exec (.cml rs1 imm) (s.at .decode) = .next t1 ∧ exec (.cml rs1 imm) (t1.at .execute) = .next t2 ∧
        exec (.cml rs1 imm) (t2.at .memory) = .next t3 ∧ exec (.cml rs1 imm) (t3.at .writeback) = .next t4 ∧
        Issued a s.dl.rs2Value [] s t1 ∧ Compared a imm s t1 t2 t3 t4)

/-! ### Loads and stores (spec/43_load_store.md, spec/20_memory.md) -/

/-- R180, R181, R184: the loads, with their address in data memory: the word at `s32(base + imm)` in `rd`; for `LOADP` also
`s32(base + PTR_INC)` in the base register, on `EXBUS` from Execute and on `MEMBUS` from Memory; flags, memory and the rest
unchanged. -/
def Obligations.LoadInstructionsComplete : Prop :=
  ∀ (s : State) (rd rs1 : Int) (imm a ea p : Word),
    s.params.hasRegister rd = true → s.params.hasRegister rs1 = true → s.resolve rs1 = some a → s.isBusy rd = false →
    ea = s.params.s32 (a.toInt + imm.toInt) → 0 ≤ ea.toInt → ea.toInt < s.params.dmemWords →
    p = s.params.s32 (a.toInt + s.params.ptrInc) →
    (∃ t1 t2 t3 t4, exec (.load rd rs1 imm) (s.at .decode) = .next t1 ∧
      exec (.load rd rs1 imm) (t1.at .execute) = .next t2 ∧ exec (.load rd rs1 imm) (t2.at .memory) = .next t3 ∧
      exec (.load rd rs1 imm) (t3.at .writeback) = .next t4 ∧
      Issued a s.dl.rs2Value [rd] s t1 ∧ t2.ml.memAddr = ea ∧ t2.exbus = s.exbus ∧
      t3.membus = s.membus ++ [⟨rd, s.dmem.read ea.toInt.toNat⟩] ∧
      t4.readReg? rd = some (s.dmem.read ea.toInt.toNat) ∧ t4.isBusy rd = false ∧ t4.retired = s.retired + 1 ∧
      t4.cc = s.cc ∧ Frame [rd] s t4 ∧ QuietBesideRegisters s t4) ∧
    (rd ≠ rs1 → s.isBusy rs1 = false →
      ∃ t1 t2 t3 t4, exec (.loadp rd rs1 imm) (s.at .decode) = .next t1 ∧
        exec (.loadp rd rs1 imm) (t1.at .execute) = .next t2 ∧ exec (.loadp rd rs1 imm) (t2.at .memory) = .next t3 ∧
        exec (.loadp rd rs1 imm) (t3.at .writeback) = .next t4 ∧
        Issued a s.dl.rs2Value [rd, rs1] s t1 ∧ t2.ml.memAddr = ea ∧ t2.exbus = s.exbus ++ [⟨rs1, p⟩] ∧
        t3.membus = s.membus ++ [⟨rd, s.dmem.read ea.toInt.toNat⟩, ⟨rs1, p⟩] ∧
        t4.readReg? rd = some (s.dmem.read ea.toInt.toNat) ∧ t4.readReg? rs1 = some p ∧ t4.isBusy rd = false ∧
        t4.isBusy rs1 = false ∧ t4.retired = s.retired + 1 ∧ t4.cc = s.cc ∧ Frame [rd, rs1] s t4 ∧
        QuietBesideRegisters s t4)

/-- R182, R183, R184: the stores, with their address in data memory: the word at `s32(base + imm)`, computed from `rs2`,
becomes the value of `rs1`, and every other word is as it was; for `STOREP` also `s32(base + PTR_INC)` in the base
register, on both buses; flags and the rest unchanged. -/
def Obligations.StoreInstructionsComplete : Prop :=
  ∀ (s : State) (rs1 rs2 : Int) (imm a b ea p : Word),
    s.dmem.wf = true → s.params.hasRegister rs1 = true → s.params.hasRegister rs2 = true →
    s.resolve rs1 = some a → s.resolve rs2 = some b →
    ea = s.params.s32 (b.toInt + imm.toInt) → 0 ≤ ea.toInt → ea.toInt < s.params.dmemWords →
    p = s.params.s32 (b.toInt + s.params.ptrInc) →
    (∃ t1 t2 t3 t4, exec (.store rs1 rs2 imm) (s.at .decode) = .next t1 ∧
      exec (.store rs1 rs2 imm) (t1.at .execute) = .next t2 ∧ exec (.store rs1 rs2 imm) (t2.at .memory) = .next t3 ∧
      exec (.store rs1 rs2 imm) (t3.at .writeback) = .next t4 ∧
      Issued a b [] s t1 ∧ t2.ml.memAddr = ea ∧ t2.exbus = s.exbus ∧ t3.membus = s.membus ∧
      t4.dmem.read ea.toInt.toNat = a ∧ (∀ k, k ≠ ea.toInt.toNat → t4.dmem.read k = s.dmem.read k) ∧
      t4.dmem.wf = true ∧ t4.retired = s.retired + 1 ∧ t4.cc = s.cc ∧ Frame [] s t4 ∧ t4.btb = s.btb ∧
      t4.pc = s.pc ∧ t4.redirectPending = s.redirectPending ∧ t4.halted = s.halted) ∧
    (s.isBusy rs2 = false →
      ∃ t1 t2 t3 t4, exec (.storep rs1 rs2 imm) (s.at .decode) = .next t1 ∧
        exec (.storep rs1 rs2 imm) (t1.at .execute) = .next t2 ∧
        exec (.storep rs1 rs2 imm) (t2.at .memory) = .next t3 ∧
        exec (.storep rs1 rs2 imm) (t3.at .writeback) = .next t4 ∧
        Issued a b [rs2] s t1 ∧ t2.ml.memAddr = ea ∧ t2.exbus = s.exbus ++ [⟨rs2, p⟩] ∧
        t3.membus = s.membus ++ [⟨rs2, p⟩] ∧
        t4.dmem.read ea.toInt.toNat = a ∧ (∀ k, k ≠ ea.toInt.toNat → t4.dmem.read k = s.dmem.read k) ∧
        t4.dmem.wf = true ∧ t4.readReg? rs2 = some p ∧ t4.isBusy rs2 = false ∧ t4.retired = s.retired + 1 ∧
        t4.cc = s.cc ∧ Frame [rs2] s t4 ∧ t4.btb = s.btb ∧ t4.pc = s.pc ∧
        t4.redirectPending = s.redirectPending ∧ t4.halted = s.halted)

/-- R63, R214: Execute of a load or store computes the address and never raises, whatever it is; an address that is not in
`0..DMEM_WORDS-1` then raises `MemoryAddressOutOfRange` in Memory, and nothing is read or written: the machine has no next
state but the one that records the condition. -/
def Obligations.DataAddressOutOfRangeRaises : Prop :=
  ∀ (s : State) (r q : Int) (imm : Word),
    ∀ e ∈ [(Instr.load r q imm, s.xl.rs1Value), (.loadp r q imm, s.xl.rs1Value), (.store r q imm, s.xl.rs2Value),
        (.storep r q imm, s.xl.rs2Value)],
      (s.stage = .execute →
        ∃ t, exec e.1 s = .next t ∧ t.ml.memAddr = s.params.s32 (e.2.toInt + imm.toInt) ∧ t.dmem = s.dmem) ∧
      (s.stage = .memory → (s.ml.memAddr.toInt < 0 ∨ (s.params.dmemWords : Int) ≤ s.ml.memAddr.toInt) →
        exec e.1 s = .fault (.memoryAddressOutOfRange s.ml.pc s.ml.memAddr) ∧
          ∀ u v : State, s.ml.valid = true → s.ml.instr? = some e.1 → u.running = true →
            writebackStage { u with exbus := [], membus := [] } = .next v → s = v.at .memory →
            step u = .next { u with fault := some (.memoryAddressOutOfRange s.ml.pc s.ml.memAddr) })

/-- R55: data memory is plain storage: a read gives the last word written there, a write leaves every other word alone and
keeps the canonical form, and the form is canonical (equal words everywhere, equal memories). -/
def Obligations.DataMemoryIsPlainStorage : Prop :=
  (∀ (m : Memory) (a : Nat) (v : Word), m.wf = true →
    (m.write a v).read a = v ∧ (∀ k, k ≠ a → (m.write a v).read k = m.read k) ∧ (m.write a v).wf = true) ∧
  (∀ m m' : Memory, m.wf = true → m'.wf = true → (∀ k, m.read k = m'.read k) → m = m')

/-! ### Control transfers (spec/44_control_transfer.md) -/

/-- R190 to R193, R196, R126: the conditional branches, through Decode, Execute, Memory and Writeback: they never stall; the
family is recorded and the BTB insertion made; the outcome is the condition of the rule; the BTB update is made; Fetch is
redirected and the front end flushed exactly when the outcome is not what Fetch did (`btb_hit`), to the branch target if
taken and to the fall-through if not; no register, flag or memory word changes. -/
def Obligations.ConditionalBranchesComplete : Prop :=
  ∀ (s : State) (imm : Word),
    ∀ e ∈ [(Instr.bz imm, Family.B, s.cc.z), (.bnz imm, .A, !s.cc.z), (.bp imm, .A, s.cc.p), (.bnp imm, .B, !s.cc.p)],
      ∃ t1 t2 t3 t4, exec e.1 (s.at .decode) = .next t1 ∧ exec e.1 (t1.at .execute) = .next t2 ∧
        exec e.1 (t2.at .memory) = .next t3 ∧ exec e.1 (t3.at .writeback) = .next t4 ∧
        t1.xl = { s.dl with family := some e.2.1, stalled := false } ∧ t1.dl.valid = false ∧
        t1.btb = btbInsert s.btb s.dl.btbHit s.dl.pc e.2.1 ∧ t1.busy = s.busy ∧
        t2.btb = btbUpdate t1.btb s.dl.pc e.2.2 (s.params.s32 (s.dl.pc.toInt + imm.toInt)) ∧
        (e.2.2 = s.dl.btbHit → t2.pc = s.pc ∧ t2.redirectPending = s.redirectPending ∧
          t2.fl = { s.fl with stalled := false }) ∧
        (e.2.2 = true → s.dl.btbHit = false → t2.pc = s.params.s32 (s.dl.pc.toInt + imm.toInt)) ∧
        (e.2.2 = false → s.dl.btbHit = true → t2.pc = s.params.s32 (s.dl.pc.toInt + 4)) ∧
        (e.2.2 ≠ s.dl.btbHit → t2.redirectPending = true ∧ t2.dl.valid = false ∧
          t2.fl = { s.fl with valid := true, stalled := false }) ∧
        t2.exbus = s.exbus ∧ t3.membus = s.membus ∧ t4.x = s.x ∧ t4.busy = s.busy ∧ t4.cc = s.cc ∧
        t4.dmem = s.dmem ∧ t4.pc = t2.pc ∧ t4.btb = t2.btb ∧ t4.retired = s.retired + 1 ∧ t4.halted = s.halted ∧
        Frame [] s t4

/-- R194, R195, R126, R127: the unconditional transfers always flush, to `s32(x[rs1] + imm)`; `JALR` writes the address of
the next instruction to `rd`, from Execute on; no BTB action, no flag, no memory word. -/
def Obligations.JumpInstructionsComplete : Prop :=
  ∀ (s : State) (rd rs1 : Int) (imm a : Word), s.params.hasRegister rs1 = true → s.resolve rs1 = some a →
    (∃ t1 t2 t3 t4, exec (.jump rs1 imm) (s.at .decode) = .next t1 ∧
      exec (.jump rs1 imm) (t1.at .execute) = .next t2 ∧ exec (.jump rs1 imm) (t2.at .memory) = .next t3 ∧
      exec (.jump rs1 imm) (t3.at .writeback) = .next t4 ∧ Issued a s.dl.rs2Value [] s t1 ∧
      t2.pc = s.params.s32 (a.toInt + imm.toInt) ∧ t2.redirectPending = true ∧ t2.dl.valid = false ∧
      t2.fl = { s.fl with valid := true, stalled := false } ∧ t2.exbus = s.exbus ∧ t3.membus = s.membus ∧
      t4.x = s.x ∧ t4.busy = s.busy ∧ t4.cc = s.cc ∧ t4.dmem = s.dmem ∧ t4.btb = s.btb ∧ t4.pc = t2.pc ∧
      t4.retired = s.retired + 1 ∧ t4.halted = s.halted ∧ Frame [] s t4) ∧
    (s.params.hasRegister rd = true → s.isBusy rd = false →
      ∃ t1 t2 t3 t4, exec (.jalr rd rs1 imm) (s.at .decode) = .next t1 ∧
        exec (.jalr rd rs1 imm) (t1.at .execute) = .next t2 ∧ exec (.jalr rd rs1 imm) (t2.at .memory) = .next t3 ∧
        exec (.jalr rd rs1 imm) (t3.at .writeback) = .next t4 ∧ Issued a s.dl.rs2Value [rd] s t1 ∧
        t2.pc = s.params.s32 (a.toInt + imm.toInt) ∧ t2.redirectPending = true ∧ t2.dl.valid = false ∧
        t2.fl = { s.fl with valid := true, stalled := false } ∧
        t2.exbus = s.exbus ++ [⟨rd, s.params.s32 (s.dl.pc.toInt + 4)⟩] ∧
        t3.membus = s.membus ++ [⟨rd, s.params.s32 (s.dl.pc.toInt + 4)⟩] ∧
        t4.readReg? rd = some (s.params.s32 (s.dl.pc.toInt + 4)) ∧ t4.isBusy rd = false ∧ t4.cc = s.cc ∧ t4.dmem = s.dmem ∧
        t4.btb = s.btb ∧ t4.pc = t2.pc ∧ t4.retired = s.retired + 1 ∧ t4.halted = s.halted ∧ Frame [rd] s t4)

/-- R126, R127, R252: a cycle in which Execute flushes, that is with a `JUMP` or `JALR` in `XL`, or a conditional branch
whose outcome is not its `btb_hit`: the instruction that was in `DL` is lost without a trace (no busy bit, no issue),
Fetch fetches nothing and consumes the pending redirect, so the step ends with `pc` at the target, `DL` and `XL` empty,
and Fetch enabled and not held; the BTB is as a resolution leaves it, or as it was where the instruction is no branch; the
instruction itself goes on to `ML`. -/
def Obligations.FlushLosesDecodeAndOneFetch : Prop :=
  ∀ (s t : State) (a : Word), s.running = true → s.flushTarget? = some a → step s = .next t → t.fault = none →
    t.pc = a ∧ t.dl.valid = false ∧ t.dl.stalled = false ∧ t.xl.valid = false ∧ t.fl.valid = true ∧
      t.fl.stalled = false ∧ t.redirectPending = false ∧ t.ml.valid = true ∧ t.ml.instr? = s.xl.instr? ∧
      t.ml.pc = s.xl.pc ∧ (∀ r, t.isBusy r = true → s.isBusy r = true) ∧
      (∀ j, s.xl.instr? = some j → j.family? = none → t.btb = s.btb) ∧
      (∀ j, s.xl.instr? = some j → j.family? ≠ none →
        t.btb = btbUpdate s.btb s.xl.pc (!s.xl.btbHit) (s.params.s32 (s.xl.pc.toInt + s.xl.imm.toInt)))

/-! ### Halt (spec/45_halt_and_reserved.md) -/

/-- R200: `HALT` never stalls, drives no bus, and at Writeback sets `halted` and counts as retired; no register, flag,
memory word, BTB entry or `pc` changes. -/
def Obligations.HaltCompletes : Prop :=
  ∀ s : State, ∃ t1 t2 t3 t4, exec .halt (s.at .decode) = .next t1 ∧ exec .halt (t1.at .execute) = .next t2 ∧
    exec .halt (t2.at .memory) = .next t3 ∧ exec .halt (t3.at .writeback) = .next t4 ∧
    Issued s.dl.rs1Value s.dl.rs2Value [] s t1 ∧ t2.exbus = s.exbus ∧ t3.membus = s.membus ∧ t3.halted = s.halted ∧
    t4.halted = true ∧ t4.retired = s.retired + 1 ∧ t4.x = s.x ∧ t4.busy = s.busy ∧ t4.cc = s.cc ∧ t4.dmem = s.dmem ∧
    t4.btb = s.btb ∧ t4.pc = s.pc ∧ Frame [] s t4

/-! ### Branch target buffer (spec/40_btb_predictor.md) -/

/-- R90, R91: the table of the saturating counter and the prediction bit. -/
def Obligations.HistoryCounterTable : Prop :=
  ∀ (h : Nat) (e : BtbEntry) (t : Word), h ≤ 3 → e.hist = h →
    (e.resolve true t).hist = min 3 (h + 1) ∧ ((e.resolve false t).hist : Int) = max 0 ((h : Int) - 1) ∧
    ((e.resolve true t).pred = true ↔ 1 ≤ h) ∧ ((e.resolve false t).pred = true ↔ h = 3)

/-- R93: `lookup(a)` is the oldest entry with the address, resolved taken at least once, counted, predicting taken; none if
there is no such entry. -/
def Obligations.LookupIsTheOldestPredictiveHit : Prop :=
  ∀ (btb : List BtbEntry) (a : Word),
    (∀ e, btbLookup btb a = some e ↔ ∃ older newer, btb = older ++ e :: newer ∧
      (e.addr = a ∧ e.everTaken = true ∧ e.execCount ≠ 0 ∧ e.pred = true) ∧
      ∀ d ∈ older, ¬(d.addr = a ∧ d.everTaken = true ∧ d.execCount ≠ 0 ∧ d.pred = true)) ∧
    (btbLookup btb a = none ↔ ∀ d ∈ btb, ¬(d.addr = a ∧ d.everTaken = true ∧ d.execCount ≠ 0 ∧ d.pred = true))

/-- R94, R95: insertion: no change when Fetch hit or the address is present; else the new entry of the branch's family is
appended, and a full queue first loses exactly its oldest entry. -/
def Obligations.InsertionEvictsTheOldest : Prop :=
  ∀ (btb : List BtbEntry) (hit : Bool) (a : Word) (f : Family),
    (hit = true ∨ (∃ e ∈ btb, e.addr = a) → btbInsert btb hit a f = btb) ∧
    (hit = false → (∀ e ∈ btb, e.addr ≠ a) →
      ∃ new, new = (if f = .A then ⟨a, 0, true, 3, false, 0⟩ else ⟨a, 0, false, 0, false, 0⟩ : BtbEntry) ∧
        (btb.length ≠ 4 → btbInsert btb hit a f = btb ++ [new]) ∧
        (∀ oldest rest, btb = oldest :: rest → btb.length = 4 → btbInsert btb hit a f = rest ++ [new]))

/-- R96: the resolution update changes the entry of the branch's address only: history, prediction bit, count, target, and
has-ever-taken. -/
def Obligations.ResolutionUpdatesOneEntry : Prop :=
  ∀ (btb : List BtbEntry) (a t : Word) (taken : Bool),
    (btbUpdate btb a taken t).map BtbEntry.addr = btb.map BtbEntry.addr ∧
    ∀ (k : Nat) (e : BtbEntry), btb[k]? = some e →
      (e.addr ≠ a → (btbUpdate btb a taken t)[k]? = some e) ∧
      (e.addr = a → ∃ d : BtbEntry, (btbUpdate btb a taken t)[k]? = some d ∧ d.hist = nextHist e.hist taken ∧
        d.pred = decide (2 ≤ d.hist) ∧ d.execCount = min (2 ^ 32 - 1) (e.execCount + 1) ∧ d.target = t ∧
        d.everTaken = (e.everTaken || taken))

/-- R98: the ring buffer of four slots is the list: one append or replacement in it is the list's, and it keeps its
shape. -/
def Obligations.RingBufferRefinesTheQueue : Prop :=
  ∀ (q : BtbRing) (e : BtbEntry), q.ok = true →
    (q.push e).ok = true ∧ (q.push e).toList = btbPush q.toList e

/-! ### Hazards (spec/70_reset_and_hazards.md) -/

/-- R251, row 3 at distance 1: an instruction directly behind a `LOAD` or `LOADP` that needs the loaded register as a source,
and writes no destination of the load, waits exactly one cycle: in the cycle the load is in Execute it stays in `DL`, Fetch
is held and `XL` gets a bubble; in the next cycle it is issued, with the loaded word. -/
def Obligations.LoadUseStallsOneCycle : Prop :=
  ∀ (s t u : State) (rd rs1 : Int) (imm : Word) (i : Instr), s.Inv → s.HaltInv → s.running = true → s.xl.valid = true →
    (s.xl.instr? = some (.load rd rs1 imm) ∨ s.xl.instr? = some (.loadp rd rs1 imm)) →
    s.dl.valid = true → s.dl.instr? = some i → i.passesDecode s.params → i.operands.reads rd →
    step s = .next t → t.fault = none →
    (t.dl.valid = true ∧ t.dl.stalled = true ∧ t.dl.instr? = some i ∧ t.xl.valid = false ∧ t.pc = s.pc ∧
      t.ml.instr? = s.xl.instr?) ∧
    ((∀ d ∈ i.operands.dests, d ∉ s.xl.dests) → step t = .next u → u.fault = none →
      u.xl.valid = true ∧ u.xl.instr? = some i ∧ u.xl.pc = s.dl.pc ∧
        ∀ k : Nat, (k : Int) = (s.params.s32 (s.xl.rs1Value.toInt + imm.toInt)).toInt →
          (i.operands.src1 = some rd → u.xl.rs1Value = t.dmem.read k) ∧
          (i.operands.src2 = some rd → u.xl.rs2Value = t.dmem.read k))

/-- R251, row 1: an instruction that has the result of an ALU instruction, a `MOVC` or a `JALR` as a source, and that
nothing else makes wait, is issued without a stall, with that result. At distance 1 (producer in Execute) the result comes
from `EXBUS`, at distance 2 (in Memory) from `MEMBUS`, at distance 3 (in Writeback) from the register file. The
instruction behind a `JALR` is the one at its target: it is in Decode, at the earliest, when the `JALR` is in Writeback,
since the flush costs two cycles; it is issued then, with the link address. -/
def Obligations.AluResultIsForwardedWithoutStall : Prop :=
  ∀ (s t : State) (rd rs1 rs2 : Int) (imm a b : Word) (i : Instr), s.Inv → s.running = true →
    (a = s.xl.rs1Value → b = s.xl.rs2Value →
      ∀ e ∈ [(Instr.add rd rs1 rs2, s.params.s32 (a.toInt + b.toInt)), (.sub rd rs1 rs2, s.params.s32 (a.toInt - b.toInt)),
          (.mul rd rs1 rs2, s.params.s32 (a.toInt * b.toInt)), (.and rd rs1 rs2, a &&& b), (.or rd rs1 rs2, a ||| b),
          (.xor rd rs1 rs2, a ^^^ b), (.addl rd rs1 imm, s.params.s32 (a.toInt + imm.toInt)),
          (.subl rd rs1 imm, s.params.s32 (a.toInt - imm.toInt)), (.movc rd imm, imm)],
        s.xl.valid = true → s.xl.instr? = some e.1 → s.dl.valid = true → s.dl.instr? = some i → i.passesDecode s.params →
        i.operands.reads rd →
        (∀ d ∈ i.operands.dests, d ∉ s.xl.dests ∧ (s.ml.valid = true → d ∉ s.ml.dests)) →
        step s = .next t → t.fault = none →
        t.xl.valid = true ∧ t.xl.instr? = some i ∧ t.xl.pc = s.dl.pc ∧
          (i.operands.src1 = some rd → t.xl.rs1Value = e.2) ∧ (i.operands.src2 = some rd → t.xl.rs2Value = e.2)) ∧
    (∀ p ∈ [Instr.add rd rs1 rs2, .sub rd rs1 rs2, .mul rd rs1 rs2, .and rd rs1 rs2, .or rd rs1 rs2, .xor rd rs1 rs2,
          .addl rd rs1 imm, .subl rd rs1 imm, .movc rd imm, .jalr rd rs1 imm],
      s.dl.valid = true → s.dl.instr? = some i → i.passesDecode s.params → i.operands.reads rd →
      s.flushTarget? = none → ¬s.Waits i → step s = .next t → t.fault = none →
      (s.ml.valid = true → s.ml.instr? = some p →
        t.xl.valid = true ∧ t.xl.instr? = some i ∧ t.xl.pc = s.dl.pc ∧
          (i.operands.src1 = some rd → t.xl.rs1Value = s.ml.result) ∧
          (i.operands.src2 = some rd → t.xl.rs2Value = s.ml.result)) ∧
      (s.wl.valid = true → s.wl.instr? = some p →
        t.xl.valid = true ∧ t.xl.instr? = some i ∧ t.xl.pc = s.dl.pc ∧
          (i.operands.src1 = some rd → t.xl.rs1Value = s.wl.result) ∧
          (i.operands.src2 = some rd → t.xl.rs2Value = s.wl.result))) ∧
    (∀ u v : State, s.HaltInv → s.xl.valid = true → s.xl.instr? = some (.jalr rd rs1 imm) →
      step s = .next u → step u = .next v →
      v.dl.valid = true → v.dl.instr? = some i → i.passesDecode s.params → i.operands.reads rd → step v = .next t →
      t.fault = none →
      u.dl.valid = false ∧ t.xl.valid = true ∧ t.xl.instr? = some i ∧ t.xl.pc = v.dl.pc ∧
        (i.operands.src1 = some rd → t.xl.rs1Value = s.params.s32 (s.xl.pc.toInt + 4)) ∧
        (i.operands.src2 = some rd → t.xl.rs2Value = s.params.s32 (s.xl.pc.toInt + 4)))

/-- R246: `runUntilHalt` is the iteration of the step: stopping at a halted or faulted state adds no behaviour. -/
def Obligations.RunUntilHaltIteratesTheStep : Prop :=
  ∀ (n : Nat) (s : State), runState n s = (fun u => (stepOneCycle u).1)^[n] s ∧
    runUntilHalt s n = ⟨(runState n s).cycles, (runState n s).retired, (runState n s).halted⟩ ∧
    Sys2Proof.core.run n s = .next (runState n s)

/-! ### Invariants (R39, R97, R100, R131) -/

/-- R39, R97: every step keeps the invariant, from every state that has it. -/
def Obligations.StepKeepsTheInvariant : Prop :=
  ∀ s t : State, s.Inv → step s = .next t → t.Inv

/-- R115, R131: every step keeps: behind a `HALT` that Decode was given nothing younger exists, and Fetch is off. -/
def Obligations.StepKeepsTheHaltInvariant : Prop :=
  ∀ s t : State, s.HaltInv → step s = .next t → t.HaltInv

/-- R97, R100: every step keeps: latches and BTB hold the program's instructions, entries and taken-targets. -/
def Obligations.StepKeepsTheProgramInvariant : Prop :=
  ∀ s t : State, s.ProgramInv → step s = .next t → t.ProgramInv

/-- R37, R39: the three invariants hold right after reset, with and without a program; and so does R9's, where the program's
immediates and the `DMEM_INIT` words are Words of `XLEN` bits. -/
def Obligations.ResetHasTheInvariants : Prop :=
  (State.reset.Inv ∧ State.reset.HaltInv ∧ State.reset.ProgramInv ∧ State.reset.WordsFit) ∧
  ∀ code params init s, State.initialize code params init = .ok s → s.Inv ∧ s.HaltInv ∧ s.ProgramInv ∧
    ((∀ r ∈ code, params.fits r.imm = true) → (∀ c ∈ init, params.fits c.2 = true) → s.WordsFit)

/-! ### Sequential equivalence (R134) -/

/-- R134: if the sequential machine retires `HALT` after `n` instructions, the pipelined core reaches `halted` with the same
registers, flags and data memory, `retired = n`, no busy bit, every latch empty, no fault, and `pc` just behind the `HALT`,
at the sequential `spc + 4`. -/
def Obligations.PipelineEndsInTheSequentialState : Prop :=
  ∀ (code : List Record) (params : Config.Params) (init : List (Nat × Word)) (s : State) (n : Nat) (a : ArchState),
    State.initialize code params init = .ok s → a = (ArchState.step^[n]) s.archReset → a.halted = true → a.retired = n →
    ∃ k t, Sys2Proof.core.run k s = .next t ∧ t.halted = true ∧ t.fault = none ∧ t.retired = n ∧ t.x = a.x ∧
      t.cc = a.cc ∧ t.dmem = a.dmem ∧ t.pc = a.params.s32 (a.spc.toInt + 4) ∧ (∀ r, t.isBusy r = false) ∧
        t.fl.valid = false ∧
      t.dl.valid = false ∧ t.xl.valid = false ∧ t.ml.valid = false ∧ t.wl.valid = false

/-- R134, R215: if the sequential machine meets a fatal condition, the core stops with a fatal condition too: the same
one, or, where that is the data address of a load or store, possibly the condition that Decode raises (`InvalidOpcode`,
`RegisterIndexOutOfRange`, `CodeAddressInvalid`) for the one instruction after it. -/
def Obligations.PipelineFaultsWithTheSequentialMachine : Prop :=
  ∀ (code : List Record) (params : Config.Params) (init : List (Nat × Word)) (s : State) (n : Nat) (a : ArchState) (k : Fault),
    State.initialize code params init = .ok s → a = (ArchState.step^[n]) s.archReset → a.fault = some k →
    ∃ m t, Sys2Proof.core.run m s = .next t ∧ t.halted = false ∧
      (t.fault = some k ∨
        ∃ (pc addr next : Word) (j : Fault), k = .memoryAddressOutOfRange pc addr ∧ next = params.s32 (pc.toInt + 4) ∧
          t.fault = some j ∧ a.fetched next = .error j ∧
          (j = .codeAddressInvalid next ∨ (∃ o, j = .invalidOpcode next o) ∨ ∃ f, j = .registerIndexOutOfRange next f))

/-- R134: if the sequential machine runs for ever, so does the core, without a fatal condition. -/
def Obligations.PipelineRunsForEverWithTheSequentialMachine : Prop :=
  ∀ (code : List Record) (params : Config.Params) (init : List (Nat × Word)) (s : State),
    State.initialize code params init = .ok s →
    (∀ n, ((ArchState.step^[n]) s.archReset).halted = false ∧ ((ArchState.step^[n]) s.archReset).fault = none) →
    ∀ m t, Sys2Proof.core.run m s = .next t → t.halted = false ∧ t.fault = none

/-! ### Words of `XLEN` bits (spec/00_scope.md R7, R9) -/

/-- R9, R7: every step keeps: all registers, data words, immediates, addresses and latch fields are Words of `XLEN` bits, at
every `XLEN` a launch may choose. -/
def Obligations.StepKeepsWordsWithinXlen : Prop :=
  ∀ s t : State, s.WordsFit → step s = .next t → t.WordsFit
end

