-- ==== Sys2Proof/Laws/State.lean ====
section
/-! SUPPORT. What each update of the state leaves in each field: one lemma per field per update, so that no proof unfolds
a record update. -/

namespace Sys2Proof.Machine

/-! ### `State.advanceDecode` -/

@[simp] theorem State.advanceDecode_x (s : State) : (s.advanceDecode).x = s.x := rfl
@[simp] theorem State.advanceDecode_busy (s : State) : (s.advanceDecode).busy = s.busy := rfl
@[simp] theorem State.advanceDecode_pc (s : State) : (s.advanceDecode).pc = s.pc := rfl
@[simp] theorem State.advanceDecode_cc (s : State) : (s.advanceDecode).cc = s.cc := rfl
@[simp] theorem State.advanceDecode_fl (s : State) : (s.advanceDecode).fl = s.fl := rfl
@[simp] theorem State.advanceDecode_dl (s : State) : (s.advanceDecode).dl = { s.dl with valid := false } := rfl
@[simp] theorem State.advanceDecode_xl (s : State) : (s.advanceDecode).xl = s.dl := rfl
@[simp] theorem State.advanceDecode_ml (s : State) : (s.advanceDecode).ml = s.ml := rfl
@[simp] theorem State.advanceDecode_wl (s : State) : (s.advanceDecode).wl = s.wl := rfl
@[simp] theorem State.advanceDecode_exbus (s : State) : (s.advanceDecode).exbus = s.exbus := rfl
@[simp] theorem State.advanceDecode_membus (s : State) : (s.advanceDecode).membus = s.membus := rfl
@[simp] theorem State.advanceDecode_btb (s : State) : (s.advanceDecode).btb = s.btb := rfl
@[simp] theorem State.advanceDecode_redirectPending (s : State) : (s.advanceDecode).redirectPending = s.redirectPending := rfl
@[simp] theorem State.advanceDecode_retired (s : State) : (s.advanceDecode).retired = s.retired := rfl
@[simp] theorem State.advanceDecode_cycles (s : State) : (s.advanceDecode).cycles = s.cycles := rfl
@[simp] theorem State.advanceDecode_halted (s : State) : (s.advanceDecode).halted = s.halted := rfl
@[simp] theorem State.advanceDecode_fault (s : State) : (s.advanceDecode).fault = s.fault := rfl
@[simp] theorem State.advanceDecode_dmem (s : State) : (s.advanceDecode).dmem = s.dmem := rfl
@[simp] theorem State.advanceDecode_code (s : State) : (s.advanceDecode).code = s.code := rfl
@[simp] theorem State.advanceDecode_params (s : State) : (s.advanceDecode).params = s.params := rfl
@[simp] theorem State.advanceDecode_stage (s : State) : (s.advanceDecode).stage = s.stage := rfl

/-! ### `State.advanceExecute` -/

@[simp] theorem State.advanceExecute_x (s : State) : (s.advanceExecute).x = s.x := rfl
@[simp] theorem State.advanceExecute_busy (s : State) : (s.advanceExecute).busy = s.busy := rfl
@[simp] theorem State.advanceExecute_pc (s : State) : (s.advanceExecute).pc = s.pc := rfl
@[simp] theorem State.advanceExecute_cc (s : State) : (s.advanceExecute).cc = s.cc := rfl
@[simp] theorem State.advanceExecute_fl (s : State) : (s.advanceExecute).fl = s.fl := rfl
@[simp] theorem State.advanceExecute_dl (s : State) : (s.advanceExecute).dl = s.dl := rfl
@[simp] theorem State.advanceExecute_xl (s : State) : (s.advanceExecute).xl = { s.xl with valid := false } := rfl
@[simp] theorem State.advanceExecute_ml (s : State) : (s.advanceExecute).ml = s.xl := rfl
@[simp] theorem State.advanceExecute_wl (s : State) : (s.advanceExecute).wl = s.wl := rfl
@[simp] theorem State.advanceExecute_exbus (s : State) : (s.advanceExecute).exbus = s.exbus := rfl
@[simp] theorem State.advanceExecute_membus (s : State) : (s.advanceExecute).membus = s.membus := rfl
@[simp] theorem State.advanceExecute_btb (s : State) : (s.advanceExecute).btb = s.btb := rfl
@[simp] theorem State.advanceExecute_redirectPending (s : State) : (s.advanceExecute).redirectPending = s.redirectPending := rfl
@[simp] theorem State.advanceExecute_retired (s : State) : (s.advanceExecute).retired = s.retired := rfl
@[simp] theorem State.advanceExecute_cycles (s : State) : (s.advanceExecute).cycles = s.cycles := rfl
@[simp] theorem State.advanceExecute_halted (s : State) : (s.advanceExecute).halted = s.halted := rfl
@[simp] theorem State.advanceExecute_fault (s : State) : (s.advanceExecute).fault = s.fault := rfl
@[simp] theorem State.advanceExecute_dmem (s : State) : (s.advanceExecute).dmem = s.dmem := rfl
@[simp] theorem State.advanceExecute_code (s : State) : (s.advanceExecute).code = s.code := rfl
@[simp] theorem State.advanceExecute_params (s : State) : (s.advanceExecute).params = s.params := rfl
@[simp] theorem State.advanceExecute_stage (s : State) : (s.advanceExecute).stage = s.stage := rfl

/-! ### `State.advanceMemory` -/

@[simp] theorem State.advanceMemory_x (s : State) : (s.advanceMemory).x = s.x := rfl
@[simp] theorem State.advanceMemory_busy (s : State) : (s.advanceMemory).busy = s.busy := rfl
@[simp] theorem State.advanceMemory_pc (s : State) : (s.advanceMemory).pc = s.pc := rfl
@[simp] theorem State.advanceMemory_cc (s : State) : (s.advanceMemory).cc = s.cc := rfl
@[simp] theorem State.advanceMemory_fl (s : State) : (s.advanceMemory).fl = s.fl := rfl
@[simp] theorem State.advanceMemory_dl (s : State) : (s.advanceMemory).dl = s.dl := rfl
@[simp] theorem State.advanceMemory_xl (s : State) : (s.advanceMemory).xl = s.xl := rfl
@[simp] theorem State.advanceMemory_ml (s : State) : (s.advanceMemory).ml = { s.ml with valid := false } := rfl
@[simp] theorem State.advanceMemory_wl (s : State) : (s.advanceMemory).wl = s.ml := rfl
@[simp] theorem State.advanceMemory_exbus (s : State) : (s.advanceMemory).exbus = s.exbus := rfl
@[simp] theorem State.advanceMemory_membus (s : State) : (s.advanceMemory).membus = s.membus := rfl
@[simp] theorem State.advanceMemory_btb (s : State) : (s.advanceMemory).btb = s.btb := rfl
@[simp] theorem State.advanceMemory_redirectPending (s : State) : (s.advanceMemory).redirectPending = s.redirectPending := rfl
@[simp] theorem State.advanceMemory_retired (s : State) : (s.advanceMemory).retired = s.retired := rfl
@[simp] theorem State.advanceMemory_cycles (s : State) : (s.advanceMemory).cycles = s.cycles := rfl
@[simp] theorem State.advanceMemory_halted (s : State) : (s.advanceMemory).halted = s.halted := rfl
@[simp] theorem State.advanceMemory_fault (s : State) : (s.advanceMemory).fault = s.fault := rfl
@[simp] theorem State.advanceMemory_dmem (s : State) : (s.advanceMemory).dmem = s.dmem := rfl
@[simp] theorem State.advanceMemory_code (s : State) : (s.advanceMemory).code = s.code := rfl
@[simp] theorem State.advanceMemory_params (s : State) : (s.advanceMemory).params = s.params := rfl
@[simp] theorem State.advanceMemory_stage (s : State) : (s.advanceMemory).stage = s.stage := rfl

/-! ### `State.retire` -/

@[simp] theorem State.retire_x (s : State) : (s.retire).x = s.x := rfl
@[simp] theorem State.retire_busy (s : State) : (s.retire).busy = s.busy := rfl
@[simp] theorem State.retire_pc (s : State) : (s.retire).pc = s.pc := rfl
@[simp] theorem State.retire_cc (s : State) : (s.retire).cc = s.cc := rfl
@[simp] theorem State.retire_fl (s : State) : (s.retire).fl = s.fl := rfl
@[simp] theorem State.retire_dl (s : State) : (s.retire).dl = s.dl := rfl
@[simp] theorem State.retire_xl (s : State) : (s.retire).xl = s.xl := rfl
@[simp] theorem State.retire_ml (s : State) : (s.retire).ml = s.ml := rfl
@[simp] theorem State.retire_wl (s : State) : (s.retire).wl = { s.wl with valid := false } := rfl
@[simp] theorem State.retire_exbus (s : State) : (s.retire).exbus = s.exbus := rfl
@[simp] theorem State.retire_membus (s : State) : (s.retire).membus = s.membus := rfl
@[simp] theorem State.retire_btb (s : State) : (s.retire).btb = s.btb := rfl
@[simp] theorem State.retire_redirectPending (s : State) : (s.retire).redirectPending = s.redirectPending := rfl
@[simp] theorem State.retire_retired (s : State) : (s.retire).retired = s.retired + 1 := rfl
@[simp] theorem State.retire_cycles (s : State) : (s.retire).cycles = s.cycles := rfl
@[simp] theorem State.retire_halted (s : State) : (s.retire).halted = s.halted := rfl
@[simp] theorem State.retire_fault (s : State) : (s.retire).fault = s.fault := rfl
@[simp] theorem State.retire_dmem (s : State) : (s.retire).dmem = s.dmem := rfl
@[simp] theorem State.retire_code (s : State) : (s.retire).code = s.code := rfl
@[simp] theorem State.retire_params (s : State) : (s.retire).params = s.params := rfl
@[simp] theorem State.retire_stage (s : State) : (s.retire).stage = s.stage := rfl

/-! ### `State.forwardFetch` -/

@[simp] theorem State.forwardFetch_x (s : State) : (s.forwardFetch).x = s.x := rfl
@[simp] theorem State.forwardFetch_busy (s : State) : (s.forwardFetch).busy = s.busy := rfl
@[simp] theorem State.forwardFetch_pc (s : State) : (s.forwardFetch).pc = s.pc := rfl
@[simp] theorem State.forwardFetch_cc (s : State) : (s.forwardFetch).cc = s.cc := rfl
@[simp] theorem State.forwardFetch_fl (s : State) : (s.forwardFetch).fl = s.fl := rfl
@[simp] theorem State.forwardFetch_dl (s : State) : (s.forwardFetch).dl = s.fl := rfl
@[simp] theorem State.forwardFetch_xl (s : State) : (s.forwardFetch).xl = s.xl := rfl
@[simp] theorem State.forwardFetch_ml (s : State) : (s.forwardFetch).ml = s.ml := rfl
@[simp] theorem State.forwardFetch_wl (s : State) : (s.forwardFetch).wl = s.wl := rfl
@[simp] theorem State.forwardFetch_exbus (s : State) : (s.forwardFetch).exbus = s.exbus := rfl
@[simp] theorem State.forwardFetch_membus (s : State) : (s.forwardFetch).membus = s.membus := rfl
@[simp] theorem State.forwardFetch_btb (s : State) : (s.forwardFetch).btb = s.btb := rfl
@[simp] theorem State.forwardFetch_redirectPending (s : State) : (s.forwardFetch).redirectPending = s.redirectPending := rfl
@[simp] theorem State.forwardFetch_retired (s : State) : (s.forwardFetch).retired = s.retired := rfl
@[simp] theorem State.forwardFetch_cycles (s : State) : (s.forwardFetch).cycles = s.cycles := rfl
@[simp] theorem State.forwardFetch_halted (s : State) : (s.forwardFetch).halted = s.halted := rfl
@[simp] theorem State.forwardFetch_fault (s : State) : (s.forwardFetch).fault = s.fault := rfl
@[simp] theorem State.forwardFetch_dmem (s : State) : (s.forwardFetch).dmem = s.dmem := rfl
@[simp] theorem State.forwardFetch_code (s : State) : (s.forwardFetch).code = s.code := rfl
@[simp] theorem State.forwardFetch_params (s : State) : (s.forwardFetch).params = s.params := rfl
@[simp] theorem State.forwardFetch_stage (s : State) : (s.forwardFetch).stage = s.stage := rfl

/-! ### `State.stopFetch` -/

@[simp] theorem State.stopFetch_x (s : State) : (s.stopFetch).x = s.x := rfl
@[simp] theorem State.stopFetch_busy (s : State) : (s.stopFetch).busy = s.busy := rfl
@[simp] theorem State.stopFetch_pc (s : State) : (s.stopFetch).pc = s.pc := rfl
@[simp] theorem State.stopFetch_cc (s : State) : (s.stopFetch).cc = s.cc := rfl
@[simp] theorem State.stopFetch_fl (s : State) : (s.stopFetch).fl = { s.fl with valid := false } := rfl
@[simp] theorem State.stopFetch_dl (s : State) : (s.stopFetch).dl = s.dl := rfl
@[simp] theorem State.stopFetch_xl (s : State) : (s.stopFetch).xl = s.xl := rfl
@[simp] theorem State.stopFetch_ml (s : State) : (s.stopFetch).ml = s.ml := rfl
@[simp] theorem State.stopFetch_wl (s : State) : (s.stopFetch).wl = s.wl := rfl
@[simp] theorem State.stopFetch_exbus (s : State) : (s.stopFetch).exbus = s.exbus := rfl
@[simp] theorem State.stopFetch_membus (s : State) : (s.stopFetch).membus = s.membus := rfl
@[simp] theorem State.stopFetch_btb (s : State) : (s.stopFetch).btb = s.btb := rfl
@[simp] theorem State.stopFetch_redirectPending (s : State) : (s.stopFetch).redirectPending = s.redirectPending := rfl
@[simp] theorem State.stopFetch_retired (s : State) : (s.stopFetch).retired = s.retired := rfl
@[simp] theorem State.stopFetch_cycles (s : State) : (s.stopFetch).cycles = s.cycles := rfl
@[simp] theorem State.stopFetch_halted (s : State) : (s.stopFetch).halted = s.halted := rfl
@[simp] theorem State.stopFetch_fault (s : State) : (s.stopFetch).fault = s.fault := rfl
@[simp] theorem State.stopFetch_dmem (s : State) : (s.stopFetch).dmem = s.dmem := rfl
@[simp] theorem State.stopFetch_code (s : State) : (s.stopFetch).code = s.code := rfl
@[simp] theorem State.stopFetch_params (s : State) : (s.stopFetch).params = s.params := rfl
@[simp] theorem State.stopFetch_stage (s : State) : (s.stopFetch).stage = s.stage := rfl

/-! ### `State.halt` -/

@[simp] theorem State.halt_x (s : State) : (s.halt).x = s.x := rfl
@[simp] theorem State.halt_busy (s : State) : (s.halt).busy = s.busy := rfl
@[simp] theorem State.halt_pc (s : State) : (s.halt).pc = s.pc := rfl
@[simp] theorem State.halt_cc (s : State) : (s.halt).cc = s.cc := rfl
@[simp] theorem State.halt_fl (s : State) : (s.halt).fl = s.fl := rfl
@[simp] theorem State.halt_dl (s : State) : (s.halt).dl = s.dl := rfl
@[simp] theorem State.halt_xl (s : State) : (s.halt).xl = s.xl := rfl
@[simp] theorem State.halt_ml (s : State) : (s.halt).ml = s.ml := rfl
@[simp] theorem State.halt_wl (s : State) : (s.halt).wl = s.wl := rfl
@[simp] theorem State.halt_exbus (s : State) : (s.halt).exbus = s.exbus := rfl
@[simp] theorem State.halt_membus (s : State) : (s.halt).membus = s.membus := rfl
@[simp] theorem State.halt_btb (s : State) : (s.halt).btb = s.btb := rfl
@[simp] theorem State.halt_redirectPending (s : State) : (s.halt).redirectPending = s.redirectPending := rfl
@[simp] theorem State.halt_retired (s : State) : (s.halt).retired = s.retired := rfl
@[simp] theorem State.halt_cycles (s : State) : (s.halt).cycles = s.cycles := rfl
@[simp] theorem State.halt_halted (s : State) : (s.halt).halted = true := rfl
@[simp] theorem State.halt_fault (s : State) : (s.halt).fault = s.fault := rfl
@[simp] theorem State.halt_dmem (s : State) : (s.halt).dmem = s.dmem := rfl
@[simp] theorem State.halt_code (s : State) : (s.halt).code = s.code := rfl
@[simp] theorem State.halt_params (s : State) : (s.halt).params = s.params := rfl
@[simp] theorem State.halt_stage (s : State) : (s.halt).stage = s.stage := rfl

/-! ### `State.driveExbus` -/

@[simp] theorem State.driveExbus_x (s : State) (ps : List BusPair) : (s.driveExbus ps).x = s.x := rfl
@[simp] theorem State.driveExbus_busy (s : State) (ps : List BusPair) : (s.driveExbus ps).busy = s.busy := rfl
@[simp] theorem State.driveExbus_pc (s : State) (ps : List BusPair) : (s.driveExbus ps).pc = s.pc := rfl
@[simp] theorem State.driveExbus_cc (s : State) (ps : List BusPair) : (s.driveExbus ps).cc = s.cc := rfl
@[simp] theorem State.driveExbus_fl (s : State) (ps : List BusPair) : (s.driveExbus ps).fl = s.fl := rfl
@[simp] theorem State.driveExbus_dl (s : State) (ps : List BusPair) : (s.driveExbus ps).dl = s.dl := rfl
@[simp] theorem State.driveExbus_xl (s : State) (ps : List BusPair) : (s.driveExbus ps).xl = s.xl := rfl
@[simp] theorem State.driveExbus_ml (s : State) (ps : List BusPair) : (s.driveExbus ps).ml = s.ml := rfl
@[simp] theorem State.driveExbus_wl (s : State) (ps : List BusPair) : (s.driveExbus ps).wl = s.wl := rfl
@[simp] theorem State.driveExbus_exbus (s : State) (ps : List BusPair) : (s.driveExbus ps).exbus = s.exbus ++ ps := rfl
@[simp] theorem State.driveExbus_membus (s : State) (ps : List BusPair) : (s.driveExbus ps).membus = s.membus := rfl
@[simp] theorem State.driveExbus_btb (s : State) (ps : List BusPair) : (s.driveExbus ps).btb = s.btb := rfl
@[simp] theorem State.driveExbus_redirectPending (s : State) (ps : List BusPair) : (s.driveExbus ps).redirectPending = s.redirectPending := rfl
@[simp] theorem State.driveExbus_retired (s : State) (ps : List BusPair) : (s.driveExbus ps).retired = s.retired := rfl
@[simp] theorem State.driveExbus_cycles (s : State) (ps : List BusPair) : (s.driveExbus ps).cycles = s.cycles := rfl
@[simp] theorem State.driveExbus_halted (s : State) (ps : List BusPair) : (s.driveExbus ps).halted = s.halted := rfl
@[simp] theorem State.driveExbus_fault (s : State) (ps : List BusPair) : (s.driveExbus ps).fault = s.fault := rfl
@[simp] theorem State.driveExbus_dmem (s : State) (ps : List BusPair) : (s.driveExbus ps).dmem = s.dmem := rfl
@[simp] theorem State.driveExbus_code (s : State) (ps : List BusPair) : (s.driveExbus ps).code = s.code := rfl
@[simp] theorem State.driveExbus_params (s : State) (ps : List BusPair) : (s.driveExbus ps).params = s.params := rfl
@[simp] theorem State.driveExbus_stage (s : State) (ps : List BusPair) : (s.driveExbus ps).stage = s.stage := rfl

/-! ### `State.driveMembus` -/

@[simp] theorem State.driveMembus_x (s : State) (ps : List BusPair) : (s.driveMembus ps).x = s.x := rfl
@[simp] theorem State.driveMembus_busy (s : State) (ps : List BusPair) : (s.driveMembus ps).busy = s.busy := rfl
@[simp] theorem State.driveMembus_pc (s : State) (ps : List BusPair) : (s.driveMembus ps).pc = s.pc := rfl
@[simp] theorem State.driveMembus_cc (s : State) (ps : List BusPair) : (s.driveMembus ps).cc = s.cc := rfl
@[simp] theorem State.driveMembus_fl (s : State) (ps : List BusPair) : (s.driveMembus ps).fl = s.fl := rfl
@[simp] theorem State.driveMembus_dl (s : State) (ps : List BusPair) : (s.driveMembus ps).dl = s.dl := rfl
@[simp] theorem State.driveMembus_xl (s : State) (ps : List BusPair) : (s.driveMembus ps).xl = s.xl := rfl
@[simp] theorem State.driveMembus_ml (s : State) (ps : List BusPair) : (s.driveMembus ps).ml = s.ml := rfl
@[simp] theorem State.driveMembus_wl (s : State) (ps : List BusPair) : (s.driveMembus ps).wl = s.wl := rfl
@[simp] theorem State.driveMembus_exbus (s : State) (ps : List BusPair) : (s.driveMembus ps).exbus = s.exbus := rfl
@[simp] theorem State.driveMembus_membus (s : State) (ps : List BusPair) : (s.driveMembus ps).membus = s.membus ++ ps := rfl
@[simp] theorem State.driveMembus_btb (s : State) (ps : List BusPair) : (s.driveMembus ps).btb = s.btb := rfl
@[simp] theorem State.driveMembus_redirectPending (s : State) (ps : List BusPair) : (s.driveMembus ps).redirectPending = s.redirectPending := rfl
@[simp] theorem State.driveMembus_retired (s : State) (ps : List BusPair) : (s.driveMembus ps).retired = s.retired := rfl
@[simp] theorem State.driveMembus_cycles (s : State) (ps : List BusPair) : (s.driveMembus ps).cycles = s.cycles := rfl
@[simp] theorem State.driveMembus_halted (s : State) (ps : List BusPair) : (s.driveMembus ps).halted = s.halted := rfl
@[simp] theorem State.driveMembus_fault (s : State) (ps : List BusPair) : (s.driveMembus ps).fault = s.fault := rfl
@[simp] theorem State.driveMembus_dmem (s : State) (ps : List BusPair) : (s.driveMembus ps).dmem = s.dmem := rfl
@[simp] theorem State.driveMembus_code (s : State) (ps : List BusPair) : (s.driveMembus ps).code = s.code := rfl
@[simp] theorem State.driveMembus_params (s : State) (ps : List BusPair) : (s.driveMembus ps).params = s.params := rfl
@[simp] theorem State.driveMembus_stage (s : State) (ps : List BusPair) : (s.driveMembus ps).stage = s.stage := rfl

/-! ### `State.clearBuses` -/

@[simp] theorem State.clearBuses_x (s : State) : (s.clearBuses).x = s.x := rfl
@[simp] theorem State.clearBuses_busy (s : State) : (s.clearBuses).busy = s.busy := rfl
@[simp] theorem State.clearBuses_pc (s : State) : (s.clearBuses).pc = s.pc := rfl
@[simp] theorem State.clearBuses_cc (s : State) : (s.clearBuses).cc = s.cc := rfl
@[simp] theorem State.clearBuses_fl (s : State) : (s.clearBuses).fl = s.fl := rfl
@[simp] theorem State.clearBuses_dl (s : State) : (s.clearBuses).dl = s.dl := rfl
@[simp] theorem State.clearBuses_xl (s : State) : (s.clearBuses).xl = s.xl := rfl
@[simp] theorem State.clearBuses_ml (s : State) : (s.clearBuses).ml = s.ml := rfl
@[simp] theorem State.clearBuses_wl (s : State) : (s.clearBuses).wl = s.wl := rfl
@[simp] theorem State.clearBuses_exbus (s : State) : (s.clearBuses).exbus = [] := rfl
@[simp] theorem State.clearBuses_membus (s : State) : (s.clearBuses).membus = [] := rfl
@[simp] theorem State.clearBuses_btb (s : State) : (s.clearBuses).btb = s.btb := rfl
@[simp] theorem State.clearBuses_redirectPending (s : State) : (s.clearBuses).redirectPending = s.redirectPending := rfl
@[simp] theorem State.clearBuses_retired (s : State) : (s.clearBuses).retired = s.retired := rfl
@[simp] theorem State.clearBuses_cycles (s : State) : (s.clearBuses).cycles = s.cycles := rfl
@[simp] theorem State.clearBuses_halted (s : State) : (s.clearBuses).halted = s.halted := rfl
@[simp] theorem State.clearBuses_fault (s : State) : (s.clearBuses).fault = s.fault := rfl
@[simp] theorem State.clearBuses_dmem (s : State) : (s.clearBuses).dmem = s.dmem := rfl
@[simp] theorem State.clearBuses_code (s : State) : (s.clearBuses).code = s.code := rfl
@[simp] theorem State.clearBuses_params (s : State) : (s.clearBuses).params = s.params := rfl
@[simp] theorem State.clearBuses_stage (s : State) : (s.clearBuses).stage = s.stage := rfl

/-! ### `State.setResult` -/

@[simp] theorem State.setResult_x (s : State) (r : Word) : (s.setResult r).x = s.x := rfl
@[simp] theorem State.setResult_busy (s : State) (r : Word) : (s.setResult r).busy = s.busy := rfl
@[simp] theorem State.setResult_pc (s : State) (r : Word) : (s.setResult r).pc = s.pc := rfl
@[simp] theorem State.setResult_cc (s : State) (r : Word) : (s.setResult r).cc = s.cc := rfl
@[simp] theorem State.setResult_fl (s : State) (r : Word) : (s.setResult r).fl = s.fl := rfl
@[simp] theorem State.setResult_dl (s : State) (r : Word) : (s.setResult r).dl = s.dl := rfl
@[simp] theorem State.setResult_xl (s : State) (r : Word) : (s.setResult r).xl = { s.xl with result := r } := rfl
@[simp] theorem State.setResult_ml (s : State) (r : Word) : (s.setResult r).ml = s.ml := rfl
@[simp] theorem State.setResult_wl (s : State) (r : Word) : (s.setResult r).wl = s.wl := rfl
@[simp] theorem State.setResult_exbus (s : State) (r : Word) : (s.setResult r).exbus = s.exbus := rfl
@[simp] theorem State.setResult_membus (s : State) (r : Word) : (s.setResult r).membus = s.membus := rfl
@[simp] theorem State.setResult_btb (s : State) (r : Word) : (s.setResult r).btb = s.btb := rfl
@[simp] theorem State.setResult_redirectPending (s : State) (r : Word) : (s.setResult r).redirectPending = s.redirectPending := rfl
@[simp] theorem State.setResult_retired (s : State) (r : Word) : (s.setResult r).retired = s.retired := rfl
@[simp] theorem State.setResult_cycles (s : State) (r : Word) : (s.setResult r).cycles = s.cycles := rfl
@[simp] theorem State.setResult_halted (s : State) (r : Word) : (s.setResult r).halted = s.halted := rfl
@[simp] theorem State.setResult_fault (s : State) (r : Word) : (s.setResult r).fault = s.fault := rfl
@[simp] theorem State.setResult_dmem (s : State) (r : Word) : (s.setResult r).dmem = s.dmem := rfl
@[simp] theorem State.setResult_code (s : State) (r : Word) : (s.setResult r).code = s.code := rfl
@[simp] theorem State.setResult_params (s : State) (r : Word) : (s.setResult r).params = s.params := rfl
@[simp] theorem State.setResult_stage (s : State) (r : Word) : (s.setResult r).stage = s.stage := rfl

/-! ### `State.setMemAddr` -/

@[simp] theorem State.setMemAddr_x (s : State) (a : Word) : (s.setMemAddr a).x = s.x := rfl
@[simp] theorem State.setMemAddr_busy (s : State) (a : Word) : (s.setMemAddr a).busy = s.busy := rfl
@[simp] theorem State.setMemAddr_pc (s : State) (a : Word) : (s.setMemAddr a).pc = s.pc := rfl
@[simp] theorem State.setMemAddr_cc (s : State) (a : Word) : (s.setMemAddr a).cc = s.cc := rfl
@[simp] theorem State.setMemAddr_fl (s : State) (a : Word) : (s.setMemAddr a).fl = s.fl := rfl
@[simp] theorem State.setMemAddr_dl (s : State) (a : Word) : (s.setMemAddr a).dl = s.dl := rfl
@[simp] theorem State.setMemAddr_xl (s : State) (a : Word) : (s.setMemAddr a).xl = { s.xl with memAddr := a } := rfl
@[simp] theorem State.setMemAddr_ml (s : State) (a : Word) : (s.setMemAddr a).ml = s.ml := rfl
@[simp] theorem State.setMemAddr_wl (s : State) (a : Word) : (s.setMemAddr a).wl = s.wl := rfl
@[simp] theorem State.setMemAddr_exbus (s : State) (a : Word) : (s.setMemAddr a).exbus = s.exbus := rfl
@[simp] theorem State.setMemAddr_membus (s : State) (a : Word) : (s.setMemAddr a).membus = s.membus := rfl
@[simp] theorem State.setMemAddr_btb (s : State) (a : Word) : (s.setMemAddr a).btb = s.btb := rfl
@[simp] theorem State.setMemAddr_redirectPending (s : State) (a : Word) : (s.setMemAddr a).redirectPending = s.redirectPending := rfl
@[simp] theorem State.setMemAddr_retired (s : State) (a : Word) : (s.setMemAddr a).retired = s.retired := rfl
@[simp] theorem State.setMemAddr_cycles (s : State) (a : Word) : (s.setMemAddr a).cycles = s.cycles := rfl
@[simp] theorem State.setMemAddr_halted (s : State) (a : Word) : (s.setMemAddr a).halted = s.halted := rfl
@[simp] theorem State.setMemAddr_fault (s : State) (a : Word) : (s.setMemAddr a).fault = s.fault := rfl
@[simp] theorem State.setMemAddr_dmem (s : State) (a : Word) : (s.setMemAddr a).dmem = s.dmem := rfl
@[simp] theorem State.setMemAddr_code (s : State) (a : Word) : (s.setMemAddr a).code = s.code := rfl
@[simp] theorem State.setMemAddr_params (s : State) (a : Word) : (s.setMemAddr a).params = s.params := rfl
@[simp] theorem State.setMemAddr_stage (s : State) (a : Word) : (s.setMemAddr a).stage = s.stage := rfl

/-! ### `State.setLoaded` -/

@[simp] theorem State.setLoaded_x (s : State) (v : Word) : (s.setLoaded v).x = s.x := rfl
@[simp] theorem State.setLoaded_busy (s : State) (v : Word) : (s.setLoaded v).busy = s.busy := rfl
@[simp] theorem State.setLoaded_pc (s : State) (v : Word) : (s.setLoaded v).pc = s.pc := rfl
@[simp] theorem State.setLoaded_cc (s : State) (v : Word) : (s.setLoaded v).cc = s.cc := rfl
@[simp] theorem State.setLoaded_fl (s : State) (v : Word) : (s.setLoaded v).fl = s.fl := rfl
@[simp] theorem State.setLoaded_dl (s : State) (v : Word) : (s.setLoaded v).dl = s.dl := rfl
@[simp] theorem State.setLoaded_xl (s : State) (v : Word) : (s.setLoaded v).xl = s.xl := rfl
@[simp] theorem State.setLoaded_ml (s : State) (v : Word) : (s.setLoaded v).ml = { s.ml with result := v } := rfl
@[simp] theorem State.setLoaded_wl (s : State) (v : Word) : (s.setLoaded v).wl = s.wl := rfl
@[simp] theorem State.setLoaded_exbus (s : State) (v : Word) : (s.setLoaded v).exbus = s.exbus := rfl
@[simp] theorem State.setLoaded_membus (s : State) (v : Word) : (s.setLoaded v).membus = s.membus := rfl
@[simp] theorem State.setLoaded_btb (s : State) (v : Word) : (s.setLoaded v).btb = s.btb := rfl
@[simp] theorem State.setLoaded_redirectPending (s : State) (v : Word) : (s.setLoaded v).redirectPending = s.redirectPending := rfl
@[simp] theorem State.setLoaded_retired (s : State) (v : Word) : (s.setLoaded v).retired = s.retired := rfl
@[simp] theorem State.setLoaded_cycles (s : State) (v : Word) : (s.setLoaded v).cycles = s.cycles := rfl
@[simp] theorem State.setLoaded_halted (s : State) (v : Word) : (s.setLoaded v).halted = s.halted := rfl
@[simp] theorem State.setLoaded_fault (s : State) (v : Word) : (s.setLoaded v).fault = s.fault := rfl
@[simp] theorem State.setLoaded_dmem (s : State) (v : Word) : (s.setLoaded v).dmem = s.dmem := rfl
@[simp] theorem State.setLoaded_code (s : State) (v : Word) : (s.setLoaded v).code = s.code := rfl
@[simp] theorem State.setLoaded_params (s : State) (v : Word) : (s.setLoaded v).params = s.params := rfl
@[simp] theorem State.setLoaded_stage (s : State) (v : Word) : (s.setLoaded v).stage = s.stage := rfl

/-! ### `State.at` -/

@[simp] theorem State.at_x (s : State) (g : Stage) : (s.at g).x = s.x := rfl
@[simp] theorem State.at_busy (s : State) (g : Stage) : (s.at g).busy = s.busy := rfl
@[simp] theorem State.at_pc (s : State) (g : Stage) : (s.at g).pc = s.pc := rfl
@[simp] theorem State.at_cc (s : State) (g : Stage) : (s.at g).cc = s.cc := rfl
@[simp] theorem State.at_fl (s : State) (g : Stage) : (s.at g).fl = s.fl := rfl
@[simp] theorem State.at_dl (s : State) (g : Stage) : (s.at g).dl = s.dl := rfl
@[simp] theorem State.at_xl (s : State) (g : Stage) : (s.at g).xl = s.xl := rfl
@[simp] theorem State.at_ml (s : State) (g : Stage) : (s.at g).ml = s.ml := rfl
@[simp] theorem State.at_wl (s : State) (g : Stage) : (s.at g).wl = s.wl := rfl
@[simp] theorem State.at_exbus (s : State) (g : Stage) : (s.at g).exbus = s.exbus := rfl
@[simp] theorem State.at_membus (s : State) (g : Stage) : (s.at g).membus = s.membus := rfl
@[simp] theorem State.at_btb (s : State) (g : Stage) : (s.at g).btb = s.btb := rfl
@[simp] theorem State.at_redirectPending (s : State) (g : Stage) : (s.at g).redirectPending = s.redirectPending := rfl
@[simp] theorem State.at_retired (s : State) (g : Stage) : (s.at g).retired = s.retired := rfl
@[simp] theorem State.at_cycles (s : State) (g : Stage) : (s.at g).cycles = s.cycles := rfl
@[simp] theorem State.at_halted (s : State) (g : Stage) : (s.at g).halted = s.halted := rfl
@[simp] theorem State.at_fault (s : State) (g : Stage) : (s.at g).fault = s.fault := rfl
@[simp] theorem State.at_dmem (s : State) (g : Stage) : (s.at g).dmem = s.dmem := rfl
@[simp] theorem State.at_code (s : State) (g : Stage) : (s.at g).code = s.code := rfl
@[simp] theorem State.at_params (s : State) (g : Stage) : (s.at g).params = s.params := rfl
@[simp] theorem State.at_stage (s : State) (g : Stage) : (s.at g).stage = g := rfl

/-! ### `State.flush` -/

@[simp] theorem State.flush_x (s : State) (t : Word) : (s.flush t).x = s.x := rfl
@[simp] theorem State.flush_busy (s : State) (t : Word) : (s.flush t).busy = s.busy := rfl
@[simp] theorem State.flush_pc (s : State) (t : Word) : (s.flush t).pc = t := rfl
@[simp] theorem State.flush_cc (s : State) (t : Word) : (s.flush t).cc = s.cc := rfl
@[simp] theorem State.flush_fl (s : State) (t : Word) : (s.flush t).fl = { s.fl with valid := true, stalled := false } := rfl
@[simp] theorem State.flush_dl (s : State) (t : Word) : (s.flush t).dl = { s.dl with valid := false, stalled := false } := rfl
@[simp] theorem State.flush_xl (s : State) (t : Word) : (s.flush t).xl = s.xl := rfl
@[simp] theorem State.flush_ml (s : State) (t : Word) : (s.flush t).ml = s.ml := rfl
@[simp] theorem State.flush_wl (s : State) (t : Word) : (s.flush t).wl = s.wl := rfl
@[simp] theorem State.flush_exbus (s : State) (t : Word) : (s.flush t).exbus = s.exbus := rfl
@[simp] theorem State.flush_membus (s : State) (t : Word) : (s.flush t).membus = s.membus := rfl
@[simp] theorem State.flush_btb (s : State) (t : Word) : (s.flush t).btb = s.btb := rfl
@[simp] theorem State.flush_redirectPending (s : State) (t : Word) : (s.flush t).redirectPending = true := rfl
@[simp] theorem State.flush_retired (s : State) (t : Word) : (s.flush t).retired = s.retired := rfl
@[simp] theorem State.flush_cycles (s : State) (t : Word) : (s.flush t).cycles = s.cycles := rfl
@[simp] theorem State.flush_halted (s : State) (t : Word) : (s.flush t).halted = s.halted := rfl
@[simp] theorem State.flush_fault (s : State) (t : Word) : (s.flush t).fault = s.fault := rfl
@[simp] theorem State.flush_dmem (s : State) (t : Word) : (s.flush t).dmem = s.dmem := rfl
@[simp] theorem State.flush_code (s : State) (t : Word) : (s.flush t).code = s.code := rfl
@[simp] theorem State.flush_params (s : State) (t : Word) : (s.flush t).params = s.params := rfl
@[simp] theorem State.flush_stage (s : State) (t : Word) : (s.flush t).stage = s.stage := rfl

/-! ### `State.takeFatal` -/

@[simp] theorem State.takeFatal_x (s : State) (k : Fault) : (s.takeFatal k).x = s.x := rfl
@[simp] theorem State.takeFatal_busy (s : State) (k : Fault) : (s.takeFatal k).busy = s.busy := rfl
@[simp] theorem State.takeFatal_pc (s : State) (k : Fault) : (s.takeFatal k).pc = s.pc := rfl
@[simp] theorem State.takeFatal_cc (s : State) (k : Fault) : (s.takeFatal k).cc = s.cc := rfl
@[simp] theorem State.takeFatal_fl (s : State) (k : Fault) : (s.takeFatal k).fl = s.fl := rfl
@[simp] theorem State.takeFatal_dl (s : State) (k : Fault) : (s.takeFatal k).dl = s.dl := rfl
@[simp] theorem State.takeFatal_xl (s : State) (k : Fault) : (s.takeFatal k).xl = s.xl := rfl
@[simp] theorem State.takeFatal_ml (s : State) (k : Fault) : (s.takeFatal k).ml = s.ml := rfl
@[simp] theorem State.takeFatal_wl (s : State) (k : Fault) : (s.takeFatal k).wl = s.wl := rfl
@[simp] theorem State.takeFatal_exbus (s : State) (k : Fault) : (s.takeFatal k).exbus = s.exbus := rfl
@[simp] theorem State.takeFatal_membus (s : State) (k : Fault) : (s.takeFatal k).membus = s.membus := rfl
@[simp] theorem State.takeFatal_btb (s : State) (k : Fault) : (s.takeFatal k).btb = s.btb := rfl
@[simp] theorem State.takeFatal_redirectPending (s : State) (k : Fault) : (s.takeFatal k).redirectPending = s.redirectPending := rfl
@[simp] theorem State.takeFatal_retired (s : State) (k : Fault) : (s.takeFatal k).retired = s.retired := rfl
@[simp] theorem State.takeFatal_cycles (s : State) (k : Fault) : (s.takeFatal k).cycles = s.cycles := rfl
@[simp] theorem State.takeFatal_halted (s : State) (k : Fault) : (s.takeFatal k).halted = s.halted := rfl
@[simp] theorem State.takeFatal_fault (s : State) (k : Fault) : (s.takeFatal k).fault = some k := rfl
@[simp] theorem State.takeFatal_dmem (s : State) (k : Fault) : (s.takeFatal k).dmem = s.dmem := rfl
@[simp] theorem State.takeFatal_code (s : State) (k : Fault) : (s.takeFatal k).code = s.code := rfl
@[simp] theorem State.takeFatal_params (s : State) (k : Fault) : (s.takeFatal k).params = s.params := rfl
@[simp] theorem State.takeFatal_stage (s : State) (k : Fault) : (s.takeFatal k).stage = s.stage := rfl

/-! ### `State.setFlags` -/

@[simp] theorem State.setFlags_x (s : State) (c : CondCodes) : (s.setFlags c).x = s.x := rfl
@[simp] theorem State.setFlags_busy (s : State) (c : CondCodes) : (s.setFlags c).busy = s.busy := rfl
@[simp] theorem State.setFlags_pc (s : State) (c : CondCodes) : (s.setFlags c).pc = s.pc := rfl
@[simp] theorem State.setFlags_cc (s : State) (c : CondCodes) : (s.setFlags c).cc = c := rfl
@[simp] theorem State.setFlags_fl (s : State) (c : CondCodes) : (s.setFlags c).fl = s.fl := rfl
@[simp] theorem State.setFlags_dl (s : State) (c : CondCodes) : (s.setFlags c).dl = s.dl := rfl
@[simp] theorem State.setFlags_xl (s : State) (c : CondCodes) : (s.setFlags c).xl = s.xl := rfl
@[simp] theorem State.setFlags_ml (s : State) (c : CondCodes) : (s.setFlags c).ml = s.ml := rfl
@[simp] theorem State.setFlags_wl (s : State) (c : CondCodes) : (s.setFlags c).wl = s.wl := rfl
@[simp] theorem State.setFlags_exbus (s : State) (c : CondCodes) : (s.setFlags c).exbus = s.exbus := rfl
@[simp] theorem State.setFlags_membus (s : State) (c : CondCodes) : (s.setFlags c).membus = s.membus := rfl
@[simp] theorem State.setFlags_btb (s : State) (c : CondCodes) : (s.setFlags c).btb = s.btb := rfl
@[simp] theorem State.setFlags_redirectPending (s : State) (c : CondCodes) : (s.setFlags c).redirectPending = s.redirectPending := rfl
@[simp] theorem State.setFlags_retired (s : State) (c : CondCodes) : (s.setFlags c).retired = s.retired := rfl
@[simp] theorem State.setFlags_cycles (s : State) (c : CondCodes) : (s.setFlags c).cycles = s.cycles := rfl
@[simp] theorem State.setFlags_halted (s : State) (c : CondCodes) : (s.setFlags c).halted = s.halted := rfl
@[simp] theorem State.setFlags_fault (s : State) (c : CondCodes) : (s.setFlags c).fault = s.fault := rfl
@[simp] theorem State.setFlags_dmem (s : State) (c : CondCodes) : (s.setFlags c).dmem = s.dmem := rfl
@[simp] theorem State.setFlags_code (s : State) (c : CondCodes) : (s.setFlags c).code = s.code := rfl
@[simp] theorem State.setFlags_params (s : State) (c : CondCodes) : (s.setFlags c).params = s.params := rfl
@[simp] theorem State.setFlags_stage (s : State) (c : CondCodes) : (s.setFlags c).stage = s.stage := rfl

/-! ### `State.insertBranch` -/

@[simp] theorem State.insertBranch_x (s : State) (f : Family) : (s.insertBranch f).x = s.x := rfl
@[simp] theorem State.insertBranch_busy (s : State) (f : Family) : (s.insertBranch f).busy = s.busy := rfl
@[simp] theorem State.insertBranch_pc (s : State) (f : Family) : (s.insertBranch f).pc = s.pc := rfl
@[simp] theorem State.insertBranch_cc (s : State) (f : Family) : (s.insertBranch f).cc = s.cc := rfl
@[simp] theorem State.insertBranch_fl (s : State) (f : Family) : (s.insertBranch f).fl = s.fl := rfl
@[simp] theorem State.insertBranch_dl (s : State) (f : Family) : (s.insertBranch f).dl = { s.dl with family := some f } := rfl
@[simp] theorem State.insertBranch_xl (s : State) (f : Family) : (s.insertBranch f).xl = s.xl := rfl
@[simp] theorem State.insertBranch_ml (s : State) (f : Family) : (s.insertBranch f).ml = s.ml := rfl
@[simp] theorem State.insertBranch_wl (s : State) (f : Family) : (s.insertBranch f).wl = s.wl := rfl
@[simp] theorem State.insertBranch_exbus (s : State) (f : Family) : (s.insertBranch f).exbus = s.exbus := rfl
@[simp] theorem State.insertBranch_membus (s : State) (f : Family) : (s.insertBranch f).membus = s.membus := rfl
@[simp] theorem State.insertBranch_btb (s : State) (f : Family) : (s.insertBranch f).btb = btbInsert s.btb s.dl.btbHit s.dl.pc f := rfl
@[simp] theorem State.insertBranch_redirectPending (s : State) (f : Family) : (s.insertBranch f).redirectPending = s.redirectPending := rfl
@[simp] theorem State.insertBranch_retired (s : State) (f : Family) : (s.insertBranch f).retired = s.retired := rfl
@[simp] theorem State.insertBranch_cycles (s : State) (f : Family) : (s.insertBranch f).cycles = s.cycles := rfl
@[simp] theorem State.insertBranch_halted (s : State) (f : Family) : (s.insertBranch f).halted = s.halted := rfl
@[simp] theorem State.insertBranch_fault (s : State) (f : Family) : (s.insertBranch f).fault = s.fault := rfl
@[simp] theorem State.insertBranch_dmem (s : State) (f : Family) : (s.insertBranch f).dmem = s.dmem := rfl
@[simp] theorem State.insertBranch_code (s : State) (f : Family) : (s.insertBranch f).code = s.code := rfl
@[simp] theorem State.insertBranch_params (s : State) (f : Family) : (s.insertBranch f).params = s.params := rfl
@[simp] theorem State.insertBranch_stage (s : State) (f : Family) : (s.insertBranch f).stage = s.stage := rfl

/-! ### `State.resolveBranch` -/

@[simp] theorem State.resolveBranch_x (s : State) (b : Bool) (t : Word) : (s.resolveBranch b t).x = s.x := rfl
@[simp] theorem State.resolveBranch_busy (s : State) (b : Bool) (t : Word) : (s.resolveBranch b t).busy = s.busy := rfl
@[simp] theorem State.resolveBranch_pc (s : State) (b : Bool) (t : Word) : (s.resolveBranch b t).pc = s.pc := rfl
@[simp] theorem State.resolveBranch_cc (s : State) (b : Bool) (t : Word) : (s.resolveBranch b t).cc = s.cc := rfl
@[simp] theorem State.resolveBranch_fl (s : State) (b : Bool) (t : Word) : (s.resolveBranch b t).fl = s.fl := rfl
@[simp] theorem State.resolveBranch_dl (s : State) (b : Bool) (t : Word) : (s.resolveBranch b t).dl = s.dl := rfl
@[simp] theorem State.resolveBranch_xl (s : State) (b : Bool) (t : Word) : (s.resolveBranch b t).xl = s.xl := rfl
@[simp] theorem State.resolveBranch_ml (s : State) (b : Bool) (t : Word) : (s.resolveBranch b t).ml = s.ml := rfl
@[simp] theorem State.resolveBranch_wl (s : State) (b : Bool) (t : Word) : (s.resolveBranch b t).wl = s.wl := rfl
@[simp] theorem State.resolveBranch_exbus (s : State) (b : Bool) (t : Word) : (s.resolveBranch b t).exbus = s.exbus := rfl
@[simp] theorem State.resolveBranch_membus (s : State) (b : Bool) (t : Word) : (s.resolveBranch b t).membus = s.membus := rfl
@[simp] theorem State.resolveBranch_btb (s : State) (b : Bool) (t : Word) : (s.resolveBranch b t).btb = btbUpdate s.btb s.xl.pc b t := rfl
@[simp] theorem State.resolveBranch_redirectPending (s : State) (b : Bool) (t : Word) : (s.resolveBranch b t).redirectPending = s.redirectPending := rfl
@[simp] theorem State.resolveBranch_retired (s : State) (b : Bool) (t : Word) : (s.resolveBranch b t).retired = s.retired := rfl
@[simp] theorem State.resolveBranch_cycles (s : State) (b : Bool) (t : Word) : (s.resolveBranch b t).cycles = s.cycles := rfl
@[simp] theorem State.resolveBranch_halted (s : State) (b : Bool) (t : Word) : (s.resolveBranch b t).halted = s.halted := rfl
@[simp] theorem State.resolveBranch_fault (s : State) (b : Bool) (t : Word) : (s.resolveBranch b t).fault = s.fault := rfl
@[simp] theorem State.resolveBranch_dmem (s : State) (b : Bool) (t : Word) : (s.resolveBranch b t).dmem = s.dmem := rfl
@[simp] theorem State.resolveBranch_code (s : State) (b : Bool) (t : Word) : (s.resolveBranch b t).code = s.code := rfl
@[simp] theorem State.resolveBranch_params (s : State) (b : Bool) (t : Word) : (s.resolveBranch b t).params = s.params := rfl
@[simp] theorem State.resolveBranch_stage (s : State) (b : Bool) (t : Word) : (s.resolveBranch b t).stage = s.stage := rfl

/-! ### `State.stall` -/

@[simp] theorem State.stall_x (s : State) : (s.stall).x = s.x := rfl
@[simp] theorem State.stall_busy (s : State) : (s.stall).busy = s.busy := rfl
@[simp] theorem State.stall_pc (s : State) : (s.stall).pc = s.pc := rfl
@[simp] theorem State.stall_cc (s : State) : (s.stall).cc = s.cc := rfl
@[simp] theorem State.stall_fl (s : State) : (s.stall).fl = { s.fl with stalled := true } := rfl
@[simp] theorem State.stall_dl (s : State) : (s.stall).dl = { s.dl with stalled := true } := rfl
@[simp] theorem State.stall_xl (s : State) : (s.stall).xl = s.xl := rfl
@[simp] theorem State.stall_ml (s : State) : (s.stall).ml = s.ml := rfl
@[simp] theorem State.stall_wl (s : State) : (s.stall).wl = s.wl := rfl
@[simp] theorem State.stall_exbus (s : State) : (s.stall).exbus = s.exbus := rfl
@[simp] theorem State.stall_membus (s : State) : (s.stall).membus = s.membus := rfl
@[simp] theorem State.stall_btb (s : State) : (s.stall).btb = s.btb := rfl
@[simp] theorem State.stall_redirectPending (s : State) : (s.stall).redirectPending = s.redirectPending := rfl
@[simp] theorem State.stall_retired (s : State) : (s.stall).retired = s.retired := rfl
@[simp] theorem State.stall_cycles (s : State) : (s.stall).cycles = s.cycles := rfl
@[simp] theorem State.stall_halted (s : State) : (s.stall).halted = s.halted := rfl
@[simp] theorem State.stall_fault (s : State) : (s.stall).fault = s.fault := rfl
@[simp] theorem State.stall_dmem (s : State) : (s.stall).dmem = s.dmem := rfl
@[simp] theorem State.stall_code (s : State) : (s.stall).code = s.code := rfl
@[simp] theorem State.stall_params (s : State) : (s.stall).params = s.params := rfl
@[simp] theorem State.stall_stage (s : State) : (s.stall).stage = s.stage := rfl

/-! ### `State.unstall` -/

@[simp] theorem State.unstall_x (s : State) : (s.unstall).x = s.x := rfl
@[simp] theorem State.unstall_busy (s : State) : (s.unstall).busy = s.busy := rfl
@[simp] theorem State.unstall_pc (s : State) : (s.unstall).pc = s.pc := rfl
@[simp] theorem State.unstall_cc (s : State) : (s.unstall).cc = s.cc := rfl
@[simp] theorem State.unstall_fl (s : State) : (s.unstall).fl = { s.fl with stalled := false } := rfl
@[simp] theorem State.unstall_dl (s : State) : (s.unstall).dl = { s.dl with stalled := false } := rfl
@[simp] theorem State.unstall_xl (s : State) : (s.unstall).xl = s.xl := rfl
@[simp] theorem State.unstall_ml (s : State) : (s.unstall).ml = s.ml := rfl
@[simp] theorem State.unstall_wl (s : State) : (s.unstall).wl = s.wl := rfl
@[simp] theorem State.unstall_exbus (s : State) : (s.unstall).exbus = s.exbus := rfl
@[simp] theorem State.unstall_membus (s : State) : (s.unstall).membus = s.membus := rfl
@[simp] theorem State.unstall_btb (s : State) : (s.unstall).btb = s.btb := rfl
@[simp] theorem State.unstall_redirectPending (s : State) : (s.unstall).redirectPending = s.redirectPending := rfl
@[simp] theorem State.unstall_retired (s : State) : (s.unstall).retired = s.retired := rfl
@[simp] theorem State.unstall_cycles (s : State) : (s.unstall).cycles = s.cycles := rfl
@[simp] theorem State.unstall_halted (s : State) : (s.unstall).halted = s.halted := rfl
@[simp] theorem State.unstall_fault (s : State) : (s.unstall).fault = s.fault := rfl
@[simp] theorem State.unstall_dmem (s : State) : (s.unstall).dmem = s.dmem := rfl
@[simp] theorem State.unstall_code (s : State) : (s.unstall).code = s.code := rfl
@[simp] theorem State.unstall_params (s : State) : (s.unstall).params = s.params := rfl
@[simp] theorem State.unstall_stage (s : State) : (s.unstall).stage = s.stage := rfl

/-! ### `State.setOperands` -/

@[simp] theorem State.setOperands_x (s : State) (a b : Word) : (s.setOperands a b).x = s.x := rfl
@[simp] theorem State.setOperands_busy (s : State) (a b : Word) : (s.setOperands a b).busy = s.busy := rfl
@[simp] theorem State.setOperands_pc (s : State) (a b : Word) : (s.setOperands a b).pc = s.pc := rfl
@[simp] theorem State.setOperands_cc (s : State) (a b : Word) : (s.setOperands a b).cc = s.cc := rfl
@[simp] theorem State.setOperands_fl (s : State) (a b : Word) : (s.setOperands a b).fl = s.fl := rfl
@[simp] theorem State.setOperands_dl (s : State) (a b : Word) : (s.setOperands a b).dl = { s.dl with rs1Value := a, rs2Value := b } := rfl
@[simp] theorem State.setOperands_xl (s : State) (a b : Word) : (s.setOperands a b).xl = s.xl := rfl
@[simp] theorem State.setOperands_ml (s : State) (a b : Word) : (s.setOperands a b).ml = s.ml := rfl
@[simp] theorem State.setOperands_wl (s : State) (a b : Word) : (s.setOperands a b).wl = s.wl := rfl
@[simp] theorem State.setOperands_exbus (s : State) (a b : Word) : (s.setOperands a b).exbus = s.exbus := rfl
@[simp] theorem State.setOperands_membus (s : State) (a b : Word) : (s.setOperands a b).membus = s.membus := rfl
@[simp] theorem State.setOperands_btb (s : State) (a b : Word) : (s.setOperands a b).btb = s.btb := rfl
@[simp] theorem State.setOperands_redirectPending (s : State) (a b : Word) : (s.setOperands a b).redirectPending = s.redirectPending := rfl
@[simp] theorem State.setOperands_retired (s : State) (a b : Word) : (s.setOperands a b).retired = s.retired := rfl
@[simp] theorem State.setOperands_cycles (s : State) (a b : Word) : (s.setOperands a b).cycles = s.cycles := rfl
@[simp] theorem State.setOperands_halted (s : State) (a b : Word) : (s.setOperands a b).halted = s.halted := rfl
@[simp] theorem State.setOperands_fault (s : State) (a b : Word) : (s.setOperands a b).fault = s.fault := rfl
@[simp] theorem State.setOperands_dmem (s : State) (a b : Word) : (s.setOperands a b).dmem = s.dmem := rfl
@[simp] theorem State.setOperands_code (s : State) (a b : Word) : (s.setOperands a b).code = s.code := rfl
@[simp] theorem State.setOperands_params (s : State) (a b : Word) : (s.setOperands a b).params = s.params := rfl
@[simp] theorem State.setOperands_stage (s : State) (a b : Word) : (s.setOperands a b).stage = s.stage := rfl

/-! ### `State.closeCycle` -/

@[simp] theorem State.closeCycle_x (s : State) : (s.closeCycle).x = s.x := rfl
@[simp] theorem State.closeCycle_busy (s : State) : (s.closeCycle).busy = s.busy := rfl
@[simp] theorem State.closeCycle_pc (s : State) : (s.closeCycle).pc = s.pc := rfl
@[simp] theorem State.closeCycle_cc (s : State) : (s.closeCycle).cc = s.cc := rfl
@[simp] theorem State.closeCycle_fl (s : State) : (s.closeCycle).fl = s.fl := rfl
@[simp] theorem State.closeCycle_dl (s : State) : (s.closeCycle).dl = s.dl := rfl
@[simp] theorem State.closeCycle_xl (s : State) : (s.closeCycle).xl = s.xl := rfl
@[simp] theorem State.closeCycle_ml (s : State) : (s.closeCycle).ml = s.ml := rfl
@[simp] theorem State.closeCycle_wl (s : State) : (s.closeCycle).wl = s.wl := rfl
@[simp] theorem State.closeCycle_exbus (s : State) : (s.closeCycle).exbus = [] := rfl
@[simp] theorem State.closeCycle_membus (s : State) : (s.closeCycle).membus = [] := rfl
@[simp] theorem State.closeCycle_btb (s : State) : (s.closeCycle).btb = s.btb := rfl
@[simp] theorem State.closeCycle_redirectPending (s : State) : (s.closeCycle).redirectPending = s.redirectPending := rfl
@[simp] theorem State.closeCycle_retired (s : State) : (s.closeCycle).retired = s.retired := rfl
@[simp] theorem State.closeCycle_cycles (s : State) : (s.closeCycle).cycles = s.cycles + 1 := rfl
@[simp] theorem State.closeCycle_halted (s : State) : (s.closeCycle).halted = s.halted := rfl
@[simp] theorem State.closeCycle_fault (s : State) : (s.closeCycle).fault = s.fault := rfl
@[simp] theorem State.closeCycle_dmem (s : State) : (s.closeCycle).dmem = s.dmem := rfl
@[simp] theorem State.closeCycle_code (s : State) : (s.closeCycle).code = s.code := rfl
@[simp] theorem State.closeCycle_params (s : State) : (s.closeCycle).params = s.params := rfl
@[simp] theorem State.closeCycle_stage (s : State) : (s.closeCycle).stage = .writeback := rfl

/-! ### `State.writeReg` -/

@[simp] theorem State.writeReg_busy (s : State) (r : Int) (v : Word) : (s.writeReg r v).busy = s.busy := by
  unfold State.writeReg; split <;> rfl
@[simp] theorem State.writeReg_pc (s : State) (r : Int) (v : Word) : (s.writeReg r v).pc = s.pc := by
  unfold State.writeReg; split <;> rfl
@[simp] theorem State.writeReg_cc (s : State) (r : Int) (v : Word) : (s.writeReg r v).cc = s.cc := by
  unfold State.writeReg; split <;> rfl
@[simp] theorem State.writeReg_fl (s : State) (r : Int) (v : Word) : (s.writeReg r v).fl = s.fl := by
  unfold State.writeReg; split <;> rfl
@[simp] theorem State.writeReg_dl (s : State) (r : Int) (v : Word) : (s.writeReg r v).dl = s.dl := by
  unfold State.writeReg; split <;> rfl
@[simp] theorem State.writeReg_xl (s : State) (r : Int) (v : Word) : (s.writeReg r v).xl = s.xl := by
  unfold State.writeReg; split <;> rfl
@[simp] theorem State.writeReg_ml (s : State) (r : Int) (v : Word) : (s.writeReg r v).ml = s.ml := by
  unfold State.writeReg; split <;> rfl
@[simp] theorem State.writeReg_wl (s : State) (r : Int) (v : Word) : (s.writeReg r v).wl = s.wl := by
  unfold State.writeReg; split <;> rfl
@[simp] theorem State.writeReg_exbus (s : State) (r : Int) (v : Word) : (s.writeReg r v).exbus = s.exbus := by
  unfold State.writeReg; split <;> rfl
@[simp] theorem State.writeReg_membus (s : State) (r : Int) (v : Word) : (s.writeReg r v).membus = s.membus := by
  unfold State.writeReg; split <;> rfl
@[simp] theorem State.writeReg_btb (s : State) (r : Int) (v : Word) : (s.writeReg r v).btb = s.btb := by
  unfold State.writeReg; split <;> rfl
@[simp] theorem State.writeReg_redirectPending (s : State) (r : Int) (v : Word) : (s.writeReg r v).redirectPending = s.redirectPending := by
  unfold State.writeReg; split <;> rfl
@[simp] theorem State.writeReg_retired (s : State) (r : Int) (v : Word) : (s.writeReg r v).retired = s.retired := by
  unfold State.writeReg; split <;> rfl
@[simp] theorem State.writeReg_cycles (s : State) (r : Int) (v : Word) : (s.writeReg r v).cycles = s.cycles := by
  unfold State.writeReg; split <;> rfl
@[simp] theorem State.writeReg_halted (s : State) (r : Int) (v : Word) : (s.writeReg r v).halted = s.halted := by
  unfold State.writeReg; split <;> rfl
@[simp] theorem State.writeReg_fault (s : State) (r : Int) (v : Word) : (s.writeReg r v).fault = s.fault := by
  unfold State.writeReg; split <;> rfl
@[simp] theorem State.writeReg_dmem (s : State) (r : Int) (v : Word) : (s.writeReg r v).dmem = s.dmem := by
  unfold State.writeReg; split <;> rfl
@[simp] theorem State.writeReg_code (s : State) (r : Int) (v : Word) : (s.writeReg r v).code = s.code := by
  unfold State.writeReg; split <;> rfl
@[simp] theorem State.writeReg_params (s : State) (r : Int) (v : Word) : (s.writeReg r v).params = s.params := by
  unfold State.writeReg; split <;> rfl
@[simp] theorem State.writeReg_stage (s : State) (r : Int) (v : Word) : (s.writeReg r v).stage = s.stage := by
  unfold State.writeReg; split <;> rfl

/-! ### `State.setBusy` -/

@[simp] theorem State.setBusy_x (s : State) (r : Int) (b : Bool) : (s.setBusy r b).x = s.x := by
  unfold State.setBusy; split <;> rfl
@[simp] theorem State.setBusy_pc (s : State) (r : Int) (b : Bool) : (s.setBusy r b).pc = s.pc := by
  unfold State.setBusy; split <;> rfl
@[simp] theorem State.setBusy_cc (s : State) (r : Int) (b : Bool) : (s.setBusy r b).cc = s.cc := by
  unfold State.setBusy; split <;> rfl
@[simp] theorem State.setBusy_fl (s : State) (r : Int) (b : Bool) : (s.setBusy r b).fl = s.fl := by
  unfold State.setBusy; split <;> rfl
@[simp] theorem State.setBusy_dl (s : State) (r : Int) (b : Bool) : (s.setBusy r b).dl = s.dl := by
  unfold State.setBusy; split <;> rfl
@[simp] theorem State.setBusy_xl (s : State) (r : Int) (b : Bool) : (s.setBusy r b).xl = s.xl := by
  unfold State.setBusy; split <;> rfl
@[simp] theorem State.setBusy_ml (s : State) (r : Int) (b : Bool) : (s.setBusy r b).ml = s.ml := by
  unfold State.setBusy; split <;> rfl
@[simp] theorem State.setBusy_wl (s : State) (r : Int) (b : Bool) : (s.setBusy r b).wl = s.wl := by
  unfold State.setBusy; split <;> rfl
@[simp] theorem State.setBusy_exbus (s : State) (r : Int) (b : Bool) : (s.setBusy r b).exbus = s.exbus := by
  unfold State.setBusy; split <;> rfl
@[simp] theorem State.setBusy_membus (s : State) (r : Int) (b : Bool) : (s.setBusy r b).membus = s.membus := by
  unfold State.setBusy; split <;> rfl
@[simp] theorem State.setBusy_btb (s : State) (r : Int) (b : Bool) : (s.setBusy r b).btb = s.btb := by
  unfold State.setBusy; split <;> rfl
@[simp] theorem State.setBusy_redirectPending (s : State) (r : Int) (b : Bool) : (s.setBusy r b).redirectPending = s.redirectPending := by
  unfold State.setBusy; split <;> rfl
@[simp] theorem State.setBusy_retired (s : State) (r : Int) (b : Bool) : (s.setBusy r b).retired = s.retired := by
  unfold State.setBusy; split <;> rfl
@[simp] theorem State.setBusy_cycles (s : State) (r : Int) (b : Bool) : (s.setBusy r b).cycles = s.cycles := by
  unfold State.setBusy; split <;> rfl
@[simp] theorem State.setBusy_halted (s : State) (r : Int) (b : Bool) : (s.setBusy r b).halted = s.halted := by
  unfold State.setBusy; split <;> rfl
@[simp] theorem State.setBusy_fault (s : State) (r : Int) (b : Bool) : (s.setBusy r b).fault = s.fault := by
  unfold State.setBusy; split <;> rfl
@[simp] theorem State.setBusy_dmem (s : State) (r : Int) (b : Bool) : (s.setBusy r b).dmem = s.dmem := by
  unfold State.setBusy; split <;> rfl
@[simp] theorem State.setBusy_code (s : State) (r : Int) (b : Bool) : (s.setBusy r b).code = s.code := by
  unfold State.setBusy; split <;> rfl
@[simp] theorem State.setBusy_params (s : State) (r : Int) (b : Bool) : (s.setBusy r b).params = s.params := by
  unfold State.setBusy; split <;> rfl
@[simp] theorem State.setBusy_stage (s : State) (r : Int) (b : Bool) : (s.setBusy r b).stage = s.stage := by
  unfold State.setBusy; split <;> rfl

/-! ### `State.flagsWhen` -/

@[simp] theorem State.flagsWhen_x (s : State) (on : Bool) (r : Word) : (s.flagsWhen on r).x = s.x := by
  unfold State.flagsWhen; split <;> rfl
@[simp] theorem State.flagsWhen_busy (s : State) (on : Bool) (r : Word) : (s.flagsWhen on r).busy = s.busy := by
  unfold State.flagsWhen; split <;> rfl
@[simp] theorem State.flagsWhen_pc (s : State) (on : Bool) (r : Word) : (s.flagsWhen on r).pc = s.pc := by
  unfold State.flagsWhen; split <;> rfl
@[simp] theorem State.flagsWhen_fl (s : State) (on : Bool) (r : Word) : (s.flagsWhen on r).fl = s.fl := by
  unfold State.flagsWhen; split <;> rfl
@[simp] theorem State.flagsWhen_dl (s : State) (on : Bool) (r : Word) : (s.flagsWhen on r).dl = s.dl := by
  unfold State.flagsWhen; split <;> rfl
@[simp] theorem State.flagsWhen_xl (s : State) (on : Bool) (r : Word) : (s.flagsWhen on r).xl = s.xl := by
  unfold State.flagsWhen; split <;> rfl
@[simp] theorem State.flagsWhen_ml (s : State) (on : Bool) (r : Word) : (s.flagsWhen on r).ml = s.ml := by
  unfold State.flagsWhen; split <;> rfl
@[simp] theorem State.flagsWhen_wl (s : State) (on : Bool) (r : Word) : (s.flagsWhen on r).wl = s.wl := by
  unfold State.flagsWhen; split <;> rfl
@[simp] theorem State.flagsWhen_exbus (s : State) (on : Bool) (r : Word) : (s.flagsWhen on r).exbus = s.exbus := by
  unfold State.flagsWhen; split <;> rfl
@[simp] theorem State.flagsWhen_membus (s : State) (on : Bool) (r : Word) : (s.flagsWhen on r).membus = s.membus := by
  unfold State.flagsWhen; split <;> rfl
@[simp] theorem State.flagsWhen_btb (s : State) (on : Bool) (r : Word) : (s.flagsWhen on r).btb = s.btb := by
  unfold State.flagsWhen; split <;> rfl
@[simp] theorem State.flagsWhen_redirectPending (s : State) (on : Bool) (r : Word) : (s.flagsWhen on r).redirectPending = s.redirectPending := by
  unfold State.flagsWhen; split <;> rfl
@[simp] theorem State.flagsWhen_retired (s : State) (on : Bool) (r : Word) : (s.flagsWhen on r).retired = s.retired := by
  unfold State.flagsWhen; split <;> rfl
@[simp] theorem State.flagsWhen_cycles (s : State) (on : Bool) (r : Word) : (s.flagsWhen on r).cycles = s.cycles := by
  unfold State.flagsWhen; split <;> rfl
@[simp] theorem State.flagsWhen_halted (s : State) (on : Bool) (r : Word) : (s.flagsWhen on r).halted = s.halted := by
  unfold State.flagsWhen; split <;> rfl
@[simp] theorem State.flagsWhen_fault (s : State) (on : Bool) (r : Word) : (s.flagsWhen on r).fault = s.fault := by
  unfold State.flagsWhen; split <;> rfl
@[simp] theorem State.flagsWhen_dmem (s : State) (on : Bool) (r : Word) : (s.flagsWhen on r).dmem = s.dmem := by
  unfold State.flagsWhen; split <;> rfl
@[simp] theorem State.flagsWhen_code (s : State) (on : Bool) (r : Word) : (s.flagsWhen on r).code = s.code := by
  unfold State.flagsWhen; split <;> rfl
@[simp] theorem State.flagsWhen_params (s : State) (on : Bool) (r : Word) : (s.flagsWhen on r).params = s.params := by
  unfold State.flagsWhen; split <;> rfl
@[simp] theorem State.flagsWhen_stage (s : State) (on : Bool) (r : Word) : (s.flagsWhen on r).stage = s.stage := by
  unfold State.flagsWhen; split <;> rfl

/-! ### `State.commit` -/

@[simp] theorem State.commit_pc (s : State) (r : Int) (v : Word) : (s.commit r v).pc = s.pc := by
  simp [State.commit]
@[simp] theorem State.commit_cc (s : State) (r : Int) (v : Word) : (s.commit r v).cc = s.cc := by
  simp [State.commit]
@[simp] theorem State.commit_fl (s : State) (r : Int) (v : Word) : (s.commit r v).fl = s.fl := by
  simp [State.commit]
@[simp] theorem State.commit_dl (s : State) (r : Int) (v : Word) : (s.commit r v).dl = s.dl := by
  simp [State.commit]
@[simp] theorem State.commit_xl (s : State) (r : Int) (v : Word) : (s.commit r v).xl = s.xl := by
  simp [State.commit]
@[simp] theorem State.commit_ml (s : State) (r : Int) (v : Word) : (s.commit r v).ml = s.ml := by
  simp [State.commit]
@[simp] theorem State.commit_wl (s : State) (r : Int) (v : Word) : (s.commit r v).wl = s.wl := by
  simp [State.commit]
@[simp] theorem State.commit_exbus (s : State) (r : Int) (v : Word) : (s.commit r v).exbus = s.exbus := by
  simp [State.commit]
@[simp] theorem State.commit_membus (s : State) (r : Int) (v : Word) : (s.commit r v).membus = s.membus := by
  simp [State.commit]
@[simp] theorem State.commit_btb (s : State) (r : Int) (v : Word) : (s.commit r v).btb = s.btb := by
  simp [State.commit]
@[simp] theorem State.commit_redirectPending (s : State) (r : Int) (v : Word) : (s.commit r v).redirectPending = s.redirectPending := by
  simp [State.commit]
@[simp] theorem State.commit_retired (s : State) (r : Int) (v : Word) : (s.commit r v).retired = s.retired := by
  simp [State.commit]
@[simp] theorem State.commit_cycles (s : State) (r : Int) (v : Word) : (s.commit r v).cycles = s.cycles := by
  simp [State.commit]
@[simp] theorem State.commit_halted (s : State) (r : Int) (v : Word) : (s.commit r v).halted = s.halted := by
  simp [State.commit]
@[simp] theorem State.commit_fault (s : State) (r : Int) (v : Word) : (s.commit r v).fault = s.fault := by
  simp [State.commit]
@[simp] theorem State.commit_dmem (s : State) (r : Int) (v : Word) : (s.commit r v).dmem = s.dmem := by
  simp [State.commit]
@[simp] theorem State.commit_code (s : State) (r : Int) (v : Word) : (s.commit r v).code = s.code := by
  simp [State.commit]
@[simp] theorem State.commit_params (s : State) (r : Int) (v : Word) : (s.commit r v).params = s.params := by
  simp [State.commit]
@[simp] theorem State.commit_stage (s : State) (r : Int) (v : Word) : (s.commit r v).stage = s.stage := by
  simp [State.commit]

/-! ### The list updates and Fetch's fill -/

@[simp] theorem State.markBusy_x (s : State) (rs : List Int) : (s.markBusy rs).x = s.x := by
  induction rs generalizing s with
  | nil => rfl
  | cons r rs ih => simp [State.markBusy, ih]
@[simp] theorem State.markBusy_pc (s : State) (rs : List Int) : (s.markBusy rs).pc = s.pc := by
  induction rs generalizing s with
  | nil => rfl
  | cons r rs ih => simp [State.markBusy, ih]
@[simp] theorem State.markBusy_cc (s : State) (rs : List Int) : (s.markBusy rs).cc = s.cc := by
  induction rs generalizing s with
  | nil => rfl
  | cons r rs ih => simp [State.markBusy, ih]
@[simp] theorem State.markBusy_fl (s : State) (rs : List Int) : (s.markBusy rs).fl = s.fl := by
  induction rs generalizing s with
  | nil => rfl
  | cons r rs ih => simp [State.markBusy, ih]
@[simp] theorem State.markBusy_dl (s : State) (rs : List Int) : (s.markBusy rs).dl = s.dl := by
  induction rs generalizing s with
  | nil => rfl
  | cons r rs ih => simp [State.markBusy, ih]
@[simp] theorem State.markBusy_xl (s : State) (rs : List Int) : (s.markBusy rs).xl = s.xl := by
  induction rs generalizing s with
  | nil => rfl
  | cons r rs ih => simp [State.markBusy, ih]
@[simp] theorem State.markBusy_ml (s : State) (rs : List Int) : (s.markBusy rs).ml = s.ml := by
  induction rs generalizing s with
  | nil => rfl
  | cons r rs ih => simp [State.markBusy, ih]
@[simp] theorem State.markBusy_wl (s : State) (rs : List Int) : (s.markBusy rs).wl = s.wl := by
  induction rs generalizing s with
  | nil => rfl
  | cons r rs ih => simp [State.markBusy, ih]
@[simp] theorem State.markBusy_exbus (s : State) (rs : List Int) : (s.markBusy rs).exbus = s.exbus := by
  induction rs generalizing s with
  | nil => rfl
  | cons r rs ih => simp [State.markBusy, ih]
@[simp] theorem State.markBusy_membus (s : State) (rs : List Int) : (s.markBusy rs).membus = s.membus := by
  induction rs generalizing s with
  | nil => rfl
  | cons r rs ih => simp [State.markBusy, ih]
@[simp] theorem State.markBusy_btb (s : State) (rs : List Int) : (s.markBusy rs).btb = s.btb := by
  induction rs generalizing s with
  | nil => rfl
  | cons r rs ih => simp [State.markBusy, ih]
@[simp] theorem State.markBusy_redirectPending (s : State) (rs : List Int) : (s.markBusy rs).redirectPending = s.redirectPending := by
  induction rs generalizing s with
  | nil => rfl
  | cons r rs ih => simp [State.markBusy, ih]
@[simp] theorem State.markBusy_retired (s : State) (rs : List Int) : (s.markBusy rs).retired = s.retired := by
  induction rs generalizing s with
  | nil => rfl
  | cons r rs ih => simp [State.markBusy, ih]
@[simp] theorem State.markBusy_cycles (s : State) (rs : List Int) : (s.markBusy rs).cycles = s.cycles := by
  induction rs generalizing s with
  | nil => rfl
  | cons r rs ih => simp [State.markBusy, ih]
@[simp] theorem State.markBusy_halted (s : State) (rs : List Int) : (s.markBusy rs).halted = s.halted := by
  induction rs generalizing s with
  | nil => rfl
  | cons r rs ih => simp [State.markBusy, ih]
@[simp] theorem State.markBusy_fault (s : State) (rs : List Int) : (s.markBusy rs).fault = s.fault := by
  induction rs generalizing s with
  | nil => rfl
  | cons r rs ih => simp [State.markBusy, ih]
@[simp] theorem State.markBusy_dmem (s : State) (rs : List Int) : (s.markBusy rs).dmem = s.dmem := by
  induction rs generalizing s with
  | nil => rfl
  | cons r rs ih => simp [State.markBusy, ih]
@[simp] theorem State.markBusy_code (s : State) (rs : List Int) : (s.markBusy rs).code = s.code := by
  induction rs generalizing s with
  | nil => rfl
  | cons r rs ih => simp [State.markBusy, ih]
@[simp] theorem State.markBusy_params (s : State) (rs : List Int) : (s.markBusy rs).params = s.params := by
  induction rs generalizing s with
  | nil => rfl
  | cons r rs ih => simp [State.markBusy, ih]
@[simp] theorem State.markBusy_stage (s : State) (rs : List Int) : (s.markBusy rs).stage = s.stage := by
  induction rs generalizing s with
  | nil => rfl
  | cons r rs ih => simp [State.markBusy, ih]
@[simp] theorem State.commitAll_pc (s : State) (ws : List BusPair) : (s.commitAll ws).pc = s.pc := by
  induction ws generalizing s with
  | nil => rfl
  | cons p ps ih => simp [State.commitAll, ih]
@[simp] theorem State.commitAll_cc (s : State) (ws : List BusPair) : (s.commitAll ws).cc = s.cc := by
  induction ws generalizing s with
  | nil => rfl
  | cons p ps ih => simp [State.commitAll, ih]
@[simp] theorem State.commitAll_fl (s : State) (ws : List BusPair) : (s.commitAll ws).fl = s.fl := by
  induction ws generalizing s with
  | nil => rfl
  | cons p ps ih => simp [State.commitAll, ih]
@[simp] theorem State.commitAll_dl (s : State) (ws : List BusPair) : (s.commitAll ws).dl = s.dl := by
  induction ws generalizing s with
  | nil => rfl
  | cons p ps ih => simp [State.commitAll, ih]
@[simp] theorem State.commitAll_xl (s : State) (ws : List BusPair) : (s.commitAll ws).xl = s.xl := by
  induction ws generalizing s with
  | nil => rfl
  | cons p ps ih => simp [State.commitAll, ih]
@[simp] theorem State.commitAll_ml (s : State) (ws : List BusPair) : (s.commitAll ws).ml = s.ml := by
  induction ws generalizing s with
  | nil => rfl
  | cons p ps ih => simp [State.commitAll, ih]
@[simp] theorem State.commitAll_wl (s : State) (ws : List BusPair) : (s.commitAll ws).wl = s.wl := by
  induction ws generalizing s with
  | nil => rfl
  | cons p ps ih => simp [State.commitAll, ih]
@[simp] theorem State.commitAll_exbus (s : State) (ws : List BusPair) : (s.commitAll ws).exbus = s.exbus := by
  induction ws generalizing s with
  | nil => rfl
  | cons p ps ih => simp [State.commitAll, ih]
@[simp] theorem State.commitAll_membus (s : State) (ws : List BusPair) : (s.commitAll ws).membus = s.membus := by
  induction ws generalizing s with
  | nil => rfl
  | cons p ps ih => simp [State.commitAll, ih]
@[simp] theorem State.commitAll_btb (s : State) (ws : List BusPair) : (s.commitAll ws).btb = s.btb := by
  induction ws generalizing s with
  | nil => rfl
  | cons p ps ih => simp [State.commitAll, ih]
@[simp] theorem State.commitAll_redirectPending (s : State) (ws : List BusPair) : (s.commitAll ws).redirectPending = s.redirectPending := by
  induction ws generalizing s with
  | nil => rfl
  | cons p ps ih => simp [State.commitAll, ih]
@[simp] theorem State.commitAll_retired (s : State) (ws : List BusPair) : (s.commitAll ws).retired = s.retired := by
  induction ws generalizing s with
  | nil => rfl
  | cons p ps ih => simp [State.commitAll, ih]
@[simp] theorem State.commitAll_cycles (s : State) (ws : List BusPair) : (s.commitAll ws).cycles = s.cycles := by
  induction ws generalizing s with
  | nil => rfl
  | cons p ps ih => simp [State.commitAll, ih]
@[simp] theorem State.commitAll_halted (s : State) (ws : List BusPair) : (s.commitAll ws).halted = s.halted := by
  induction ws generalizing s with
  | nil => rfl
  | cons p ps ih => simp [State.commitAll, ih]
@[simp] theorem State.commitAll_fault (s : State) (ws : List BusPair) : (s.commitAll ws).fault = s.fault := by
  induction ws generalizing s with
  | nil => rfl
  | cons p ps ih => simp [State.commitAll, ih]
@[simp] theorem State.commitAll_dmem (s : State) (ws : List BusPair) : (s.commitAll ws).dmem = s.dmem := by
  induction ws generalizing s with
  | nil => rfl
  | cons p ps ih => simp [State.commitAll, ih]
@[simp] theorem State.commitAll_code (s : State) (ws : List BusPair) : (s.commitAll ws).code = s.code := by
  induction ws generalizing s with
  | nil => rfl
  | cons p ps ih => simp [State.commitAll, ih]
@[simp] theorem State.commitAll_params (s : State) (ws : List BusPair) : (s.commitAll ws).params = s.params := by
  induction ws generalizing s with
  | nil => rfl
  | cons p ps ih => simp [State.commitAll, ih]
@[simp] theorem State.commitAll_stage (s : State) (ws : List BusPair) : (s.commitAll ws).stage = s.stage := by
  induction ws generalizing s with
  | nil => rfl
  | cons p ps ih => simp [State.commitAll, ih]
@[simp] theorem State.fetchFill_x (s : State) : s.fetchFill.x = s.x := by
  unfold State.fetchFill; split <;> rfl
@[simp] theorem State.fetchFill_busy (s : State) : s.fetchFill.busy = s.busy := by
  unfold State.fetchFill; split <;> rfl
@[simp] theorem State.fetchFill_cc (s : State) : s.fetchFill.cc = s.cc := by
  unfold State.fetchFill; split <;> rfl
@[simp] theorem State.fetchFill_dl (s : State) : s.fetchFill.dl = s.dl := by
  unfold State.fetchFill; split <;> rfl
@[simp] theorem State.fetchFill_xl (s : State) : s.fetchFill.xl = s.xl := by
  unfold State.fetchFill; split <;> rfl
@[simp] theorem State.fetchFill_ml (s : State) : s.fetchFill.ml = s.ml := by
  unfold State.fetchFill; split <;> rfl
@[simp] theorem State.fetchFill_wl (s : State) : s.fetchFill.wl = s.wl := by
  unfold State.fetchFill; split <;> rfl
@[simp] theorem State.fetchFill_exbus (s : State) : s.fetchFill.exbus = s.exbus := by
  unfold State.fetchFill; split <;> rfl
@[simp] theorem State.fetchFill_membus (s : State) : s.fetchFill.membus = s.membus := by
  unfold State.fetchFill; split <;> rfl
@[simp] theorem State.fetchFill_btb (s : State) : s.fetchFill.btb = s.btb := by
  unfold State.fetchFill; split <;> rfl
@[simp] theorem State.fetchFill_redirectPending (s : State) : s.fetchFill.redirectPending = s.redirectPending := by
  unfold State.fetchFill; split <;> rfl
@[simp] theorem State.fetchFill_retired (s : State) : s.fetchFill.retired = s.retired := by
  unfold State.fetchFill; split <;> rfl
@[simp] theorem State.fetchFill_cycles (s : State) : s.fetchFill.cycles = s.cycles := by
  unfold State.fetchFill; split <;> rfl
@[simp] theorem State.fetchFill_halted (s : State) : s.fetchFill.halted = s.halted := by
  unfold State.fetchFill; split <;> rfl
@[simp] theorem State.fetchFill_fault (s : State) : s.fetchFill.fault = s.fault := by
  unfold State.fetchFill; split <;> rfl
@[simp] theorem State.fetchFill_dmem (s : State) : s.fetchFill.dmem = s.dmem := by
  unfold State.fetchFill; split <;> rfl
@[simp] theorem State.fetchFill_code (s : State) : s.fetchFill.code = s.code := by
  unfold State.fetchFill; split <;> rfl
@[simp] theorem State.fetchFill_params (s : State) : s.fetchFill.params = s.params := by
  unfold State.fetchFill; split <;> rfl
@[simp] theorem State.fetchFill_stage (s : State) : s.fetchFill.stage = s.stage := by
  unfold State.fetchFill; split <;> rfl

/-! ### The flags -/

theorem State.flagsWhen_cc (s : State) (on : Bool) (r : Word) :
    (s.flagsWhen on r).cc = if on then flagsOf r else s.cc := by
  unfold State.flagsWhen; split <;> rfl

end Sys2Proof.Machine
end

