-- ==== Sys2Proof/Laws/Btb.lean ====
section
/-! SUPPORT. Laws of the branch target buffer (spec/40_btb_predictor.md). -/

namespace Sys2Proof.Machine

theorem nextHist_le (h : Nat) (b : Bool) (hh : h ≤ 3) : nextHist h b ≤ 3 := by
  unfold nextHist Config.histMax; split <;> omega

@[simp] theorem BtbEntry.resolve_addr (e : BtbEntry) (b : Bool) (t : Word) : (e.resolve b t).addr = e.addr := rfl
@[simp] theorem BtbEntry.resolve_target (e : BtbEntry) (b : Bool) (t : Word) : (e.resolve b t).target = t := rfl
@[simp] theorem BtbEntry.resolve_hist (e : BtbEntry) (b : Bool) (t : Word) :
    (e.resolve b t).hist = nextHist e.hist b := rfl
@[simp] theorem BtbEntry.resolve_pred (e : BtbEntry) (b : Bool) (t : Word) :
    (e.resolve b t).pred = predOf (nextHist e.hist b) := rfl
@[simp] theorem BtbEntry.fresh_addr (a : Word) (f : Family) : (BtbEntry.fresh a f).addr = a := by cases f <;> rfl

theorem btbHas_iff (btb : List BtbEntry) (a : Word) : btbHas btb a = true ↔ a ∈ btb.map BtbEntry.addr := by
  simp [btbHas]

/-- The update of R96 keeps every address in its place. -/
@[simp] theorem btbUpdate_addrs (btb : List BtbEntry) (a : Word) (b : Bool) (t : Word) :
    (btbUpdate btb a b t).map BtbEntry.addr = btb.map BtbEntry.addr := by
  simp only [btbUpdate, List.map_map]
  apply List.map_congr_left
  intro e _
  simp only [Function.comp]
  split <;> rfl

theorem btbUpdate_length (btb : List BtbEntry) (a : Word) (b : Bool) (t : Word) :
    (btbUpdate btb a b t).length = btb.length := by simp [btbUpdate]

theorem btbPush_length {btb : List BtbEntry} (e : BtbEntry) (h : btb.length ≤ 4) : (btbPush btb e).length ≤ 4 := by
  unfold btbPush Config.btbCap
  split <;> simp <;> omega

/-- An entry after an insertion is an old one or the fresh one. -/
theorem mem_btbPush {btb : List BtbEntry} {e d : BtbEntry} (h : d ∈ btbPush btb e) : d ∈ btb ∨ d = e := by
  unfold btbPush at h
  split at h
  · rcases List.mem_append.1 h with h | h
    · exact .inl (List.mem_of_mem_tail h)
    · simp_all
  · simpa using h

/-- R94: what an insertion can leave. -/
theorem btbInsert_cases (btb : List BtbEntry) (hit : Bool) (a : Word) (f : Family) :
    (btbInsert btb hit a f = btb ∧ (hit = true ∨ btbHas btb a = true)) ∨
    (btbInsert btb hit a f = btbPush btb (BtbEntry.fresh a f) ∧ hit = false ∧ btbHas btb a = false) := by
  unfold btbInsert
  cases hit <;> cases h : btbHas btb a <;> simp

theorem mem_btbInsert {btb : List BtbEntry} {hit : Bool} {a : Word} {f : Family} {d : BtbEntry}
    (h : d ∈ btbInsert btb hit a f) : d ∈ btb ∨ d = BtbEntry.fresh a f := by
  rcases btbInsert_cases btb hit a f with ⟨e, -⟩ | ⟨e, -, -⟩
  · exact .inl (e ▸ h)
  · exact mem_btbPush (e ▸ h)

theorem btbInsert_length {btb : List BtbEntry} (hit : Bool) (a : Word) (f : Family) (h : btb.length ≤ 4) :
    (btbInsert btb hit a f).length ≤ 4 := by
  rcases btbInsert_cases btb hit a f with ⟨e, -⟩ | ⟨e, -, -⟩ <;> rw [e]
  · exact h
  · exact btbPush_length _ h

/-- R97: an insertion keeps the addresses pairwise distinct. -/
theorem btbInsert_nodup {btb : List BtbEntry} (hit : Bool) (a : Word) (f : Family)
    (h : (btb.map BtbEntry.addr).Nodup) : ((btbInsert btb hit a f).map BtbEntry.addr).Nodup := by
  rcases btbInsert_cases btb hit a f with ⟨e, -⟩ | ⟨e, -, hno⟩ <;> rw [e]
  · exact h
  · have hno' : a ∉ btb.map BtbEntry.addr := by rw [← btbHas_iff]; simp [hno]
    unfold btbPush
    split
    · rw [List.map_append, List.map_tail]
      refine List.nodup_append.2 ⟨h.tail, by simp, ?_⟩
      intro x hx y hy
      simp at hy
      subst hy
      intro e
      exact hno' (List.mem_of_mem_tail (e ▸ hx))
    · rw [List.map_append]
      refine List.nodup_append.2 ⟨h, by simp, ?_⟩
      intro x hx y hy
      simp at hy
      subst hy
      intro e
      exact hno' (e ▸ hx)

/-- R100: after the insertion the branch has an entry. -/
theorem btbHas_btbInsert (btb : List BtbEntry) (hit : Bool) (a : Word) (f : Family)
    (h : hit = true → btbHas btb a = true) : btbHas (btbInsert btb hit a f) a = true := by
  rcases btbInsert_cases btb hit a f with ⟨e, h' | h'⟩ | ⟨e, -, -⟩ <;> rw [e]
  · exact h h'
  · exact h'
  · simp [btbHas, btbPush]

end Sys2Proof.Machine
end

