-- ==== Sys2Proof/Laws/Registers.lean ====
section
/-! SUPPORT. Laws of the register file and the busy table (spec/10_state.md R20, R21). -/

namespace Sys2Proof.Machine

theorem regIndex?_eq_some {p : Config.Params} {r : Int} {k : Fin 16} (h : p.regIndex? r = some k) : r = k.val := by
  unfold Config.Params.regIndex? at h
  split at h
  · cases h; simp; omega
  · cases h

theorem regIndex?_isSome (p : Config.Params) (r : Int) : (p.regIndex? r).isSome = p.hasRegister r := by
  unfold Config.Params.regIndex? Config.Params.hasRegister; split <;> simp_all

theorem regIndex?_inj {p : Config.Params} {r q : Int} {k : Fin 16} (h : p.regIndex? r = some k)
    (h' : p.regIndex? q = some k) : r = q := by
  rw [regIndex?_eq_some h, regIndex?_eq_some h']

theorem readReg?_congr {s t : State} (h : t.x = s.x) (r : Int) (hp : t.params = s.params := by simp) :
    t.readReg? r = s.readReg? r := by
  simp [State.readReg?, h, hp]

theorem isBusy_congr {s t : State} (h : t.busy = s.busy) (r : Int) (hp : t.params = s.params := by simp) :
    t.isBusy r = s.isBusy r := by
  simp [State.isBusy, h, hp]

theorem readReg?_isSome (s : State) (r : Int) : (s.readReg? r).isSome = (s.params.regIndex? r).isSome := by
  simp [State.readReg?]

theorem readReg?_writeReg_same (s : State) {r : Int} (v : Word) (h : (s.params.regIndex? r).isSome) :
    (s.writeReg r v).readReg? r = some v := by
  obtain ⟨k, hk⟩ := Option.isSome_iff_exists.1 h
  simp [State.readReg?, State.writeReg, hk, Vector.get_eq_getElem]

theorem readReg?_writeReg_other (s : State) {r q : Int} (v : Word) (h : q ≠ r) :
    (s.writeReg r v).readReg? q = s.readReg? q := by
  unfold State.writeReg
  split
  next k hk =>
    unfold State.readReg?
    cases hq : s.params.regIndex? q with
    | none => rfl
    | some j =>
      have hne : k.val ≠ j.val := fun e => h (by rw [regIndex?_eq_some hq, regIndex?_eq_some hk, e])
      have : (s.x.set k v).get j = s.x.get j := by
        simp only [Vector.get_eq_getElem]; exact Vector.getElem_set_ne _ _ hne
      simp [this]
  next => rfl

theorem isBusy_setBusy_same (s : State) {r : Int} (b : Bool) (h : (s.params.regIndex? r).isSome) :
    (s.setBusy r b).isBusy r = b := by
  obtain ⟨k, hk⟩ := Option.isSome_iff_exists.1 h
  simp [State.isBusy, State.setBusy, hk, Vector.get_eq_getElem]

theorem isBusy_setBusy_other (s : State) {r q : Int} (b : Bool) (h : q ≠ r) :
    (s.setBusy r b).isBusy q = s.isBusy q := by
  unfold State.setBusy
  split
  next k hk =>
    unfold State.isBusy
    cases hq : s.params.regIndex? q with
    | none => rfl
    | some j =>
      have hne : k.val ≠ j.val := fun e => h (by rw [regIndex?_eq_some hq, regIndex?_eq_some hk, e])
      simp only [Vector.get_eq_getElem]; exact Vector.getElem_set_ne _ _ hne
  next => rfl

theorem isBusy_noRegister (s : State) {r : Int} (h : (s.params.regIndex? r).isSome = false) : s.isBusy r = false := by
  have : s.params.regIndex? r = none := by simpa using h
  simp [State.isBusy, this]

/-- One commit: register `r` gets `v` and is no longer busy, the others are as they were. -/
theorem readReg?_commit (s : State) (r q : Int) (v : Word) :
    (s.commit r v).readReg? q = if q = r ∧ (s.params.regIndex? r).isSome then some v else s.readReg? q := by
  have e : (s.commit r v).readReg? q = (s.writeReg r v).readReg? q := readReg?_congr (by simp [State.commit]) q
  rw [e]
  split
  next h => obtain ⟨rfl, h⟩ := h; exact readReg?_writeReg_same s v h
  next h =>
    by_cases hq : q = r
    · subst hq
      have : s.params.regIndex? q = none := by simpa using h
      simp [State.writeReg, this]
    · exact readReg?_writeReg_other s v hq

theorem isBusy_commit (s : State) (r q : Int) (v : Word) :
    (s.commit r v).isBusy q = if q = r then false else s.isBusy q := by
  unfold State.commit
  split
  next h =>
    subst h
    by_cases hq : (s.params.regIndex? q).isSome
    · exact isBusy_setBusy_same _ _ (by simpa using hq)
    · exact isBusy_noRegister _ (by simpa using hq)
  next h => rw [isBusy_setBusy_other _ _ h]; exact isBusy_congr (by simp) q

theorem isBusy_commitAll (s : State) (ws : List BusPair) (q : Int) :
    (s.commitAll ws).isBusy q = if q ∈ ws.map BusPair.reg then false else s.isBusy q := by
  induction ws generalizing s with
  | nil => simp [State.commitAll]
  | cons p ps ih =>
    simp only [State.commitAll, ih, isBusy_commit, List.map_cons, List.mem_cons]
    split <;> split <;> simp_all

theorem readReg?_commitAll_other (s : State) (ws : List BusPair) (q : Int) (h : q ∉ ws.map BusPair.reg) :
    (s.commitAll ws).readReg? q = s.readReg? q := by
  induction ws generalizing s with
  | nil => rfl
  | cons p ps ih =>
    simp only [List.map_cons, List.mem_cons, not_or] at h
    simp [State.commitAll, ih _ h.2, readReg?_commit, h.1]

/-- Marking a list of registers busy. -/
theorem isBusy_markBusy (s : State) (rs : List Int) (q : Int) (h : ∀ r ∈ rs, (s.params.regIndex? r).isSome) :
    (s.markBusy rs).isBusy q = (decide (q ∈ rs) || s.isBusy q) := by
  induction rs generalizing s with
  | nil => simp [State.markBusy]
  | cons r rs ih =>
    have hr := h r (by simp)
    rw [State.markBusy, ih _ fun q hq => by simpa using h q (by simp [hq])]
    by_cases hq : q = r
    · subst hq; simp [isBusy_setBusy_same _ _ hr]
    · simp [isBusy_setBusy_other _ _ hq, hq]

end Sys2Proof.Machine
end

