-- ==== Sys2Proof/Laws/Exec.lean ====
section
/-! SUPPORT. What `exec` does in each stage, said once for all instructions: every later proof cites these and unfolds no
meaning. -/

namespace Sys2Proof

open Sys2Proof.Machine

/-- R130: the register writes of an instruction at Writeback, in order. -/
def Instr.writes (s : State) : Instr → List BusPair
  | .loadp rd rs1 _ => [⟨rs1, s.pointer s.wl.rs1Value⟩, ⟨rd, s.wl.result⟩]
  | .storep _ rs2 _ => [⟨rs2, s.pointer s.wl.rs2Value⟩]
  | i => i.operands.dests.map fun r => ⟨r, s.wl.result⟩

/-- The registers written at Writeback are the destinations of R118. -/
theorem Instr.mem_writes (s : State) (i : Instr) (r : Int) :
    r ∈ (i.writes s).map BusPair.reg ↔ r ∈ i.operands.dests := by
  cases i <;> simp [Instr.writes, Instr.operands, or_comm]

end Sys2Proof

namespace Sys2Proof.Machine

/-! ### `andThen` and `runStage` -/

@[simp] theorem andThen_next (s : State) (f : State → Result State) : andThen (.next s) f = f s := rfl
@[simp] theorem andThen_fault (k : Fault) (f : State → Result State) : andThen (.fault k) f = .fault k := rfl
@[simp] theorem andThen_refused (k : Refusal) (f : State → Result State) : andThen (.refused k) f = .refused k := rfl

theorem andThen_eq_next {r : Result State} {f : State → Result State} {t : State} :
    andThen r f = .next t ↔ ∃ s, r = .next s ∧ f s = .next t := by
  cases r <;> simp [andThen]

/-- R111: what a stage can do: nothing on a bubble, else the work of the instruction in its latch. -/
theorem runStage_eq_next {g : Stage} {l : Latch} {s t : State} :
    runStage g l s = .next t ↔
      (l.valid = false ∧ t = s) ∨ (l.valid = true ∧ ∃ i, l.instr? = some i ∧ exec i (s.at g) = .next t) := by
  unfold runStage
  cases l.valid <;> cases h : l.instr? <;> simp [eq_comm]

theorem runStage_bubble {g : Stage} {l : Latch} (s : State) (h : l.valid = false) : runStage g l s = .next s := by
  simp [runStage, h]

theorem runStage_instr {g : Stage} {l : Latch} {i : Instr} (s : State) (h : l.valid = true) (hi : l.instr? = some i) :
    runStage g l s = exec i (s.at g) := by
  simp [runStage, h, hi]

/-! ### Fetch -/

/-- R113, R115: Fetch forwards the instruction; `HALT` also switches it off. -/
theorem exec_fetch (i : Instr) {s : State} (h : s.stage = .fetch) :
    exec i s = .next (if i = .halt then s.forwardFetch.stopFetch else s.forwardFetch) := by
  cases i <;>
    simp [exec, h, fetchForward, fetchHalt, execAdd, execSub, execMul, execDiv, execAnd, execOr, execXor, execMovc,
      execLoad, execStore, execBz, execBnz, execHalt, execAddl, execSubl, execLoadp, execStorep, execCmp, execCml,
      execBp, execBnp, execJump, execJalr]

/-! ### Decode -/

/-- R117 to R122: Decode refuses `DIV` and `LOADP` with `rd = rs1`, inserts and issues a conditional branch, and resolves
the operands of every other instruction. -/
theorem exec_decode (i : Instr) {s : State} (h : s.stage = .decode) :
    exec i s =
      if i.refusedByDecode then .fault (.invalidOpcode s.dl.pc i.opcode)
      else
        match i.family? with
        | some f => decodeBranch f s
        | none => decodeOperands i.operands s := by
  cases i <;>
    simp [exec, h, Instr.refusedByDecode, Instr.family?, Instr.operands, Instr.opcode, Instr.record, execAdd, execSub,
      execMul, execDiv, execAnd, execOr, execXor, execMovc, execLoad, execStore, execBz, execBnz, execHalt, execAddl,
      execSubl, execLoadp, execStorep, execCmp, execCml, execBp, execBnp, execJump, execJalr]

/-- R117, R120: what `decodeOperands` can do. -/
theorem decodeOperands_cases (o : Operands) (s : State) :
    (∃ f, o.badField? s.params = some f ∧ decodeOperands o s = .fault (.registerIndexOutOfRange s.dl.pc f)) ∨
    (o.badField? s.params = none ∧ decodeOperands o s = .next s.stall ∧
      (s.operand o.src1 s.dl.rs1Value = none ∨ s.operand o.src2 s.dl.rs2Value = none ∨ ∃ d ∈ o.dests, s.isBusy d = true)) ∨
    (∃ a b, o.badField? s.params = none ∧ s.operand o.src1 s.dl.rs1Value = some a ∧ s.operand o.src2 s.dl.rs2Value = some b ∧
      (∀ d ∈ o.dests, s.isBusy d = false) ∧ decodeOperands o s = .next (s.issue a b o.dests)) := by
  unfold decodeOperands
  cases hb : o.badField? s.params with
  | some f => exact .inl ⟨f, rfl, rfl⟩
  | none =>
    cases h1 : s.operand o.src1 s.dl.rs1Value with
    | none => exact .inr (.inl ⟨rfl, rfl, .inl rfl⟩)
    | some a =>
      cases h2 : s.operand o.src2 s.dl.rs2Value with
      | none => exact .inr (.inl ⟨rfl, rfl, .inr (.inl rfl)⟩)
      | some b =>
        by_cases hd : o.dests.any s.isBusy = true
        · exact .inr (.inl ⟨rfl, by simp [hd], .inr (.inr (by simpa using hd))⟩)
        · refine .inr (.inr ⟨a, b, rfl, rfl, rfl, ?_, by simp [hd]⟩)
          simpa using hd

/-- Every field of an instruction that passes the range check names a register. -/
theorem badField?_eq_none {o : Operands} {p : Config.Params} (h : o.badField? p = none) :
    ∀ f ∈ o.fields, (p.regIndex? f).isSome = true := by
  intro f hf
  have := List.find?_eq_none.1 h f hf
  rw [regIndex?_isSome]
  simpa using this

theorem isSome_of_mem_dests {o : Operands} {p : Config.Params} (h : o.badField? p = none) {r : Int} (hr : r ∈ o.dests) :
    (p.regIndex? r).isSome = true :=
  badField?_eq_none h r (by simp [Operands.fields, hr])

@[simp] theorem State.issue_xl (s : State) (a b : Word) (ds : List Int) :
    (s.issue a b ds).xl = { s.dl with rs1Value := a, rs2Value := b, stalled := false } := by simp [State.issue]
@[simp] theorem State.issue_dl (s : State) (a b : Word) (ds : List Int) :
    (s.issue a b ds).dl = { s.dl with rs1Value := a, rs2Value := b, stalled := false, valid := false } := by
  simp [State.issue]
@[simp] theorem State.issue_fl (s : State) (a b : Word) (ds : List Int) :
    (s.issue a b ds).fl = { s.fl with stalled := false } := by simp [State.issue]
@[simp] theorem State.issue_x (s : State) (a b : Word) (ds : List Int) : (s.issue a b ds).x = s.x := by
  simp [State.issue]
@[simp] theorem State.issue_pc (s : State) (a b : Word) (ds : List Int) : (s.issue a b ds).pc = s.pc := by
  simp [State.issue]
@[simp] theorem State.issue_cc (s : State) (a b : Word) (ds : List Int) : (s.issue a b ds).cc = s.cc := by
  simp [State.issue]
@[simp] theorem State.issue_ml (s : State) (a b : Word) (ds : List Int) : (s.issue a b ds).ml = s.ml := by
  simp [State.issue]
@[simp] theorem State.issue_wl (s : State) (a b : Word) (ds : List Int) : (s.issue a b ds).wl = s.wl := by
  simp [State.issue]
@[simp] theorem State.issue_exbus (s : State) (a b : Word) (ds : List Int) : (s.issue a b ds).exbus = s.exbus := by
  simp [State.issue]
@[simp] theorem State.issue_membus (s : State) (a b : Word) (ds : List Int) : (s.issue a b ds).membus = s.membus := by
  simp [State.issue]
@[simp] theorem State.issue_btb (s : State) (a b : Word) (ds : List Int) : (s.issue a b ds).btb = s.btb := by
  simp [State.issue]
@[simp] theorem State.issue_redirectPending (s : State) (a b : Word) (ds : List Int) : (s.issue a b ds).redirectPending = s.redirectPending := by
  simp [State.issue]
@[simp] theorem State.issue_retired (s : State) (a b : Word) (ds : List Int) : (s.issue a b ds).retired = s.retired := by
  simp [State.issue]
@[simp] theorem State.issue_cycles (s : State) (a b : Word) (ds : List Int) : (s.issue a b ds).cycles = s.cycles := by
  simp [State.issue]
@[simp] theorem State.issue_halted (s : State) (a b : Word) (ds : List Int) : (s.issue a b ds).halted = s.halted := by
  simp [State.issue]
@[simp] theorem State.issue_fault (s : State) (a b : Word) (ds : List Int) : (s.issue a b ds).fault = s.fault := by
  simp [State.issue]
@[simp] theorem State.issue_dmem (s : State) (a b : Word) (ds : List Int) : (s.issue a b ds).dmem = s.dmem := by
  simp [State.issue]
@[simp] theorem State.issue_code (s : State) (a b : Word) (ds : List Int) : (s.issue a b ds).code = s.code := by
  simp [State.issue]
@[simp] theorem State.issue_params (s : State) (a b : Word) (ds : List Int) : (s.issue a b ds).params = s.params := by
  simp [State.issue]
@[simp] theorem State.issue_stage (s : State) (a b : Word) (ds : List Int) : (s.issue a b ds).stage = s.stage := by
  simp [State.issue]

theorem isBusy_issue (s : State) (a b : Word) {ds : List Int} (q : Int) (h : ∀ r ∈ ds, (s.params.regIndex? r).isSome = true) :
    (s.issue a b ds).isBusy q = (decide (q ∈ ds) || s.isBusy q) := by
  rw [isBusy_congr (s := (s.setOperands a b).markBusy ds) (by simp [State.issue]), isBusy_markBusy _ _ _ (by simpa using h),
    isBusy_congr (State.setOperands_busy s a b)]

/-! ### Execute -/

/-- What Execute may change before it passes the latch on: the result and address fields, the flags, `EXBUS`, the BTB
entry of the instruction, and, by a flush, the front end. -/
structure ExecuteEffect (s u : State) : Prop where
  x : u.x = s.x
  busy : u.busy = s.busy
  ml : u.ml = s.ml
  wl : u.wl = s.wl
  membus : u.membus = s.membus
  retired : u.retired = s.retired
  cycles : u.cycles = s.cycles
  halted : u.halted = s.halted
  fault : u.fault = s.fault
  dmem : u.dmem = s.dmem
  code : u.code = s.code
  params : u.params = s.params
  xl : ∃ r a, u.xl = { s.xl with result := r, memAddr := a }
  btb : u.btb = s.btb ∨ ∃ b t, u.btb = btbUpdate s.btb s.xl.pc b t
  cc : u.cc = s.cc ∨ ∃ r, u.cc = flagsOf r ∨ ∃ a b, u.cc = flagsExact a b
  front : (u.pc = s.pc ∧ u.dl = s.dl ∧ u.fl = s.fl ∧ u.redirectPending = s.redirectPending) ∨
    (∃ t, u.pc = t ∧ u.dl = { s.dl with valid := false, stalled := false } ∧
      u.fl = { s.fl with valid := true, stalled := false } ∧ u.redirectPending = true)

theorem flagsCompare_cases (p : Config.Params) (a b : Word) :
    (∃ r, flagsCompare p a b = flagsOf r) ∨ flagsCompare p a b = flagsExact a b := by
  unfold flagsCompare
  split
  · exact .inr rfl
  · exact .inl ⟨_, rfl⟩

theorem executeResult_effect (rd : Int) (r : Word) (on : Bool) (s : State) :
    ∃ u, executeResult rd r on s = .next u.advanceExecute ∧ ExecuteEffect s u := by
  refine ⟨_, rfl, ?_⟩
  constructor <;> simp
  rw [State.flagsWhen_cc]
  split
  · exact .inr ⟨r, .inl rfl⟩
  · exact .inl rfl

theorem executeCompare_effect (a b : Word) (s : State) :
    ∃ u, executeCompare a b s = .next u.advanceExecute ∧ ExecuteEffect s u := by
  refine ⟨_, rfl, ?_⟩
  constructor <;> simp
  · exact ⟨s.xl.result, s.xl.memAddr, rfl⟩
  · rcases flagsCompare_cases s.params a b with ⟨r, h⟩ | h
    · exact .inr ⟨r, .inl h⟩
    · exact .inr ⟨0, .inr ⟨a, b, h⟩⟩

theorem executeAddress_effect (base imm : Word) (ps : List BusPair) (s : State) :
    ∃ u, executeAddress base imm ps s = .next u.advanceExecute ∧ ExecuteEffect s u := by
  refine ⟨_, rfl, ?_⟩
  constructor <;> simp

theorem executeNothing_effect (s : State) :
    ∃ u, executeNothing s = .next u.advanceExecute ∧ ExecuteEffect s u := by
  refine ⟨_, rfl, ?_⟩
  constructor <;> simp
  exact ⟨s.xl.result, s.xl.memAddr, rfl⟩

theorem executeBranch_effect (b : Bool) (imm : Word) (s : State) :
    ∃ u, executeBranch b imm s = .next u.advanceExecute ∧ ExecuteEffect s u := by
  unfold executeBranch
  split
  all_goals
    refine ⟨_, rfl, ?_⟩
    constructor <;> simp
    exact ⟨s.xl.result, s.xl.memAddr, rfl⟩

theorem executeJump_effect (imm : Word) (s : State) :
    ∃ u, executeJump imm s = .next u.advanceExecute ∧ ExecuteEffect s u := by
  refine ⟨_, rfl, ?_⟩
  constructor <;> simp
  exact ⟨s.xl.result, s.xl.memAddr, rfl⟩

theorem executeJumpLink_effect (rd : Int) (imm : Word) (s : State) :
    ∃ u, executeJumpLink rd imm s = .next u.advanceExecute ∧ ExecuteEffect s u := by
  refine ⟨_, rfl, ?_⟩
  constructor <;> simp

/-- R123, R125: Execute of every instruction but `DIV`, which cannot reach it. -/
theorem exec_execute (i : Instr) {s : State} (h : s.stage = .execute) (hi : i.opcode ≠ .div) :
    ∃ u, exec i s = .next u.advanceExecute ∧ ExecuteEffect s u := by
  cases i <;>
    simp only [exec, h, execAdd, execSub, execMul, execDiv, execAnd, execOr, execXor, execMovc, execLoad, execStore,
      execBz, execBnz, execHalt, execAddl, execSubl, execLoadp, execStorep, execCmp, execCml, execBp, execBnp, execJump,
      execJalr]
  case div => exact absurd rfl hi
  case halt => exact executeNothing_effect s
  case jump => exact executeJump_effect _ s
  case jalr => exact executeJumpLink_effect _ _ s
  case cmp => exact executeCompare_effect _ _ s
  case cml => exact executeCompare_effect _ _ s
  case bz => exact executeBranch_effect _ _ s
  case bnz => exact executeBranch_effect _ _ s
  case bp => exact executeBranch_effect _ _ s
  case bnp => exact executeBranch_effect _ _ s
  case load => exact executeAddress_effect _ _ _ s
  case loadp => exact executeAddress_effect _ _ _ s
  case store => exact executeAddress_effect _ _ _ s
  case storep => exact executeAddress_effect _ _ _ s
  all_goals exact executeResult_effect _ _ _ s

/-! ### Memory -/

theorem memoryLoad_cases (ps : Word → List BusPair) (s : State) :
    (∃ v, s.memRead? s.ml.memAddr = some v ∧
      memoryLoad ps s = .next ((s.setLoaded v).driveMembus (ps v)).advanceMemory) ∨
    (s.memRead? s.ml.memAddr = none ∧ memoryLoad ps s = .fault (.memoryAddressOutOfRange s.ml.pc s.ml.memAddr)) := by
  unfold memoryLoad
  cases h : s.memRead? s.ml.memAddr with
  | some v => exact .inl ⟨v, rfl, rfl⟩
  | none => exact .inr ⟨rfl, rfl⟩

theorem memoryStore_cases (ps : List BusPair) (s : State) :
    (∃ k, s.dataIndex? s.ml.memAddr = some k ∧
      memoryStore ps s =
        .next (({ s with dmem := s.dmem.write k s.ml.rs1Value } : State).driveMembus ps).advanceMemory) ∨
    (s.dataIndex? s.ml.memAddr = none ∧ memoryStore ps s = .fault (.memoryAddressOutOfRange s.ml.pc s.ml.memAddr)) := by
  unfold memoryStore State.memWrite?
  cases h : s.dataIndex? s.ml.memAddr with
  | some k => exact .inl ⟨k, rfl, rfl⟩
  | none => exact .inr ⟨rfl, rfl⟩

/-- What Memory may change before it passes the latch on: the loaded value, `MEMBUS`, and one word of data memory. -/
structure MemoryEffect (s u : State) : Prop where
  x : u.x = s.x
  busy : u.busy = s.busy
  pc : u.pc = s.pc
  cc : u.cc = s.cc
  fl : u.fl = s.fl
  dl : u.dl = s.dl
  xl : u.xl = s.xl
  wl : u.wl = s.wl
  exbus : u.exbus = s.exbus
  btb : u.btb = s.btb
  redirectPending : u.redirectPending = s.redirectPending
  retired : u.retired = s.retired
  cycles : u.cycles = s.cycles
  halted : u.halted = s.halted
  fault : u.fault = s.fault
  code : u.code = s.code
  params : u.params = s.params
  ml : ∃ v, u.ml = { s.ml with result := v }
  dmem : u.dmem = s.dmem ∨ ∃ k v, k < s.params.dmemWords ∧ u.dmem = s.dmem.write k v

/-- R128: Memory of every instruction but `DIV`: an effect, or `MemoryAddressOutOfRange`. -/
theorem exec_memory (i : Instr) {s : State} (h : s.stage = .memory) (hi : i.opcode ≠ .div) :
    (∃ u, exec i s = .next u.advanceMemory ∧ MemoryEffect s u) ∨
    exec i s = .fault (.memoryAddressOutOfRange s.ml.pc s.ml.memAddr) := by
  have pass : ∀ ps, ∃ u, memoryPass ps s = .next u.advanceMemory ∧ MemoryEffect s u := by
    intro ps
    refine ⟨_, rfl, ?_⟩
    constructor <;> simp
    exact ⟨s.ml.result, rfl⟩
  have load : ∀ ps, (∃ u, memoryLoad ps s = .next u.advanceMemory ∧ MemoryEffect s u) ∨
      memoryLoad ps s = .fault (.memoryAddressOutOfRange s.ml.pc s.ml.memAddr) := by
    intro ps
    rcases memoryLoad_cases ps s with ⟨v, -, e⟩ | ⟨-, e⟩
    · refine .inl ⟨_, e, ?_⟩
      constructor <;> simp
    · exact .inr e
  have store : ∀ ps, (∃ u, memoryStore ps s = .next u.advanceMemory ∧ MemoryEffect s u) ∨
      memoryStore ps s = .fault (.memoryAddressOutOfRange s.ml.pc s.ml.memAddr) := by
    intro ps
    rcases memoryStore_cases ps s with ⟨k, hk, e⟩ | ⟨-, e⟩
    · refine .inl ⟨_, e, ?_⟩
      have hlt : k < s.params.dmemWords := by
        unfold State.dataIndex? at hk
        split at hk
        · cases hk; omega
        · cases hk
      constructor <;> simp
      · exact ⟨s.ml.result, rfl⟩
      · exact .inr ⟨k, hlt, _, rfl⟩
    · exact .inr e
  cases i <;>
    simp only [exec, h, execAdd, execSub, execMul, execDiv, execAnd, execOr, execXor, execMovc, execLoad, execStore,
      execBz, execBnz, execHalt, execAddl, execSubl, execLoadp, execStorep, execCmp, execCml, execBp, execBnp, execJump,
      execJalr]
  case div => exact absurd rfl hi
  case load => exact load _
  case loadp => exact load _
  case store => exact store _
  case storep => exact store _
  all_goals exact .inl (pass _)

/-! ### Writeback -/

/-- R130: Writeback of every instruction but `DIV`. -/
theorem exec_writeback (i : Instr) {s : State} (h : s.stage = .writeback) (hi : i.opcode ≠ .div) :
    exec i s = .next (if i = .halt then s.halt.retire else (s.commitAll (i.writes s)).retire) := by
  cases i <;>
    simp [exec, h, Instr.writes, Instr.operands, writebackCommit, writebackHalt, execAdd, execSub, execMul, execDiv,
      execAnd, execOr, execXor, execMovc, execLoad, execStore, execBz, execBnz, execHalt, execAddl, execSubl, execLoadp,
      execStorep, execCmp, execCml, execBp, execBnp, execJump, execJalr]
  exact absurd rfl hi

/-- R202: `DIV` behind Decode raises, wherever it is. -/
theorem exec_div_faults (rd rs1 rs2 : Int) (imm : Word) {s : State} (h : s.stage ≠ .fetch) :
    exec (.div rd rs1 rs2 imm) s = .fault (.invalidOpcode s.current.pc .div) := by
  cases e : s.stage <;> simp_all [exec, execDiv, State.current]

/-- No instruction is refused. -/
theorem exec_ne_refused (i : Instr) (s : State) (r : Refusal) : exec i s ≠ .refused r := by
  by_cases hi : i.opcode = .div
  · cases i <;> simp [Instr.opcode, Instr.record] at hi
    cases e : s.stage <;> simp [exec, execDiv, e, fetchForward]
  cases e : s.stage with
  | writeback => simp [exec_writeback i e hi]
  | memory => rcases exec_memory i e hi with ⟨u, h, -⟩ | h <;> simp [h]
  | execute => obtain ⟨u, h, -⟩ := exec_execute i e hi; simp [h]
  | decode =>
    rw [exec_decode i e]
    split
    · simp
    · split
      · simp [decodeBranch]
      · rcases decodeOperands_cases i.operands s with ⟨f, -, h⟩ | ⟨-, h, -⟩ | ⟨a, b, -, -, -, -, h⟩ <;> simp [h]
  | fetch => simp [exec_fetch i e]

end Sys2Proof.Machine
end

