-- ==== Sys2Proof/Laws/Cycle.lean ====
section
/-! SUPPORT. What each stage function and one step can do, said once (spec/41_pipeline_stages.md R110 to R130): later
proofs about a cycle cite these and unfold no stage. -/

namespace Sys2Proof.Machine

/-! ### No stage refuses -/

theorem runStage_ne_refused (g : Stage) (l : Latch) (s : State) (r : Refusal) : runStage g l s ≠ .refused r := by
  unfold runStage
  split
  · split
    · exact exec_ne_refused _ _ _
    · simp
  · simp

theorem andThen_ne_refused {a : Result State} {f : State → Result State} (h : ∀ r, a ≠ .refused r)
    (h' : ∀ s r, f s ≠ .refused r) (r : Refusal) : andThen a f ≠ .refused r := by
  cases a <;> simp_all

theorem fetchStage_ne_refused (s : State) (r : Refusal) : fetchStage s ≠ .refused r := by
  unfold fetchStage fetchDeliver
  repeat' split
  all_goals first | exact exec_ne_refused _ _ _ | simp [fetchForward]

theorem cycleStages_ne_refused (s : State) (r : Refusal) : cycleStages s ≠ .refused r :=
  andThen_ne_refused
    (andThen_ne_refused
      (andThen_ne_refused
        (andThen_ne_refused (fun _ => runStage_ne_refused _ _ _ _) fun _ _ => runStage_ne_refused _ _ _ _)
        fun _ _ => runStage_ne_refused _ _ _ _)
      fun _ _ => runStage_ne_refused _ _ _ _)
    fetchStage_ne_refused r

/-! ### One step -/

/-- R110, R132, R216: a step is the identity, a whole cycle, or a recorded fatal condition. -/
theorem step_cases (s : State) :
    ((s.halted || s.fault.isSome) = true ∧ step s = .next s) ∨
    ((s.halted || s.fault.isSome) = false ∧
      ((∃ t, cycleStages s = .next t ∧ step s = .next t.closeCycle) ∨
        ∃ k, cycleStages s = .fault k ∧ step s = .next (s.takeFatal k))) := by
  unfold step stepCycle
  cases h : (s.halted || s.fault.isSome)
  · refine .inr ⟨rfl, ?_⟩
    cases h' : cycleStages s with
    | next t => exact .inl ⟨t, rfl, rfl⟩
    | fault k => exact .inr ⟨k, rfl, rfl⟩
    | refused r => exact absurd h' (cycleStages_ne_refused s r)
  · exact .inl ⟨rfl, by simp⟩

/-- R110: a whole cycle goes through the five stages. -/
theorem cycleStages_eq_next {s t : State} :
    cycleStages s = .next t ↔ ∃ u v w d, writebackStage s.clearBuses = .next u ∧ memoryStage u = .next v ∧
      executeStage v = .next w ∧ decodeStage w = .next d ∧ fetchStage d = .next t := by
  simp only [cycleStages, backEnd, andThen_eq_next]
  constructor
  · rintro ⟨d, ⟨w, ⟨v, ⟨u, h1, h2⟩, h3⟩, h4⟩, h5⟩
    exact ⟨u, v, w, d, h1, h2, h3, h4, h5⟩
  · rintro ⟨u, v, w, d, h1, h2, h3, h4, h5⟩
    exact ⟨d, ⟨w, ⟨v, ⟨u, h1, h2⟩, h3⟩, h4⟩, h5⟩

/-! ### Latches and their instructions -/

/-- The record of an instruction is that instruction's. -/
theorem record_instr? (i : Instr) : i.record.instr? = some i := by cases i <;> rfl

/-- A record that is an instruction has that instruction's opcode. -/
theorem Record.opcode_of_instr? {r : Record} {i : Instr} (h : r.instr? = some i) : r.opcode = i.opcode := by
  unfold Record.instr? at h
  split at h <;> cases h <;> assumption

/-- What instruction a latch holds is settled by its opcode and operand fields. -/
theorem Latch.instr?_congr {l m : Latch} (ho : m.opcode = l.opcode) (hd : m.rd = l.rd) (h1 : m.rs1 = l.rs1)
    (h2 : m.rs2 = l.rs2) (hi : m.imm = l.imm) : m.instr? = l.instr? := by
  simp [Latch.instr?, ho, hd, h1, h2, hi]

theorem Latch.dests_congr {l m : Latch} (h : m.instr? = l.instr?) : m.dests = l.dests := by
  simp [Latch.dests, h]

theorem Latch.dests_of_instr? {l : Latch} {i : Instr} (h : l.instr? = some i) : l.dests = i.operands.dests := by
  simp [Latch.dests, h]

theorem Latch.opcode_of_instr? {l : Latch} {i : Instr} (h : l.instr? = some i) : l.opcode = .op i.opcode := by
  unfold Latch.instr? at h
  split at h
  next o ho => rw [ho]; exact congrArg LatchOp.op (Record.opcode_of_instr? h)
  next => cases h

/-- The latch of a `HALT` is known by its opcode. -/
theorem Latch.instr?_halt {l : Latch} : l.instr? = some .halt ↔ l.opcode = .op .halt := by
  constructor
  · intro h; exact Latch.opcode_of_instr? h
  · intro h; simp [Latch.instr?, h, Record.instr?]

/-- R125: the immediate of a branch is its latch's. -/
theorem Latch.imm_of_branch {l : Latch} {i : Instr} (h : l.instr? = some i) (hf : i.family?.isSome = true) :
    i.record.imm = l.imm := by
  unfold Latch.instr? at h
  split at h
  next o ho =>
    unfold Record.instr? at h
    split at h <;> cases h <;> first | rfl | simp [Instr.family?] at hf
  next => cases h

/-! ### Writeback (R130) -/

/-- What the Writeback stage can do. -/
structure WritebackDone (s u : State) : Prop where
  fl : u.fl = s.fl
  dl : u.dl = s.dl
  xl : u.xl = s.xl
  ml : u.ml = s.ml
  wl : u.wl = { s.wl with valid := false }
  pc : u.pc = s.pc
  cc : u.cc = s.cc
  exbus : u.exbus = s.exbus
  membus : u.membus = s.membus
  btb : u.btb = s.btb
  redirectPending : u.redirectPending = s.redirectPending
  cycles : u.cycles = s.cycles
  fault : u.fault = s.fault
  dmem : u.dmem = s.dmem
  code : u.code = s.code
  params : u.params = s.params
  retired : u.retired = s.retired + if s.wl.valid then 1 else 0
  halted : u.halted = (s.halted || (s.wl.valid && decide (s.wl.instr? = some .halt)))
  busy : ∀ q, u.isBusy q = (s.isBusy q && !(s.wl.valid && decide (q ∈ s.wl.dests)))
  registers : ∀ q, (s.wl.valid = true → q ∉ s.wl.dests) → u.readReg? q = s.readReg? q

theorem writebackStage_done {s u : State} (h : writebackStage s = .next u) : WritebackDone s u := by
  rcases runStage_eq_next.1 h with ⟨hv, rfl⟩ | ⟨hv, i, hi, e⟩
  · constructor <;> simp [hv]
    cases hw : u.wl; simp_all
  · have hdiv : i.opcode ≠ .div := by
      intro hd
      cases i <;> simp [Instr.opcode, Instr.record] at hd
      simp [exec_div_faults, State.at] at e
    rw [exec_writeback i rfl hdiv] at e
    have hdest := Latch.dests_of_instr? hi
    split at e
    next hh =>
      subst hh
      cases e
      constructor <;> simp [hv, hi, hdest, Instr.operands]
      · intro q; exact isBusy_congr (by simp) q
      · intro q; exact readReg?_congr (by simp) q
    next hh =>
      cases e
      have hne : i ≠ .halt := hh
      constructor
      case busy =>
        intro q
        rw [isBusy_congr (State.retire_busy _), isBusy_commitAll, isBusy_congr (State.at_busy s .writeback)]
        by_cases hq : q ∈ s.wl.dests
        · have := (Instr.mem_writes (s.at .writeback) i q).2 (hdest ▸ hq)
          simp [this, hv, hq]
        · have : q ∉ (i.writes (s.at .writeback)).map BusPair.reg :=
            fun hm => hq (hdest ▸ (Instr.mem_writes _ i q).1 hm)
          simp only [this, if_false, hv, hq, decide_false, Bool.and_false, Bool.not_false, Bool.and_true]
      case registers =>
        intro q hq
        rw [readReg?_congr (State.retire_x _), readReg?_commitAll_other, readReg?_congr (State.at_x s .writeback)]
        exact fun hm => hq hv (hdest ▸ (Instr.mem_writes _ i q).1 hm)
      all_goals simp [hv, hi, hne]

/-! ### Memory (R128, R129) -/

/-- What the Memory stage can do when it does not raise. -/
structure MemoryDone (s u : State) : Prop where
  x : u.x = s.x
  busy : u.busy = s.busy
  pc : u.pc = s.pc
  cc : u.cc = s.cc
  fl : u.fl = s.fl
  dl : u.dl = s.dl
  xl : u.xl = s.xl
  exbus : u.exbus = s.exbus
  btb : u.btb = s.btb
  redirectPending : u.redirectPending = s.redirectPending
  retired : u.retired = s.retired
  cycles : u.cycles = s.cycles
  halted : u.halted = s.halted
  fault : u.fault = s.fault
  code : u.code = s.code
  params : u.params = s.params
  ml : u.ml.valid = false
  wlFilled : s.ml.valid = true → ∃ v, u.wl = { s.ml with result := v }
  wlKept : s.ml.valid = false → u.wl = s.wl
  membus : ∃ ps, u.membus = s.membus ++ ps ∧ ∀ p ∈ ps, s.ml.valid = true ∧ p.reg ∈ s.ml.dests
  dmem : u.dmem = s.dmem ∨ ∃ k v, k < s.params.dmemWords ∧ u.dmem = s.dmem.write k v

/-- R129: what Memory drives is for the destinations of the instruction. -/
theorem exec_memory_membus (i : Instr) {s u : State} (h : s.stage = .memory) (e : exec i s = .next u) :
    ∃ ps : List BusPair, u.membus = s.membus ++ ps ∧ ∀ p ∈ ps, p.reg ∈ i.operands.dests := by
  have pass : ∀ ps, memoryPass ps s = .next u → u.membus = s.membus ++ ps := by
    intro ps e; cases e; simp
  have load : ∀ ps, memoryLoad ps s = .next u → ∃ v, u.membus = s.membus ++ ps v := by
    intro ps e
    rcases memoryLoad_cases ps s with ⟨v, -, e'⟩ | ⟨-, e'⟩ <;> rw [e'] at e <;> cases e
    exact ⟨v, by simp⟩
  have store : ∀ ps, memoryStore ps s = .next u → u.membus = s.membus ++ ps := by
    intro ps e
    rcases memoryStore_cases ps s with ⟨k, -, e'⟩ | ⟨-, e'⟩ <;> rw [e'] at e <;> cases e
    simp
  cases i <;>
    simp only [exec, h, execAdd, execSub, execMul, execDiv, execAnd, execOr, execXor, execMovc, execLoad, execStore,
      execBz, execBnz, execHalt, execAddl, execSubl, execLoadp, execStorep, execCmp, execCml, execBp, execBnp, execJump,
      execJalr] at e
  case div => cases e
  case load => obtain ⟨v, e⟩ := load _ e; exact ⟨_, e, by simp [Instr.operands]⟩
  case loadp => obtain ⟨v, e⟩ := load _ e; exact ⟨_, e, by simp [Instr.operands]⟩
  case store => exact ⟨_, store _ e, by simp [Instr.operands]⟩
  case storep => exact ⟨_, store _ e, by simp [Instr.operands]⟩
  all_goals exact ⟨_, pass _ e, by simp [Instr.operands]⟩

theorem memoryStage_done {s u : State} (h : memoryStage s = .next u) : MemoryDone s u := by
  rcases runStage_eq_next.1 h with ⟨hv, rfl⟩ | ⟨hv, i, hi, e⟩
  · constructor <;> simp [hv]
  · have hdiv : i.opcode ≠ .div := by
      intro hd
      cases i <;> simp [Instr.opcode, Instr.record] at hd
      simp [exec_div_faults, State.at] at e
    have hbus := exec_memory_membus i (s := s.at .memory) rfl e
    rcases exec_memory i (s := s.at .memory) rfl hdiv with ⟨w, e', f⟩ | e' <;> rw [e'] at e <;> cases e
    obtain ⟨v, hml⟩ := f.ml
    constructor
    case membus =>
      obtain ⟨ps, h1, h2⟩ := hbus
      exact ⟨ps, h1, fun p hp => ⟨hv, Latch.dests_of_instr? hi ▸ h2 p hp⟩⟩
    case wlFilled => intro _; exact ⟨v, by simp [hml]⟩
    case wlKept => simp [hv]
    case dmem => simpa using f.dmem
    all_goals first | rfl | (simp [f.x, f.busy, f.pc, f.cc, f.fl, f.dl, f.xl, f.exbus, f.btb, f.redirectPending,
      f.retired, f.cycles, f.halted, f.fault, f.code, f.params])

/-! ### Execute (R123 to R127) -/

/-- What the Execute stage can do. -/
structure ExecuteDone (s u : State) : Prop where
  x : u.x = s.x
  busy : u.busy = s.busy
  wl : u.wl = s.wl
  membus : u.membus = s.membus
  retired : u.retired = s.retired
  cycles : u.cycles = s.cycles
  halted : u.halted = s.halted
  fault : u.fault = s.fault
  dmem : u.dmem = s.dmem
  code : u.code = s.code
  params : u.params = s.params
  xl : u.xl.valid = false
  mlFilled : s.xl.valid = true → ∃ r a, u.ml = { s.xl with result := r, memAddr := a }
  mlKept : s.xl.valid = false → u.ml = s.ml
  exbus : ∃ ps, u.exbus = s.exbus ++ ps ∧ ∀ p ∈ ps, s.xl.valid = true ∧ p.reg ∈ s.xl.dests
  btb : u.btb = s.btb ∨ s.xl.valid = true ∧ (∃ i, s.xl.instr? = some i ∧ i.family?.isSome = true) ∧
    ∃ b, u.btb = btbUpdate s.btb s.xl.pc b (s.params.s32 (s.xl.pc.toInt + s.xl.imm.toInt))
  cc : u.cc = s.cc ∨ ∃ r, u.cc = flagsOf r ∨ ∃ a b, u.cc = flagsExact a b
  front : (u.pc = s.pc ∧ u.dl = s.dl ∧ u.fl = s.fl ∧ u.redirectPending = s.redirectPending) ∨
    (s.xl.valid = true ∧ s.xl.instr? ≠ some .halt ∧ u.dl = { s.dl with valid := false, stalled := false } ∧
      u.fl = { s.fl with valid := true, stalled := false } ∧ u.redirectPending = true)

/-- R125: what Execute drives is for the destinations of the instruction; `LOAD` drives nothing. -/
theorem exec_execute_exbus (i : Instr) {s u : State} (h : s.stage = .execute) (e : exec i s = .next u) :
    ∃ ps : List BusPair, u.exbus = s.exbus ++ ps ∧ ∀ p ∈ ps, p.reg ∈ i.operands.dests := by
  have result : ∀ rd r on, executeResult rd r on s = .next u → u.exbus = s.exbus ++ [⟨rd, r⟩] := by
    intro rd r on e; cases e; simp
  have compare : ∀ a b, executeCompare a b s = .next u → u.exbus = s.exbus ++ [] := by
    intro a b e; cases e; simp
  have address : ∀ a b ps, executeAddress a b ps s = .next u → u.exbus = s.exbus ++ ps := by
    intro a b ps e; cases e; simp
  have branch : ∀ b m, executeBranch b m s = .next u → u.exbus = s.exbus ++ [] := by
    intro b m e
    unfold executeBranch at e
    split at e <;> cases e <;> simp
  have jump : ∀ m, executeJump m s = .next u → u.exbus = s.exbus ++ [] := by
    intro m e; cases e; simp
  have link : ∀ rd m, executeJumpLink rd m s = .next u → u.exbus = s.exbus ++ [⟨rd, s.fallThrough⟩] := by
    intro rd m e; cases e; simp
  have nothing : executeNothing s = .next u → u.exbus = s.exbus ++ [] := by
    intro e; cases e; simp
  cases i <;>
    simp only [exec, h, execAdd, execSub, execMul, execDiv, execAnd, execOr, execXor, execMovc, execLoad, execStore,
      execBz, execBnz, execHalt, execAddl, execSubl, execLoadp, execStorep, execCmp, execCml, execBp, execBnp, execJump,
      execJalr] at e
  case div => cases e
  case halt => exact ⟨_, nothing e, by simp⟩
  case jump => exact ⟨_, jump _ e, by simp⟩
  case jalr => exact ⟨_, link _ _ e, by simp [Instr.operands]⟩
  case cmp => exact ⟨_, compare _ _ e, by simp⟩
  case cml => exact ⟨_, compare _ _ e, by simp⟩
  case bz => exact ⟨_, branch _ _ e, by simp⟩
  case bnz => exact ⟨_, branch _ _ e, by simp⟩
  case bp => exact ⟨_, branch _ _ e, by simp⟩
  case bnp => exact ⟨_, branch _ _ e, by simp⟩
  case load => exact ⟨_, address _ _ _ e, by simp⟩
  case store => exact ⟨_, address _ _ _ e, by simp⟩
  case loadp => exact ⟨_, address _ _ _ e, by simp [Instr.operands]⟩
  case storep => exact ⟨_, address _ _ _ e, by simp [Instr.operands]⟩
  all_goals exact ⟨_, result _ _ _ e, by simp [Instr.operands]⟩

/-- R96, R125: only a conditional branch changes the BTB in Execute, by the update with its taken-target; `HALT` leaves the
front end alone. -/
theorem exec_execute_btb (i : Instr) {s u : State} (h : s.stage = .execute) (e : exec i s = .next u) :
    (u.btb = s.btb ∨ i.family?.isSome = true ∧
      ∃ b, u.btb = btbUpdate s.btb s.xl.pc b (s.params.s32 (s.xl.pc.toInt + i.record.imm.toInt))) ∧
    (i = .halt → u.redirectPending = s.redirectPending ∧ u.pc = s.pc ∧ u.dl = s.dl ∧ u.fl = s.fl) := by
  have branch : ∀ b m, executeBranch b m s = .next u → ∃ b, u.btb = btbUpdate s.btb s.xl.pc b (s.params.s32 (s.xl.pc.toInt + m.toInt)) := by
    intro b m e
    unfold executeBranch at e
    refine ⟨b, ?_⟩
    split at e <;> cases e <;> simp [State.branchTarget]
  cases i <;>
    simp only [exec, h, execAdd, execSub, execMul, execDiv, execAnd, execOr, execXor, execMovc, execLoad, execStore,
      execBz, execBnz, execHalt, execAddl, execSubl, execLoadp, execStorep, execCmp, execCml, execBp, execBnp, execJump,
      execJalr] at e
  case bz => exact ⟨.inr ⟨rfl, branch _ _ e⟩, nofun⟩
  case bnz => exact ⟨.inr ⟨rfl, branch _ _ e⟩, nofun⟩
  case bp => exact ⟨.inr ⟨rfl, branch _ _ e⟩, nofun⟩
  case bnp => exact ⟨.inr ⟨rfl, branch _ _ e⟩, nofun⟩
  case halt => cases e; simp
  case div => cases e
  all_goals
    refine ⟨.inl ?_, nofun⟩
    cases e
    simp

theorem executeStage_done {s u : State} (h : executeStage s = .next u) : ExecuteDone s u := by
  rcases runStage_eq_next.1 h with ⟨hv, rfl⟩ | ⟨hv, i, hi, e⟩
  · constructor <;> simp [hv]
  · have hdiv : i.opcode ≠ .div := by
      intro hd
      cases i <;> simp [Instr.opcode, Instr.record] at hd
      simp [exec_div_faults, State.at] at e
    have hbus := exec_execute_exbus i (s := s.at .execute) rfl e
    obtain ⟨hbtb, hhalt⟩ := exec_execute_btb i (s := s.at .execute) rfl e
    obtain ⟨w, e', f⟩ := exec_execute i (s := s.at .execute) rfl hdiv
    rw [e'] at e
    cases e
    obtain ⟨r, a, hxl⟩ := f.xl
    constructor
    case exbus =>
      obtain ⟨ps, h1, h2⟩ := hbus
      exact ⟨ps, h1, fun p hp => ⟨hv, Latch.dests_of_instr? hi ▸ h2 p hp⟩⟩
    case mlFilled => intro _; exact ⟨r, a, by simp [hxl]⟩
    case mlKept => simp [hv]
    case btb =>
      rcases hbtb with hb | ⟨hf, b, hb⟩
      · exact .inl hb
      · exact .inr ⟨hv, ⟨i, hi, hf⟩, b, by rw [Latch.imm_of_branch hi hf] at hb; exact hb⟩
    case cc => simpa using f.cc
    case front =>
      rcases f.front with hf | ⟨t, -, h1, h2, h3⟩
      · exact .inl (by simpa using hf)
      · by_cases hh : i = .halt
        · exact .inl (by simpa using ⟨(hhalt hh).2.1, (hhalt hh).2.2.1, (hhalt hh).2.2.2, (hhalt hh).1⟩)
        · exact .inr ⟨hv, by simpa [hi] using hh, by simpa using h1, by simpa using h2, by simpa using h3⟩
    all_goals first | rfl | (simp [f.x, f.busy, f.wl, f.membus, f.retired, f.cycles, f.halted, f.fault, f.dmem, f.code,
      f.params])

/-! ### Decode (R117 to R122) -/

theorem passesDecode_of_branch {p : Config.Params} {i : Instr} {f : Family} (h : i.family? = some f) : i.passesDecode p := by
  cases i <;> simp [Instr.family?] at h <;> exact ⟨rfl, rfl⟩

/-- What the Decode stage can do when it does not raise: nothing, stall, issue a branch, or issue with resolved operands. -/
theorem decodeStage_cases {s u : State} (h : decodeStage s = .next u) :
    (s.dl.valid = false ∧ u = s) ∨
    (s.dl.valid = true ∧ ∃ i, s.dl.instr? = some i ∧ i.passesDecode s.params ∧
      ((u = (s.at .decode).stall ∧ (s.operand i.operands.src1 s.dl.rs1Value = none ∨
          s.operand i.operands.src2 s.dl.rs2Value = none ∨ ∃ d ∈ i.operands.dests, s.isBusy d = true)) ∨
        (∃ f, i.family? = some f ∧ u = (((s.at .decode).insertBranch f).unstall).advanceDecode) ∨
        (∃ a b, i.family? = none ∧ s.operand i.operands.src1 s.dl.rs1Value = some a ∧
          s.operand i.operands.src2 s.dl.rs2Value = some b ∧ (∀ d ∈ i.operands.dests, s.isBusy d = false) ∧
          u = (s.at .decode).issue a b i.operands.dests))) := by
  rcases runStage_eq_next.1 h with ⟨hv, rfl⟩ | ⟨hv, i, hi, e⟩
  · exact .inl ⟨hv, rfl⟩
  · refine .inr ⟨hv, i, hi, ?_⟩
    rw [exec_decode i (s := s.at .decode) rfl] at e
    split at e
    · cases e
    next hr =>
      have hr' : i.refusedByDecode = false := by simpa using hr
      split at e
      next f hf =>
        cases e
        exact ⟨passesDecode_of_branch hf, .inr (.inl ⟨f, hf, rfl⟩)⟩
      next hf =>
        rcases decodeOperands_cases i.operands (s.at .decode) with ⟨f, hb, e'⟩ | ⟨hb, e', hs⟩ | ⟨a, b, hb, h1, h2, h3, e'⟩ <;>
          rw [e'] at e <;> cases e
        · exact ⟨⟨hr', hb⟩, .inl ⟨rfl, hs⟩⟩
        · exact ⟨⟨hr', hb⟩, .inr (.inr ⟨a, b, hf, h1, h2, h3, rfl⟩)⟩

/-! ### Fetch (R113 to R116) -/

/-- What Fetch does when it is enabled, not skipped and not held. -/
structure FetchDone (s u : State) : Prop where
  x : u.x = s.x
  busy : u.busy = s.busy
  cc : u.cc = s.cc
  xl : u.xl = s.xl
  ml : u.ml = s.ml
  wl : u.wl = s.wl
  exbus : u.exbus = s.exbus
  membus : u.membus = s.membus
  btb : u.btb = s.btb
  redirectPending : u.redirectPending = s.redirectPending
  retired : u.retired = s.retired
  cycles : u.cycles = s.cycles
  halted : u.halted = s.halted
  fault : u.fault = s.fault
  dmem : u.dmem = s.dmem
  code : u.code = s.code
  params : u.params = s.params
  dl : u.dl = fetchedLatch s.fl s.pc (s.codeRead s.pc) (btbLookup s.btb s.pc).isSome
  fl : u.fl = { u.dl with valid := decide (u.dl.instr? ≠ some .halt) }
  pc : u.pc = match btbLookup s.btb s.pc with | some e => e.target | none => s.params.s32 (s.pc.toInt + Config.ilen)

theorem fetchDeliver_done {s u : State} (hv : s.fl.valid = true) (h : fetchDeliver s.fetchFill = .next u) :
    FetchDone s u := by
  have fill : (s.fetchFill).fl = fetchedLatch s.fl s.pc (s.codeRead s.pc) (btbLookup s.btb s.pc).isSome := by
    unfold State.fetchFill; split <;> simp_all
  have fillPc : (s.fetchFill).pc =
      match btbLookup s.btb s.pc with | some e => e.target | none => s.params.s32 (s.pc.toInt + Config.ilen) := by
    unfold State.fetchFill; split <;> simp_all
  have cases2 : (u = (s.fetchFill.at .fetch).forwardFetch ∧ s.fetchFill.fl.instr? ≠ some .halt) ∨
      (u = (s.fetchFill.at .fetch).forwardFetch.stopFetch ∧ s.fetchFill.fl.instr? = some .halt) := by
    unfold fetchDeliver at h
    split at h
    next i hi =>
      rw [exec_fetch i (s := s.fetchFill.at .fetch) rfl] at h
      cases h
      by_cases hh : i = .halt
      · exact .inr ⟨by simp [hh], by rw [hi, hh]⟩
      · exact .inl ⟨by simp [hh], by rw [hi]; simpa using hh⟩
    next hi => cases h; exact .inl ⟨rfl, by simp [hi]⟩
  have validFill : s.fetchFill.fl.valid = true := by rw [fill]; simpa [fetchedLatch] using hv
  have eta : ∀ l : Latch, l.valid = true → l = { l with valid := true } := by
    intro l hl; cases l; simp_all
  rcases cases2 with ⟨rfl, hh⟩ | ⟨rfl, hh⟩
  all_goals
    constructor
    case dl => simpa using fill
    case pc => simpa using fillPc
    case fl => simp [hh, ← eta _ validFill]
    all_goals simp

/-- What the Fetch stage can do. -/
theorem fetchStage_cases {s u : State} (h : fetchStage s = .next u) :
    (s.fl.valid = false ∧ u = s) ∨
    (s.fl.valid = true ∧ s.redirectPending = true ∧ u = { s with redirectPending := false }) ∨
    (s.fl.valid = true ∧ s.redirectPending = false ∧ s.fl.stalled = true ∧ u = { s with fl := { s.fl with pc := s.pc } }) ∨
    (s.fl.valid = true ∧ s.redirectPending = false ∧ s.fl.stalled = false ∧ FetchDone s u) := by
  unfold fetchStage at h
  cases hv : s.fl.valid with
  | false => simp [hv] at h; exact .inl ⟨rfl, h.symm⟩
  | true =>
    cases hr : s.redirectPending with
    | true => simp [hv, hr] at h; exact .inr (.inl ⟨rfl, rfl, h.symm⟩)
    | false =>
      cases hs : s.fl.stalled with
      | true => simp [hv, hr, hs] at h; exact .inr (.inr (.inl ⟨rfl, rfl, rfl, by rw [← h]; simp [hv, hs]⟩))
      | false =>
        simp only [hv, hr, hs, Bool.not_true, Bool.false_eq_true, if_false] at h
        exact .inr (.inr (.inr ⟨rfl, rfl, rfl, fetchDeliver_done hv h⟩))

end Sys2Proof.Machine
end

