-- ==== Sys2Proof/Laws/Decode.lean ====
section
/-! SUPPORT. Laws of the word layout (spec/30_encoding.md R71, R72): the fields of a joined word, the word of its fields, the
mask of a joined word, and a field's value as a register index or an immediate and back. -/

namespace Sys2Proof

theorem joinFields_getLsbD (o : BitVec 5) (d s t : BitVec 4) (i : BitVec 15) (k : Nat) :
    (joinFields o d s t i).getLsbD k =
      if k < 15 then i.getLsbD k else if k < 19 then t.getLsbD (k - 15) else if k < 23 then s.getLsbD (k - 19)
      else if k < 27 then d.getLsbD (k - 23) else o.getLsbD (k - 27) := by
  unfold joinFields
  simp only [BitVec.getLsbD_append]
  by_cases h1 : k < 15
  · simp [h1]
  by_cases h2 : k < 19
  · simp [h1, h2, show k - 15 < 4 by omega]
  by_cases h3 : k < 23
  · simp [h1, h2, h3, show ¬ k - 15 < 4 by omega, show k - 15 - 4 = k - 19 by omega]
    intros; omega
  by_cases h4 : k < 27
  · simp [h1, h2, h3, h4, show ¬ k - 15 < 4 by omega, show ¬ k - 15 - 4 < 4 by omega,
      show k - 15 - 4 - 4 = k - 23 by omega]
    intros; omega
  · simp [h1, h2, h3, h4, show ¬ k - 15 < 4 by omega, show ¬ k - 15 - 4 < 4 by omega,
      show ¬ k - 15 - 4 - 4 < 4 by omega, show k - 15 - 4 - 4 - 4 = k - 27 by omega]

@[simp] theorem fieldOp_joinFields (o : BitVec 5) (d s t : BitVec 4) (i : BitVec 15) :
    fieldOp (joinFields o d s t i) = o := by
  apply BitVec.eq_of_getLsbD_eq
  intro k hk
  simp [fieldOp, joinFields_getLsbD, hk, show ¬ 27 + k < 15 by omega, show ¬ 27 + k < 19 by omega,
    show ¬ 27 + k < 23 by omega]

@[simp] theorem fieldRd_joinFields (o : BitVec 5) (d s t : BitVec 4) (i : BitVec 15) :
    fieldRd (joinFields o d s t i) = d := by
  apply BitVec.eq_of_getLsbD_eq
  intro k hk
  simp [fieldRd, joinFields_getLsbD, hk, show ¬ 23 + k < 15 by omega, show ¬ 23 + k < 19 by omega,
    show 23 + k < 27 by omega]

@[simp] theorem fieldRs1_joinFields (o : BitVec 5) (d s t : BitVec 4) (i : BitVec 15) :
    fieldRs1 (joinFields o d s t i) = s := by
  apply BitVec.eq_of_getLsbD_eq
  intro k hk
  simp [fieldRs1, joinFields_getLsbD, hk, show ¬ 19 + k < 15 by omega, show 19 + k < 23 by omega]

@[simp] theorem fieldRs2_joinFields (o : BitVec 5) (d s t : BitVec 4) (i : BitVec 15) :
    fieldRs2 (joinFields o d s t i) = t := by
  apply BitVec.eq_of_getLsbD_eq
  intro k hk
  simp [fieldRs2, joinFields_getLsbD, hk, show 15 + k < 19 by omega]

@[simp] theorem fieldImm_joinFields (o : BitVec 5) (d s t : BitVec 4) (i : BitVec 15) :
    fieldImm (joinFields o d s t i) = i := by
  apply BitVec.eq_of_getLsbD_eq
  intro k hk
  simp [fieldImm, joinFields_getLsbD, hk]

/-- R71: a word is its five fields. -/
theorem joinFields_fields (w : Word) :
    joinFields (fieldOp w) (fieldRd w) (fieldRs1 w) (fieldRs2 w) (fieldImm w) = w := by
  apply BitVec.eq_of_getLsbD_eq
  intro k hk
  rw [joinFields_getLsbD]
  simp only [fieldOp, fieldRd, fieldRs1, fieldRs2, fieldImm, BitVec.getLsbD_extractLsb']
  split
  · simp [*]
  split
  · simp [show k - 15 < 4 by omega, show 15 + (k - 15) = k by omega]
  split
  · simp [show k - 19 < 4 by omega, show 19 + (k - 19) = k by omega]
  split
  · simp [show k - 23 < 4 by omega, show 23 + (k - 23) = k by omega]
  · simp [show k - 27 < 5 by omega, show 27 + (k - 27) = k by omega]

/-- R75: a mask acts field by field. -/
theorem joinFields_and (o o' : BitVec 5) (d d' s s' t t' : BitVec 4) (i i' : BitVec 15) :
    joinFields o d s t i &&& joinFields o' d' s' t' i' =
      joinFields (o &&& o') (d &&& d') (s &&& s') (t &&& t') (i &&& i') := by
  apply BitVec.eq_of_getLsbD_eq
  intro k _
  simp only [BitVec.getLsbD_and, joinFields_getLsbD]
  repeat' split
  all_goals rfl

theorem joinFields_inj {o o' : BitVec 5} {d d' s s' t t' : BitVec 4} {i i' : BitVec 15} :
    joinFields o d s t i = joinFields o' d' s' t' i' ↔ o = o' ∧ d = d' ∧ s = s' ∧ t = t' ∧ i = i' := by
  constructor
  · intro h
    exact ⟨by simpa using congrArg fieldOp h, by simpa using congrArg fieldRd h, by simpa using congrArg fieldRs1 h,
      by simpa using congrArg fieldRs2 h, by simpa using congrArg fieldImm h⟩
  · rintro ⟨rfl, rfl, rfl, rfl, rfl⟩; rfl

/-- R72: a register index in `0..15` survives the 4-bit field. -/
theorem regOfField_ofInt {r : Int} (h : regOk r = true) : regOfField (BitVec.ofInt 4 r) = r := by
  simp only [regOk, decide_eq_true_eq] at h
  simp only [regOfField, BitVec.toNat_ofInt]
  omega

theorem ofInt_regOfField (f : BitVec 4) : BitVec.ofInt 4 (regOfField f) = f := by
  simp [regOfField]

theorem regOk_regOfField (f : BitVec 4) : regOk (regOfField f) = true := by
  have := f.isLt
  unfold regOk regOfField
  exact decide_eq_true (by omega)

/-- R72: an immediate in `-16384..16383` survives the 15-bit field. -/
theorem immOfField_setWidth {imm : Word} (h : immOk imm = true) : immOfField (imm.setWidth 15) = imm := by
  simp only [immOk, decide_eq_true_eq] at h
  apply BitVec.eq_of_toInt_eq
  rw [immOfField, BitVec.toInt_signExtend_of_le (by decide), BitVec.toInt_setWidth]
  have e : (imm.toNat : Int).bmod (2 ^ 15) = imm.toInt.bmod (2 ^ 15) := by
    rw [BitVec.toInt_eq_toNat_bmod]
    exact (Int.bmod_bmod_of_dvd (by decide)).symm
  rw [e]
  apply Int.bmod_eq_of_le <;> omega

theorem setWidth_immOfField (f : BitVec 15) : (immOfField f).setWidth 15 = f := by
  apply BitVec.eq_of_getLsbD_eq
  intro k hk
  simp [immOfField, BitVec.getLsbD_signExtend, hk]
  omega

theorem immOk_immOfField (f : BitVec 15) : immOk (immOfField f) = true := by
  have h1 := BitVec.le_toInt f
  have h2 := BitVec.toInt_lt (x := f)
  simp only [immOk, immOfField, decide_eq_true_eq, BitVec.toInt_signExtend_of_le (show 15 ≤ 32 by decide)]
  omega

end Sys2Proof
end

