-- ==== Sys2Proof/Laws/Memory.lean ====
section
/-! SUPPORT. Laws of data memory (spec/20_memory.md R55, R63): read after write, the canonical form, and that equal words
everywhere make equal memories. -/

namespace Sys2Proof.Machine

theorem Memory.read_cell (a k : Nat) (v : Word) :
    Memory.read (Memory.cell a v) k = if k = a then v else Config.dmemDefault := by
  unfold Memory.cell
  split
  next h => rw [Memory.read, h]; split <;> rfl
  next => simp only [Memory.read, eq_comm]

theorem Memory.read_cell_append (a k : Nat) (v : Word) (m : Memory) (h : Memory.read m a = Config.dmemDefault) :
    Memory.read (Memory.cell a v ++ m) k = if k = a then v else Memory.read m k := by
  unfold Memory.cell
  split
  next hv =>
    subst hv
    simp only [List.nil_append]
    split
    next e => rw [e, h]
    next => rfl
  next =>
    simp only [List.cons_append, List.nil_append, Memory.read, eq_comm]

theorem Memory.read_of_wfFrom {m : Memory} {lo a : Nat} (h : Memory.wfFrom lo m = true) (ha : a < lo) :
    Memory.read m a = Config.dmemDefault := by
  induction m generalizing lo with
  | nil => rfl
  | cons c m ih =>
    obtain ⟨k, w⟩ := c
    simp only [Memory.wfFrom, Bool.and_eq_true, decide_eq_true_eq] at h
    rw [Memory.read, if_neg (by omega)]
    exact ih h.2 (by omega)

theorem Memory.wfFrom_mono {m : Memory} {lo hi : Nat} (h : Memory.wfFrom hi m = true) (hl : lo ≤ hi) :
    Memory.wfFrom lo m = true := by
  cases m with
  | nil => rfl
  | cons c m =>
    obtain ⟨k, w⟩ := c
    simp only [Memory.wfFrom, Bool.and_eq_true, decide_eq_true_eq] at h ⊢
    exact ⟨⟨by omega, h.1.2⟩, h.2⟩

/-- R55: a read after a write. -/
theorem Memory.read_write {m : Memory} {lo : Nat} (h : Memory.wfFrom lo m = true) (a : Nat) (v : Word) (k : Nat) :
    Memory.read (Memory.write m a v) k = if k = a then v else Memory.read m k := by
  induction m generalizing lo with
  | nil => simpa [Memory.read, Memory.write] using Memory.read_cell a k v
  | cons c m ih =>
    obtain ⟨j, w⟩ := c
    simp only [Memory.wfFrom, Bool.and_eq_true, decide_eq_true_eq] at h
    unfold Memory.write
    split
    next hlt =>
      apply Memory.read_cell_append
      rw [Memory.read, if_neg (by omega)]
      exact Memory.read_of_wfFrom h.2 (by omega)
    next =>
      split
      next e =>
        rw [Memory.read_cell_append _ _ _ _ (Memory.read_of_wfFrom h.2 (by omega))]
        subst e
        by_cases hk : k = a
        · simp [hk]
        · rw [if_neg hk, if_neg hk, Memory.read, if_neg (Ne.symm hk)]
      next =>
        rw [Memory.read, ih h.2, Memory.read]
        by_cases hk : k = a
        · rw [if_pos hk, if_pos hk, if_neg (by omega)]
        · rw [if_neg hk, if_neg hk]

theorem Memory.wfFrom_cell_append {m : Memory} {lo a : Nat} (v : Word) (h : Memory.wfFrom (a + 1) m = true)
    (hl : lo ≤ a) : Memory.wfFrom lo (Memory.cell a v ++ m) = true := by
  unfold Memory.cell
  split
  next => exact Memory.wfFrom_mono h (by omega)
  next hv => simp [Memory.wfFrom, hl, hv, h]

theorem Memory.wfFrom_write {m : Memory} {lo : Nat} (h : Memory.wfFrom lo m = true) {a : Nat} (v : Word) (hl : lo ≤ a) :
    Memory.wfFrom lo (Memory.write m a v) = true := by
  induction m generalizing lo with
  | nil => simpa [Memory.write] using Memory.wfFrom_cell_append (m := []) v rfl hl
  | cons c m ih =>
    obtain ⟨j, w⟩ := c
    have h' := h
    simp only [Memory.wfFrom, Bool.and_eq_true, decide_eq_true_eq] at h'
    unfold Memory.write
    split
    next hlt =>
      apply Memory.wfFrom_cell_append v _ hl
      simp only [Memory.wfFrom, Bool.and_eq_true, decide_eq_true_eq]
      exact ⟨⟨by omega, h'.1.2⟩, h'.2⟩
    next =>
      split
      next e => subst e; exact Memory.wfFrom_cell_append v h'.2 hl
      next =>
        simp only [Memory.wfFrom, Bool.and_eq_true, decide_eq_true_eq]
        exact ⟨h'.1, ih h'.2 (by omega)⟩

/-- Every write keeps the canonical form. -/
theorem Memory.wf_write {m : Memory} (h : m.wf = true) (a : Nat) (v : Word) : (Memory.write m a v).wf = true :=
  Memory.wfFrom_write h v (Nat.zero_le a)

theorem Memory.read_write_same {m : Memory} (h : m.wf = true) (a : Nat) (v : Word) :
    Memory.read (Memory.write m a v) a = v := by simp [Memory.read_write h]

theorem Memory.read_write_other {m : Memory} (h : m.wf = true) {a k : Nat} (v : Word) (hk : k ≠ a) :
    Memory.read (Memory.write m a v) k = Memory.read m k := by simp [Memory.read_write h, hk]

theorem Memory.below_cell {n a : Nat} (v : Word) (h : a < n) : (Memory.cell a v).below n = true := by
  unfold Memory.cell; split <;> simp [Memory.below, h]

theorem Memory.below_append (m m' : Memory) (n : Nat) :
    Memory.below (m ++ m') n = (Memory.below m n && Memory.below m' n) := by simp [Memory.below]

/-- Every write of a word of data memory stays inside it. -/
theorem Memory.below_write {m : Memory} {n a : Nat} (h : m.below n = true) (v : Word) (ha : a < n) :
    (Memory.write m a v).below n = true := by
  induction m with
  | nil => exact Memory.below_cell v ha
  | cons c m ih =>
    obtain ⟨j, w⟩ := c
    have hc : Memory.below [(j, w)] n = true ∧ Memory.below m n = true := by
      have := Memory.below_append [(j, w)] m n
      simp only [List.singleton_append] at this
      rw [h] at this
      simpa using this.symm
    unfold Memory.write
    split
    · rw [Memory.below_append, Memory.below_cell v ha, h]; rfl
    · split
      · rw [Memory.below_append, Memory.below_cell v ha, hc.2]; rfl
      · have := Memory.below_append [(j, w)] (Memory.write m a v) n
        simp only [List.singleton_append] at this
        rw [this, hc.1, ih hc.2]; rfl

theorem Memory.ext_of_wfFrom {m m' : Memory} {lo lo' : Nat} (h : Memory.wfFrom lo m = true)
    (h' : Memory.wfFrom lo' m' = true) (e : ∀ a, Memory.read m a = Memory.read m' a) : m = m' := by
  induction m generalizing lo lo' m' with
  | nil =>
    cases m' with
    | nil => rfl
    | cons c m' =>
      obtain ⟨k, w⟩ := c
      simp only [Memory.wfFrom, Bool.and_eq_true, decide_eq_true_eq] at h'
      exact absurd (by simpa [Memory.read] using (e k).symm) h'.1.2
  | cons c m ih =>
    obtain ⟨k, w⟩ := c
    have h0 := h
    simp only [Memory.wfFrom, Bool.and_eq_true, decide_eq_true_eq] at h
    cases m' with
    | nil => exact absurd (by simpa [Memory.read] using e k) h.1.2
    | cons c' m' =>
      obtain ⟨k', w'⟩ := c'
      have h0' := h'
      simp only [Memory.wfFrom, Bool.and_eq_true, decide_eq_true_eq] at h'
      have hk : k = k' := by
        rcases Nat.lt_trichotomy k k' with hlt | heq | hgt
        · have := e k
          have hr : Memory.read ((k', w') :: m') k = Config.dmemDefault := by
            rw [Memory.read, if_neg (by omega)]; exact Memory.read_of_wfFrom h'.2 (by omega)
          rw [hr] at this
          exact absurd (by simpa [Memory.read] using this) h.1.2
        · exact heq
        · have := e k'
          have hr : Memory.read ((k, w) :: m) k' = Config.dmemDefault := by
            rw [Memory.read, if_neg (by omega)]; exact Memory.read_of_wfFrom h.2 (by omega)
          rw [hr] at this
          exact absurd (by simpa [Memory.read] using this.symm) h'.1.2
      subst hk
      have hw : w = w' := by simpa [Memory.read] using e k
      subst hw
      congr 1
      refine ih h.2 h'.2 fun a => ?_
      by_cases ha : a = k
      · subst ha; rw [Memory.read_of_wfFrom h.2 (by omega), Memory.read_of_wfFrom h'.2 (by omega)]
      · have := e a
        simpa [Memory.read, Ne.symm ha] using this

/-- Equal words everywhere make equal memories: the form is canonical. -/
theorem Memory.ext {m m' : Memory} (h : m.wf = true) (h' : m'.wf = true)
    (e : ∀ a, Memory.read m a = Memory.read m' a) : m = m' :=
  Memory.ext_of_wfFrom h h' e

theorem Memory.wf_ofWords (ws : List (Nat × Word)) : (Memory.ofWords ws).wf = true := by
  induction ws with
  | nil => rfl
  | cons c ws ih => obtain ⟨a, v⟩ := c; exact Memory.wf_write ih a v

theorem Memory.below_ofWords {ws : List (Nat × Word)} {n : Nat} (h : ∀ c ∈ ws, c.1 < n) :
    (Memory.ofWords ws).below n = true := by
  induction ws with
  | nil => rfl
  | cons c ws ih =>
    obtain ⟨a, v⟩ := c
    exact Memory.below_write (ih fun c hc => h c (by simp [hc])) v (h (a, v) (by simp))

/-- R63: a data index is an index of data memory. -/
theorem dataIndex?_lt {s : State} {a : Word} {k : Nat} (h : s.dataIndex? a = some k) : k < s.params.dmemWords := by
  unfold State.dataIndex? at h
  split at h
  · cases h; omega
  · cases h

theorem dataIndex?_congr {s t : State} (h : t.params = s.params) (a : Word) : t.dataIndex? a = s.dataIndex? a := by
  simp [State.dataIndex?, h]

end Sys2Proof.Machine
end

