-- ==== Sys2Proof/Laws/PerInstr.lean ====
section
/-! SUPPORT. The per-instruction law `EncodedOpcode`: the word of an instruction carries its opcode number in bits 31:27
(spec/30_encoding.md R71, R74), whatever its operands are. -/

namespace Sys2Proof.Laws

/-- R71, R74: the `op` field of the word is the opcode's number. -/
def EncodedOpcode.Statement (i : Instr) : Prop := i.opcode.number? = some (fieldOp (encode i)).toNat

/-- R71: the `op` field of a packed word. -/
theorem fieldOp_pack (n : Nat) (h : n < 32) (rd rs1 rs2 : Int) (imm : Word) :
    (fieldOp (pack n rd rs1 rs2 imm)).toNat = n := by
  simp [pack, Nat.mod_eq_of_lt h]

theorem EncodedOpcode.add (rd rs1 rs2 : Int) : EncodedOpcode.Statement (.add rd rs1 rs2) := by
  exact congrArg some (fieldOp_pack _ (by decide) ..).symm
theorem EncodedOpcode.sub (rd rs1 rs2 : Int) : EncodedOpcode.Statement (.sub rd rs1 rs2) := by
  exact congrArg some (fieldOp_pack _ (by decide) ..).symm
theorem EncodedOpcode.mul (rd rs1 rs2 : Int) : EncodedOpcode.Statement (.mul rd rs1 rs2) := by
  exact congrArg some (fieldOp_pack _ (by decide) ..).symm
theorem EncodedOpcode.div (rd rs1 rs2 : Int) (imm : Word) : EncodedOpcode.Statement (.div rd rs1 rs2 imm) := by
  exact congrArg some (fieldOp_pack _ (by decide) ..).symm
theorem EncodedOpcode.and (rd rs1 rs2 : Int) : EncodedOpcode.Statement (.and rd rs1 rs2) := by
  exact congrArg some (fieldOp_pack _ (by decide) ..).symm
theorem EncodedOpcode.or (rd rs1 rs2 : Int) : EncodedOpcode.Statement (.or rd rs1 rs2) := by
  exact congrArg some (fieldOp_pack _ (by decide) ..).symm
theorem EncodedOpcode.xor (rd rs1 rs2 : Int) : EncodedOpcode.Statement (.xor rd rs1 rs2) := by
  exact congrArg some (fieldOp_pack _ (by decide) ..).symm
theorem EncodedOpcode.movc (rd : Int) (imm : Word) : EncodedOpcode.Statement (.movc rd imm) := by
  exact congrArg some (fieldOp_pack _ (by decide) ..).symm
theorem EncodedOpcode.load (rd rs1 : Int) (imm : Word) : EncodedOpcode.Statement (.load rd rs1 imm) := by
  exact congrArg some (fieldOp_pack _ (by decide) ..).symm
theorem EncodedOpcode.store (rs1 rs2 : Int) (imm : Word) : EncodedOpcode.Statement (.store rs1 rs2 imm) := by
  exact congrArg some (fieldOp_pack _ (by decide) ..).symm
theorem EncodedOpcode.bz (imm : Word) : EncodedOpcode.Statement (.bz imm) := by
  exact congrArg some (fieldOp_pack _ (by decide) ..).symm
theorem EncodedOpcode.bnz (imm : Word) : EncodedOpcode.Statement (.bnz imm) := by
  exact congrArg some (fieldOp_pack _ (by decide) ..).symm
theorem EncodedOpcode.halt : EncodedOpcode.Statement .halt := by
  exact congrArg some (fieldOp_pack _ (by decide) ..).symm
theorem EncodedOpcode.addl (rd rs1 : Int) (imm : Word) : EncodedOpcode.Statement (.addl rd rs1 imm) := by
  exact congrArg some (fieldOp_pack _ (by decide) ..).symm
theorem EncodedOpcode.subl (rd rs1 : Int) (imm : Word) : EncodedOpcode.Statement (.subl rd rs1 imm) := by
  exact congrArg some (fieldOp_pack _ (by decide) ..).symm
theorem EncodedOpcode.loadp (rd rs1 : Int) (imm : Word) : EncodedOpcode.Statement (.loadp rd rs1 imm) := by
  exact congrArg some (fieldOp_pack _ (by decide) ..).symm
theorem EncodedOpcode.storep (rs1 rs2 : Int) (imm : Word) : EncodedOpcode.Statement (.storep rs1 rs2 imm) := by
  exact congrArg some (fieldOp_pack _ (by decide) ..).symm
theorem EncodedOpcode.cmp (rs1 rs2 : Int) : EncodedOpcode.Statement (.cmp rs1 rs2) := by
  exact congrArg some (fieldOp_pack _ (by decide) ..).symm
theorem EncodedOpcode.cml (rs1 : Int) (imm : Word) : EncodedOpcode.Statement (.cml rs1 imm) := by
  exact congrArg some (fieldOp_pack _ (by decide) ..).symm
theorem EncodedOpcode.bp (imm : Word) : EncodedOpcode.Statement (.bp imm) := by
  exact congrArg some (fieldOp_pack _ (by decide) ..).symm
theorem EncodedOpcode.bnp (imm : Word) : EncodedOpcode.Statement (.bnp imm) := by
  exact congrArg some (fieldOp_pack _ (by decide) ..).symm
theorem EncodedOpcode.jump (rs1 : Int) (imm : Word) : EncodedOpcode.Statement (.jump rs1 imm) := by
  exact congrArg some (fieldOp_pack _ (by decide) ..).symm
theorem EncodedOpcode.jalr (rd rs1 : Int) (imm : Word) : EncodedOpcode.Statement (.jalr rd rs1 imm) := by
  exact congrArg some (fieldOp_pack _ (by decide) ..).symm

end Sys2Proof.Laws
end

