-- ==== Sys2Proof/Laws/Sequential.lean ====
section
/-! SUPPORT. Laws of the sequential machine (spec/41_pipeline_stages.md R134). -/

namespace Sys2Proof.Machine.ArchState

/-- What is at a code address depends on the program and the parameters only. -/
theorem fetched_congr {a b : ArchState} (hc : b.code = a.code) (hp : b.params = a.params) (t : Word) :
    b.fetched t = a.fetched t := by
  simp [fetched, codeRead, hc, hp]

/-- A register read depends on the registers and the parameters only. -/
theorem get_congr {a b : ArchState} (hx : b.x = a.x) (hp : b.params = a.params) (r : Int) : b.get r = a.get r := by
  simp [get, hx, hp]

/-- A step runs the instruction at `spc`. -/
theorem step_of_ok {a : ArchState} {i : Instr} (hh : a.halted = false) (hf : a.fault = none)
    (h : a.fetched a.spc = .ok i) : a.step = a.effect i := by
  simp [step, hh, hf, h]

/-- A step takes the condition that Decode raises at `spc`. -/
theorem step_of_error {a : ArchState} {k : Fault} (hh : a.halted = false) (hf : a.fault = none)
    (h : a.fetched a.spc = .error k) : a.step = a.raise k := by
  simp [step, hh, hf, h]

end Sys2Proof.Machine.ArchState
end

