-- ==== Sys2Proof/Laws/Word.lean ====
section
/-! SUPPORT. Laws of `s32` and of the Words of `XLEN` bits (spec/00_scope.md R9). -/

namespace Sys2Proof.Config

/-- R9 on this hardware: with `XLEN = 32`, `s32(z)` is the pattern of `z` modulo `2^32`. -/
theorem s32_full {p : Params} (h : p.xlen.val = 32) (z : Int) : p.s32 z = word z := by
  unfold Params.s32 word
  rw [h]
  exact BitVec.signExtend_eq _

/-- R9: the signed value of `s32(z)` is that of the `XLEN` low bits of `z`. -/
theorem toInt_s32 (p : Params) (z : Int) : (p.s32 z).toInt = (BitVec.ofInt p.xlen.val z).toInt := by
  unfold Params.s32
  exact BitVec.toInt_signExtend_of_le p.xlen.2.2

/-- R9: `s32(z)` is a Word. -/
@[simp] theorem fits_s32 (p : Params) (z : Int) : p.fits (p.s32 z) = true := by
  simp only [Params.fits, beq_iff_eq]
  rw [toInt_s32]
  unfold Params.s32
  rw [BitVec.ofInt_toInt]

/-- R9: every pattern is a Word of 32 bits. -/
theorem fits_full {p : Params} (h : p.xlen.val = 32) (w : Word) : p.fits w = true := by
  simp [Params.fits, s32_full h, word]

/-- R9: a Word of `XLEN` bits is the sign extension of its low `XLEN` bits. -/
theorem fits_iff (p : Params) (w : Word) : p.fits w = true ↔ (w.setWidth p.xlen.val).signExtend 32 = w := by
  simp only [Params.fits, beq_iff_eq, Params.s32]
  rw [show BitVec.ofInt p.xlen.val w.toInt = w.setWidth p.xlen.val from BitVec.signExtend_eq_setWidth_of_le w p.xlen.2.2]

theorem fits_and {p : Params} {a b : Word} (ha : p.fits a = true) (hb : p.fits b = true) : p.fits (a &&& b) = true := by
  rw [fits_iff] at *
  rw [BitVec.setWidth_and, BitVec.signExtend_and, ha, hb]

theorem fits_or {p : Params} {a b : Word} (ha : p.fits a = true) (hb : p.fits b = true) : p.fits (a ||| b) = true := by
  rw [fits_iff] at *
  rw [BitVec.setWidth_or, BitVec.signExtend_or, ha, hb]

theorem fits_xor {p : Params} {a b : Word} (ha : p.fits a = true) (hb : p.fits b = true) : p.fits (a ^^^ b) = true := by
  rw [fits_iff] at *
  rw [BitVec.setWidth_xor, BitVec.signExtend_xor, ha, hb]

end Sys2Proof.Config
end

