-- ==== Sys2Proof/Tests/Slice0.lean ====
section
/-! SUPPORT. Tests: the well-formedness checks, decoding of words written out from spec/30_encoding.md and
spec/95_test_vectors.md 2.1, one stage of each instruction on values of spec/95_test_vectors.md 2.2 to 2.5, and for every
statement with hypotheses states and operands that meet them. -/

namespace Sys2Proof.Tests

open Sys2Proof Sys2Proof.Machine

/-! ### Well-formedness (R72): each check refuses an ill-formed term -/

theorem test_wf_refuses_bad_rd :
    [Instr.add 16 0 0, .sub 16 0 0, .mul 16 0 0, .div 16 0 0 0, .and 16 0 0, .or 16 0 0, .xor 16 0 0, .movc 16 0,
      .load 16 0 0, .addl 16 0 0, .subl 16 0 0, .loadp 16 0 0, .jalr 16 0 0].all (fun i => !i.wf) = true := by decide

theorem test_wf_refuses_bad_rs1 :
    [Instr.add 0 (-1) 0, .sub 0 (-1) 0, .mul 0 (-1) 0, .div 0 (-1) 0 0, .and 0 (-1) 0, .or 0 (-1) 0, .xor 0 (-1) 0,
      .load 0 (-1) 0, .store (-1) 0 0, .addl 0 (-1) 0, .subl 0 (-1) 0, .loadp 0 (-1) 0, .storep (-1) 0 0, .cmp (-1) 0,
      .cml (-1) 0, .jump (-1) 0, .jalr 0 (-1) 0].all (fun i => !i.wf) = true := by decide

theorem test_wf_refuses_bad_rs2 :
    [Instr.add 0 0 16, .sub 0 0 16, .mul 0 0 16, .div 0 0 16 0, .and 0 0 16, .or 0 0 16, .xor 0 0 16, .store 0 16 0,
      .storep 0 16 0, .cmp 0 16].all (fun i => !i.wf) = true := by decide

theorem test_wf_refuses_bad_imm :
    [Instr.div 0 0 0 16384, .movc 0 16384, .load 0 0 16384, .store 0 0 16384, .bz 16384, .bnz 16384, .addl 0 0 16384,
      .subl 0 0 16384, .loadp 0 0 16384, .storep 0 0 16384, .cml 0 16384, .bp 16384, .bnp 16384, .jump 0 16384,
      .jalr 0 0 16384, .movc 0 (word (-16385))].all (fun i => !i.wf) = true := by decide

theorem test_wf_accepts_the_limits :
    [Instr.movc 15 16383, .movc 0 (word (-16384)), .add 15 15 15, .halt].all Instr.wf = true := by decide

/-! ### Decoding (R71 to R76; words of 95_test_vectors.md 2.1, one of each family bit by bit) -/

theorem test_decode_three_register :
    decode 0b00000_0010_0000_0001_000000000000000 = .ok (.add 2 0 1) ∧ decode 0x09890000 = .ok (.sub 3 1 2) ∧
    decode 0x10090000 = .ok (.mul 0 1 2) ∧ decode 0x21890000 = .ok (.and 3 1 2) ∧
    decode 0x29890000 = .ok (.or 3 1 2) ∧ decode 0x31890000 = .ok (.xor 3 1 2) ∧
    decode 0x07FF8000 = .ok (.add 15 15 15) := by decide

theorem test_decode_register_literal :
    decode 0b01101_0001_0001_0000_111111111111001 = .ok (.addl 1 1 (word (-7))) ∧
    decode 0x71100001 = .ok (.subl 2 2 1) := by decide

theorem test_decode_move :
    decode 0b00111_1111_0000_0000_100000000000000 = .ok (.movc 15 (word (-16384))) ∧
    decode 0x38003FFF = .ok (.movc 0 16383) := by decide

theorem test_decode_compare :
    decode 0b10001_0000_0001_0010_000000000000000 = .ok (.cmp 1 2) ∧ decode 0x90180005 = .ok (.cml 3 5) := by decide

theorem test_decode_load_store :
    decode 0b01001_0000_0011_0100_000000000000001 = .ok (.store 3 4 1) ∧ decode 0x41080002 = .ok (.load 2 1 2) ∧
    decode 0x79087FFC = .ok (.loadp 2 1 (word (-4))) ∧ decode 0x801A0000 = .ok (.storep 3 4 0) := by decide

theorem test_decode_branch :
    decode 0b01011_0000_0000_0000_111111111111000 = .ok (.bnz (word (-8))) ∧ decode 0x50000008 = .ok (.bz 8) ∧
    decode 0x9800000C = .ok (.bp 12) ∧ decode 0xA0007FF4 = .ok (.bnp (word (-12))) := by decide

theorem test_decode_jump :
    decode 0b10110_0111_0101_0000_000000000000000 = .ok (.jalr 7 5 0) ∧ decode 0xA8280008 = .ok (.jump 5 8) := by decide

theorem test_decode_halt_and_div :
    decode 0b01100_0000_0000_0000_000000000000000 = .ok .halt ∧ decode 0x19088000 = .ok (.div 2 1 1 0) := by decide

theorem test_decode_rejects_by_name :
    decode 0x60000001 = .error (.mustBeZero 12) ∧ decode 0x50080008 = .error (.mustBeZero 10) ∧
    decode 0x38080005 = .error (.mustBeZero 7) ∧ decode 0xB8000000 = .error (.reservedNumber 23) ∧
    decode 0xF8000000 = .error (.reservedNumber 31) := by decide

theorem test_invalid_word_is_the_pseudo_opcode :
    (decodeRecord 0x60000001).opcode = .invalid ∧ decodeTableWord 32 0xB8000000 = none := by decide

/-! ### Small states -/

/-- What a field of the next state is. -/
def after {α : Type} (r : Result State) (f : State → α) : Option α :=
  match r with
  | .next t => some (f t)
  | _ => none

/-- The fatal condition raised, if one is. -/
def raised (r : Result State) : Option Fault :=
  match r with
  | .fault k => some k
  | _ => none

/-- An instruction latch at 4008. -/
def latch (o : Opcode) (rd rs1 rs2 : Int) (imm : Word) : Latch :=
  { Latch.empty with valid := true, pc := 4008, opcode := .op o, rd := rd, rs1 := rs1, rs2 := rs2, imm := imm }

/-- In Execute with operand values `a`, `b`. -/
def atX (a b : Word) : State :=
  { State.reset with
    stage := .execute
    xl := { latch .add 0 0 0 0 with rs1Value := a, rs2Value := b } }

/-- In Memory with data address `a` and the store value `v`; word 12 is 77. -/
def atM (a v : Word) : State :=
  { State.reset with
    stage := .memory
    ml := { latch .load 0 0 0 0 with memAddr := a, rs1Value := v, rs2Value := 20 }
    dmem := [(12, 77)] }

/-- In Writeback with result `r` and base value 8, registers 2 and 1 busy. -/
def atW (r : Word) : State :=
  { (State.reset.setBusy 2 true).setBusy 1 true with
    wl := { latch .add 0 0 0 0 with result := r, rs1Value := 8, rs2Value := 8 } }

/-- In Decode with `x[1] = 6`. -/
def atD : State := { State.reset.writeReg 1 6 with stage := .decode, dl := latch .add 1 1 1 0 }

/-- The result and the flags Execute leaves. -/
def resultAndFlags (t : State) : Word × CondCodes := (t.ml.result, t.cc)

def flagZ : CondCodes := ⟨true, false, false⟩
def flagP : CondCodes := ⟨false, true, false⟩
def flagN : CondCodes := ⟨false, false, true⟩

/-! ### ALU, move, compare (95_test_vectors.md 2.2) -/

theorem test_add_wraps : after (exec (.add 2 0 1) (atX 2147483647 1)) resultAndFlags = some (0x80000000, flagN) := by
  decide
theorem test_add_source_is_destination :
    after (exec (.add 1 1 1) atD) (fun t => (t.xl.rs1Value, t.xl.rs2Value, t.isBusy 1)) = some (6, 6, true) := by decide
theorem test_sub_order : after (exec (.sub 3 1 2) (atX 3 5)) resultAndFlags = some (word (-2), flagN) := by decide
theorem test_sub_wraps :
    after (exec (.sub 3 1 2) (atX (word (-2147483648)) 1)) resultAndFlags = some (2147483647, flagP) := by decide
theorem test_mul_wraps :
    after (exec (.mul 0 1 2) (atX 46341 46341)) resultAndFlags = some (word (-2147479015), flagN) := by decide
theorem test_mul_low_word_zero : after (exec (.mul 0 1 2) (atX 65536 65536)) resultAndFlags = some (0, flagZ) := by
  decide
theorem test_and : after (exec (.and 3 1 2) (atX 12 10)) resultAndFlags = some (8, flagP) := by decide
theorem test_or :
    after (exec (.or 3 1 2) (atX (word (-2147483648)) 1)) resultAndFlags = some (word (-2147483647), flagN) := by decide
theorem test_xor : after (exec (.xor 3 1 2) (atX 77 77)) resultAndFlags = some (0, flagZ) := by decide
theorem test_xor_sign :
    after (exec (.xor 3 1 2) (atX (word (-1)) 2147483647)) resultAndFlags = some (word (-2147483648), flagN) := by decide
theorem test_addl : after (exec (.addl 1 1 (word (-7))) (atX 7 0)) resultAndFlags = some (0, flagZ) := by decide
theorem test_subl :
    after (exec (.subl 2 2 1) (atX (word (-2147483648)) 0)) resultAndFlags = some (2147483647, flagP) := by decide
theorem test_movc_leaves_flags :
    after (exec (.movc 15 (word (-16384))) (atX 0 0)) resultAndFlags = some (word (-16384), ⟨false, false, false⟩) := by
  decide
theorem test_cmp_wraps : after (exec (.cmp 1 2) (atX (word (-2147483648)) 1)) State.cc = some flagP := by decide
theorem test_cmp_exact :
    after (exec (.cmp 1 2) { atX (word (-2147483648)) 1 with params := { Config.defaultParams with cmpExact := true } })
      State.cc = some flagN := by decide
theorem test_cml : after (exec (.cml 3 5) (atX 2 0)) State.cc = some flagN := by decide
theorem test_add_wraps_at_xlen_16 :
    after (exec (.add 2 0 1) { atX 32767 1 with params := { Config.defaultParams with xlen := ⟨16, by decide⟩ } })
      resultAndFlags = some (word (-32768), flagN) := by decide
theorem test_writeback_frees :
    after (exec (.add 2 0 1) (atW 15)) (fun t => (t.readReg? 2, t.isBusy 2, t.isBusy 1)) = some (some 15, false, true) := by
  decide

/-! ### Loads and stores (95_test_vectors.md 2.3) -/

theorem test_load_address : after (exec (.load 2 1 2) (atX 10 0)) (fun t => t.ml.memAddr) = some 12 := by decide
theorem test_load_reads :
    after (exec (.load 2 1 2) (atM 12 0)) (fun t => (t.wl.result, t.membus)) = some (77, [⟨2, 77⟩]) := by decide
theorem test_loadp_increments_by_four :
    after (exec (.loadp 2 1 (word (-4))) (atX 8 0)) (fun t => (t.ml.memAddr, t.exbus)) = some (4, [⟨1, 12⟩]) := by decide
theorem test_loadp_commits_both :
    after (exec (.loadp 2 1 0) (atW 5)) (fun t => (t.readReg? 2, t.readReg? 1, t.isBusy 1)) =
      some (some 5, some 12, false) := by decide
theorem test_store_base_is_rs2 : after (exec (.store 3 4 1) (atX 99 20)) (fun t => t.ml.memAddr) = some 21 := by decide
theorem test_store_writes :
    after (exec (.store 3 4 1) (atM 21 99)) (fun t => (t.dmem.read 21, t.dmem.read 12)) = some (99, 77) := by decide
theorem test_storep_pointer :
    after (exec (.storep 3 4 0) (atM 20 99)) (fun t => (t.dmem.read 20, t.membus)) = some (99, [⟨4, 24⟩]) := by decide
theorem test_storep_commits :
    after (exec (.storep 2 1 0) (atW 0)) (fun t => (t.readReg? 1, t.isBusy 1)) = some (some 12, false) := by decide
theorem test_load_past_the_end : raised (exec (.load 2 1 0) (atM 4096 0)) = some (.memoryAddressOutOfRange 4008 4096) := by decide
theorem test_store_below_zero : raised (exec (.store 1 1 (word (-1))) (atM (word (-1)) 0)) = some (.memoryAddressOutOfRange 4008 (word (-1))) := by decide

/-! ### Control transfers (95_test_vectors.md 2.4) -/

/-- The fetch address and the redirect flag. -/
def target (t : State) : Word × Bool := (t.pc, t.redirectPending)

theorem test_bz_on_z : after (exec (.bz 8) { atX 0 0 with cc := flagZ }) target = some (4016, true) := by decide
theorem test_bz_not_on_p : after (exec (.bz 8) { atX 0 0 with cc := flagP }) target = some (4000, false) := by decide
theorem test_bnz_on_p : after (exec (.bnz (word (-8))) { atX 0 0 with cc := flagP }) target = some (4000, true) := by
  decide
theorem test_bp_on_p : after (exec (.bp 12) { atX 0 0 with cc := flagP }) target = some (4020, true) := by decide
theorem test_bp_not_on_n : after (exec (.bp 12) { atX 0 0 with cc := flagN }) target = some (4000, false) := by decide
theorem test_bnp_on_n : after (exec (.bnp (word (-8))) { atX 0 0 with cc := flagN }) target = some (4000, true) := by
  decide
theorem test_bnp_mispredicted_taken :
    after (exec (.bnp 12) { atX 0 0 with cc := flagP, xl := { latch .bnp 0 0 0 12 with btbHit := true } }) target =
      some (4012, true) := by decide
theorem test_jump : after (exec (.jump 5 8) (atX 4000 0)) target = some (4008, true) := by decide
theorem test_jalr_target : after (exec (.jalr 7 5 0) (atX 4020 0)) target = some (4020, true) := by decide
theorem test_jalr_links :
    after (exec (.jalr 7 5 0) (atX 4020 0)) (fun t => (t.ml.result, t.exbus)) = some (4012, [⟨7, 4012⟩]) := by decide

/-! ### Halt and the refused forms (45_halt_and_reserved.md; 95_test_vectors.md 2.8) -/

theorem test_halt_stops_fetch : after (exec .halt { State.reset with stage := .fetch }) (fun t => t.fl.valid) = some false := by
  decide
theorem test_halt_retires : after (exec .halt (atW 0)) (fun t => (t.halted, t.retired)) = some (true, 1) := by decide
theorem test_div_is_refused_at_decode : raised (exec (.div 2 1 1 0) atD) = some (.invalidOpcode 4008 .div) := by decide
theorem test_div_is_fetched :
    after (exec (.div 2 1 1 0) { State.reset with stage := .fetch }) (fun t => t.dl.valid) = some true := by decide
theorem test_loadp_same_register : raised (exec (.loadp 1 1 0) atD) = some (.invalidOpcode 4008 .loadp) := by decide
theorem test_bad_register_index : raised (exec (.add 1 16 0) atD) = some (.registerIndexOutOfRange 4008 16) := by decide

theorem test_register_index_at_nreg_8 :
    raised (exec (.add 1 8 0) { atD with params := { Config.defaultParams with nreg := ⟨8, by decide⟩ } }) =
      some (.registerIndexOutOfRange 4008 8) := by decide

/-! ### BTB (95_test_vectors.md 2.5.2) -/

theorem test_lookup_needs_a_taken_resolution :
    btbLookup [⟨4016, 4024, true, 2, false, 1⟩] 4016 = none ∧ btbLookup [⟨4016, 4008, false, 1, true, 3⟩] 4016 = none := by
  decide
theorem test_lookup_hits :
    btbLookup [⟨4016, 4008, true, 2, true, 3⟩] 4016 = some ⟨4016, 4008, true, 2, true, 3⟩ := by decide

/-! ### One whole cycle -/

/-- The placed word is what the next step fetches. -/
theorem test_step_fetches_the_placed_word :
    after (step (State.reset.withFetchWord 32 0x41080002)) (fun t => (t.dl.valid, t.dl.instr?, t.pc)) =
      some (true, some (.load 2 1 2), 4004) := by decide

/-- R200: sequentially `HALT` changes only `halted` and `retired`. -/
theorem test_sequential_halt :
    (State.reset.archReset.effect .halt) = { State.reset.archReset with halted := true, retired := 1 } := by decide

/-! ### Witnesses: encoding -/

theorem witness_DecodeOfEncode : (Instr.storep 15 0 (word (-16384))).wf = true ∧ Instr.halt.wf = true := by decide
theorem witness_EncodeOfDecode : decode 0x3F804000 = .ok (.movc 15 (word (-16384))) := by decide
theorem witness_DecodeAgrees :
    ((⟨.halt, 0xFFFFFFFF, 0x60000000⟩ : OpcodeRow) ∈ opcodeRows ∧
      (⟨.halt, 0xFFFFFFFF, 0x60000000⟩ : OpcodeRow).admits 0x60000000 = true) ∧
    ∀ row ∈ opcodeRows, row.admits 0xB8000000 = false := by decide

/-! ### Witnesses: lifecycle and cycle -/

/-- A program: a move and `HALT`. -/
def program : List Record := [(Instr.movc 1 4).record, Instr.halt.record]

/-- The state right after it is loaded. -/
def loaded : State := { State.reset with code := program }

theorem loaded_is_initialized : State.initialize program Config.defaultParams [] = .ok loaded := by rfl

theorem witness_InitializeGivesTheResetState : program ≠ [] := by decide
theorem witness_FirstCycle :
    ∃ r rest s, State.initialize (r :: rest) Config.defaultParams [] = .ok s := ⟨_, _, _, loaded_is_initialized⟩
theorem witness_FirstCycle_halt : ∃ s, State.initialize [Instr.halt.record] Config.defaultParams [] = .ok s := ⟨_, rfl⟩
theorem witness_StepKeepsProgram : ∃ t, step loaded = .next t := ⟨_, rfl⟩
theorem witness_HaltedOrFaulted :
    { loaded with halted := true }.halted = true ∧ { loaded with fault := some (.codeAddressInvalid 4004) }.fault ≠ none := by
  decide

/-- A latch poisoned by a fetch from 4008. -/
def poisoned : Latch := { latch .add 0 0 0 0 with opcode := .badpc }

/-- A state whose Decode raises. -/
def raising : State := { loaded with dl := poisoned }

theorem witness_StepIsTheFiveStages_whole : loaded.running = true ∧ ∃ u v w d t,
    writebackStage { loaded with exbus := [], membus := [] } = .next u ∧ memoryStage u = .next v ∧ executeStage v = .next w ∧
      decodeStage w = .next d ∧ fetchStage d = .next t := ⟨rfl, _, _, _, _, _, rfl, rfl, rfl, rfl, rfl⟩
theorem witness_StepIsTheFiveStages_raises :
    raising.running = true ∧ cycleStages raising = .fault (.codeAddressInvalid 4008) :=
  ⟨by decide, rfl⟩
theorem witness_StepIsTheFiveStages_writeback : { loaded with wl := poisoned }.running = true ∧
    writebackStage { loaded with wl := poisoned, exbus := [], membus := [] } = .fault (.codeAddressInvalid 4008) :=
  ⟨by decide, rfl⟩
theorem witness_StepIsTheFiveStages_memory : { loaded with ml := poisoned }.running = true ∧
    ∃ u, writebackStage { loaded with ml := poisoned, exbus := [], membus := [] } = .next u ∧
      memoryStage u = .fault (.codeAddressInvalid 4008) := ⟨by decide, _, rfl, rfl⟩
theorem witness_StepIsTheFiveStages_execute : { loaded with xl := poisoned }.running = true ∧
    ∃ u v, writebackStage { loaded with xl := poisoned, exbus := [], membus := [] } = .next u ∧ memoryStage u = .next v ∧
      executeStage v = .fault (.codeAddressInvalid 4008) := ⟨by decide, _, _, rfl, rfl, rfl⟩
theorem witness_StepIsTheFiveStages_decode : raising.running = true ∧
    ∃ u v w, writebackStage { raising with exbus := [], membus := [] } = .next u ∧ memoryStage u = .next v ∧
      executeStage v = .next w ∧ decodeStage w = .fault (.codeAddressInvalid 4008) :=
  ⟨by decide, _, _, _, rfl, rfl, rfl, rfl⟩
theorem witness_StagesRun :
    (decodeStage, Stage.decode, raising.dl) ∈ [(writebackStage, Stage.writeback, raising.wl), (memoryStage, .memory, raising.ml),
      (executeStage, .execute, raising.xl), (decodeStage, .decode, raising.dl)] ∧ loaded.dl.valid = false ∧
    (latch .halt 0 0 0 0).instr? = some .halt ∧ (latch .halt 0 0 0 0).valid = true ∧
    (raising.dl.valid = true ∧ raising.dl.opcode = .badpc) ∧ (latch (.unknown 24) 0 0 0 0).opcode = .op (.unknown 24) ∧
    (latch .invalid 0 0 0 0).opcode = .op .invalid := by
  refine ⟨by simp, ?_⟩
  decide

/-- `MOVC R1,#4` alone in code memory. -/
def oneWord : State := State.reset.withFetchWord 32 0x38800004

theorem witness_StepFetchesAndRuns : ∃ u, oneWord.running = true ∧ decode 0x38800004 = .ok (.movc 1 4) ∧
    oneWord.codeRead oneWord.pc = some (decodeRecord 0x38800004) ∧ backEnd oneWord = .next u ∧ u.fl.valid = true ∧
    u.redirectPending = false ∧ u.fl.stalled = false :=
  ⟨_, by decide, by decide, by decide, rfl, by decide, by decide, by decide⟩

/-- `MOVC` in Writeback. -/
def retiring : State := { loaded.setBusy 1 true with wl := { latch .movc 1 0 0 4 with result := 4 } }

theorem witness_StepCounts_bubble : loaded.running = true ∧ (∃ t, step loaded = .next t ∧ t.fault = none) ∧
    loaded.wl.valid = false := ⟨by decide, ⟨_, rfl, rfl⟩, by decide⟩
theorem witness_StepCounts_retires : retiring.running = true ∧ (∃ t, step retiring = .next t ∧ t.fault = none) ∧
    retiring.wl.valid = true := ⟨by decide, ⟨_, rfl, rfl⟩, by decide⟩

theorem witness_StepCounts_nothing : { loaded with halted := true }.running = false ∧
    ∃ t, step raising = .next t ∧ t.fault ≠ none := ⟨by decide, _, rfl, nofun⟩

/-! ### Witnesses: Fetch and Decode -/

/-- A BTB with a predictive hit for 4000. -/
def hitting : State := { loaded with btb := [⟨4000, 4004, true, 3, true, 1⟩] }

theorem witness_FetchFollows :
    ({ loaded with fl := Latch.empty }.fl.valid = false) ∧
    (loaded.fl.valid = true ∧ { loaded with redirectPending := true }.redirectPending = true) ∧
    { loaded with fl := { loaded.fl with stalled := true } }.fl.stalled = true ∧
    (loaded.redirectPending = false ∧ loaded.fl.stalled = false ∧ (loaded.codeRead loaded.pc).isSome = true ∧
      State.reset.codeRead State.reset.pc = none) ∧
    btbLookup loaded.btb loaded.pc = none ∧ (btbLookup hitting.btb hitting.pc).isSome = true := by decide

theorem witness_FetchForwards : { loaded with stage := .fetch }.stage = .fetch ∧ Instr.movc 1 4 ≠ .halt := by decide

/-- Register 1 on both buses, 2 on `MEMBUS`, 3 busy. -/
def buses : State := { atD.setBusy 3 true with exbus := [⟨1, 7⟩], membus := [⟨1, 8⟩, ⟨2, 9⟩] }

theorem witness_Resolve :
    busFind buses.exbus 1 = some 7 ∧ (busFind buses.exbus 2 = none ∧ busFind buses.membus 2 = some 9) ∧
    (busFind buses.exbus 0 = none ∧ busFind buses.membus 0 = none ∧ buses.isBusy 0 = false ∧ buses.readReg? 0 = some 0) ∧
    (busFind buses.exbus 3 = none ∧ busFind buses.membus 3 = none ∧ buses.isBusy 3 = true) := by decide

theorem witness_Stalls : buses.stage = .decode ∧ (Instr.add 4 3 3).passesDecode Config.defaultParams ∧ (Instr.add 4 3 3).family? = none ∧
    buses.resolve 3 = none ∧ (Instr.add 3 1 1).passesDecode Config.defaultParams ∧ buses.isBusy 3 = true := by
  refine ⟨by decide, ⟨by decide, by decide⟩, by decide, by decide, ⟨by decide, by decide⟩, by decide⟩

theorem witness_DecodeRefusals : atD.stage = .decode ∧ (Instr.add 1 0 16).refusedByDecode = false ∧
    (Instr.add 1 0 16).operands.fields = [0] ++ 16 :: [1] ∧ (Instr.add (-1) 15 0).operands.fields = [15, 0] ++ (-1) :: [] := by
  decide

theorem witness_DivStops : atD.stage ≠ .fetch ∧ (atX 0 0).stage ≠ .fetch ∧ (atM 0 0).stage ≠ .fetch ∧
    (atW 0).stage ≠ .fetch := by decide

/-! ### Witnesses: completion -/

theorem witness_ResultInstructions : atD.params.hasRegister 15 = true ∧ atD.params.hasRegister 0 = true ∧ atD.resolve 0 = some 0 ∧ atD.resolve 1 = some 6 ∧
    atD.isBusy 15 = false := by decide
theorem witness_CompareInstructions : atD.params.hasRegister 1 = true ∧ atD.resolve 1 = some 6 ∧ atD.params.cmpExact = false ∧
    { Config.defaultParams with cmpExact := true }.cmpExact = true := by decide
theorem witness_LoadInstructions_last_word : atD.resolve 1 = some 6 ∧ atD.isBusy 2 = false ∧ atD.isBusy 1 = false ∧
    (4095 : Word) = atD.params.s32 ((6 : Word).toInt + (4089 : Word).toInt) ∧ 0 ≤ (4095 : Word).toInt ∧
    (4095 : Word).toInt < atD.params.dmemWords ∧ (10 : Word) = atD.params.s32 ((6 : Word).toInt + atD.params.ptrInc) := by decide
theorem witness_StoreInstructions_first_word : atD.dmem.wf = true ∧ atD.resolve 1 = some 6 ∧ atD.isBusy 1 = false ∧
    (0 : Word) = atD.params.s32 ((6 : Word).toInt + (word (-6)).toInt) ∧ 0 ≤ (0 : Word).toInt ∧
    (0 : Word).toInt < atD.params.dmemWords ∧ (10 : Word) = atD.params.s32 ((6 : Word).toInt + atD.params.ptrInc) := by decide

/-- `LOAD R2,R1,#0` in Memory with address `a`, at a cycle boundary. -/
def addressing (a : Word) : State := { loaded with ml := { latch .load 2 1 0 0 with memAddr := a } }

theorem witness_DataAddressOutOfRange_past : ∃ s v, s.stage = .memory ∧ (s.params.dmemWords : Int) ≤ s.ml.memAddr.toInt ∧
    s.ml.valid = true ∧ s.ml.instr? = some (.load 2 1 0) ∧ (addressing 4096).running = true ∧
    writebackStage { addressing 4096 with exbus := [], membus := [] } = .next v ∧ s = v.at .memory :=
  ⟨(addressing 4096).at .memory, addressing 4096, by decide, by decide, by decide, by decide, by decide, rfl, rfl⟩
theorem witness_DataAddressOutOfRange_below : (addressing (word (-1))).ml.memAddr.toInt < 0 ∧ (atX 0 0).stage = .execute := by
  decide
theorem witness_DataMemory : Memory.wf [(0, 5), (4095, 1)] = true ∧ Memory.wf [] = true := by decide
theorem witness_Branches : { atD with cc := flagZ }.cc.z = true ∧ atD.cc.z = false ∧ atD.dl.btbHit = false ∧
    { latch .bz 0 0 0 8 with btbHit := true }.btbHit = true := by decide
theorem witness_Jumps : atD.params.hasRegister 1 = true ∧ atD.resolve 1 = some 6 ∧ atD.params.hasRegister 7 = true ∧ atD.isBusy 7 = false := by decide

/-- `JUMP` in Execute, an `ADD` in Decode. -/
def jumping : State :=
  { loaded with xl := { latch .jump 0 5 0 8 with rs1Value := 4000 }, dl := latch .add 3 1 1 0 }

theorem witness_Flush_jump : jumping.running = true ∧ jumping.flushTarget? = some 4008 ∧
    jumping.xl.instr? = some (.jump 5 8) ∧ (Instr.jump 5 8).family? = none ∧ ∃ t, step jumping = .next t ∧ t.fault = none :=
  ⟨by decide, by decide, by decide, by decide, _, rfl, rfl⟩

/-- `JALR` in Execute. -/
def linking : State := { jumping with xl := { latch .jalr 7 5 0 8 with rs1Value := 4000 } }

theorem witness_Flush_jalr : linking.running = true ∧ linking.flushTarget? = some 4008 ∧
    ∃ t, step linking = .next t ∧ t.fault = none := ⟨by decide, by decide, _, rfl, rfl⟩

/-- A conditional branch in Execute, its condition and what Fetch did being as given. -/
def branching (o : Opcode) (c : CondCodes) (hit : Bool) : State :=
  { jumping with xl := { latch o 0 0 0 8 with btbHit := hit }, cc := c }

theorem witness_Flush_taken : ∀ e ∈ [(Opcode.bz, flagZ), (.bnz, flagP), (.bp, flagP), (.bnp, flagN)],
    (branching e.1 e.2 false).running = true ∧ (branching e.1 e.2 false).flushTarget? = some 4016 ∧
    after (step (branching e.1 e.2 false)) State.fault = some none := by decide

theorem witness_Flush_notTaken : ∀ e ∈ [(Opcode.bz, flagP), (.bnz, flagZ), (.bp, flagN), (.bnp, flagP)],
    (branching e.1 e.2 true).running = true ∧ (branching e.1 e.2 true).flushTarget? = some 4012 ∧
    after (step (branching e.1 e.2 true)) State.fault = some none := by decide

/-! ### Witnesses: BTB -/

/-- Four entries at 4000 to 4012. -/
def full : List BtbEntry := [⟨4000, 0, true, 3, false, 0⟩, ⟨4004, 0, false, 0, false, 0⟩, ⟨4008, 0, true, 3, false, 0⟩,
  ⟨4012, 0, false, 0, false, 0⟩]

theorem witness_HistoryCounter : [0, 1, 2, 3].all (fun h => decide (h ≤ 3)) = true ∧
    (⟨4016, 0, true, 3, false, 0⟩ : BtbEntry).hist = 3 := by decide
theorem witness_Insertion : (∃ e ∈ full, e.addr = 4000) ∧ (∀ e ∈ full, e.addr ≠ 4016) ∧ full.length = 4 ∧
    (∀ e ∈ full.tail, e.addr ≠ 4016) ∧ full.tail.length ≠ 4 := by decide
theorem witness_Resolution : full[3]? = some ⟨4012, 0, false, 0, false, 0⟩ ∧
    (⟨4012, 0, false, 0, false, 0⟩ : BtbEntry).addr ≠ 4000 := by decide
theorem witness_Ring :
    (BtbRing.ok ⟨Vector.replicate 4 ⟨0, 0, false, 0, false, 0⟩, 3, 0, 1⟩) = true ∧
    (BtbRing.ok ⟨Vector.replicate 4 ⟨0, 0, false, 0, false, 0⟩, 1, 1, 4⟩) = true := by decide

/-! ### Witnesses: hazards and invariants -/

/-- No register is busy right after loading. -/
theorem loaded_is_free (r : Int) : loaded.isBusy r = false := by
  unfold State.isBusy
  split
  · simp [loaded, State.reset, Vector.get_eq_getElem]
  · rfl

/-- The invariant of a state with the program `code`, one instruction behind Decode, the registers it writes busy, and an
instruction in Decode. -/
theorem inv_of_one {s : State} {l : Latch} {i : Instr} (fl : s.inFlight = [l]) (hd : s.dl.valid = true)
    (hi : l.instr? = some i) (hp : i.passesDecode Config.defaultParams)
    (hs : s = { loaded.markBusy i.operands.dests with code := s.code, xl := s.xl, ml := s.ml, wl := s.wl, dl := s.dl }) :
    s.Inv := by
  have ok : ∀ r ∈ i.operands.dests, (loaded.params.regIndex? r).isSome = true := fun r hr => isSome_of_mem_dests hp.2 hr
  have hparams : s.params = Config.defaultParams := by rw [hs]; exact State.markBusy_params _ _
  have busy : ∀ r, s.isBusy r = decide (r ∈ i.operands.dests) := by
    intro r
    have := isBusy_markBusy loaded i.operands.dests r ok
    rw [isBusy_congr (s := loaded.markBusy i.operands.dests) (t := s) (by rw [hs]) r
      (hparams.trans (State.markBusy_params loaded _).symm), this, loaded_is_free, Bool.or_false]
  have hcc : s.cc = loaded.cc := by rw [hs]; exact State.markBusy_cc _ _
  have hbtb : s.btb = [] := by rw [hs]; exact State.markBusy_btb _ _
  have hdmem : s.dmem = [] := by rw [hs]; exact State.markBusy_dmem _ _
  refine
    { exbusEmpty := by rw [hs]; exact State.markBusy_exbus _ _, membusEmpty := by rw [hs]; exact State.markBusy_membus _ _,
      stageFirst := by rw [hs]; exact State.markBusy_stage _ _, busyExact := ?_, oneWriter := by simp [fl],
      supported := ?_, flagsExclusive := by rw [hcc]; exact ⟨rfl, rfl, rfl⟩, btbSize := by simp [hbtb],
      btbUnique := by simp [hbtb], btbOk := by simp [hbtb],
      noRedirect := by rw [hs]; exact State.markBusy_redirectPending _ _, holdNeedsStall := by simp [hd],
      memoryWf := by rw [hdmem]; rfl, memoryBelow := by rw [hdmem]; rfl }
  · intro r; simp [busy, fl, Latch.dests_of_instr? hi]
  · intro m hm
    rw [fl] at hm
    cases List.mem_singleton.1 hm
    exact ⟨i, hi, hparams ▸ hp⟩

/-- `x` in Execute, writing the registers `ds`, with `d` behind it. -/
def behind (ds : List Int) (x d : Latch) : State := { loaded.markBusy ds with xl := x, dl := d }

/-- 95_test_vectors.md 2.6.1: `LOAD R1,R2,#0` in Execute, `ADD R3,R1,R1` in Decode. -/
def loadUse : State := behind [1] (latch .load 1 2 0 0) (latch .add 3 1 1 0)

theorem loadUse_inv : loadUse.Inv :=
  inv_of_one (i := .load 1 2 0) (by rfl) rfl rfl ⟨rfl, by decide⟩ rfl

theorem witness_LoadUse : loadUse.Inv ∧ loadUse.HaltInv ∧ loadUse.running = true ∧ loadUse.xl.valid = true ∧
    loadUse.xl.instr? = some (.load 1 2 0) ∧ loadUse.dl.valid = true ∧ loadUse.dl.instr? = some (.add 3 1 1) ∧
    (Instr.add 3 1 1).passesDecode Config.defaultParams ∧ (Instr.add 3 1 1).operands.reads 1 ∧
    (∀ d ∈ (Instr.add 3 1 1).operands.dests, d ∉ loadUse.xl.dests) ∧
    (0 : Int) = (loadUse.params.s32 (loadUse.xl.rs1Value.toInt + (0 : Word).toInt)).toInt ∧
    ∃ t u, step loadUse = .next t ∧ t.fault = none ∧ step t = .next u ∧ u.fault = none :=
  ⟨loadUse_inv, ⟨by decide, by decide, by decide, by decide, by decide⟩, by decide, by decide, by decide, by decide, by decide,
    ⟨by decide, by decide⟩, .inl rfl, by decide,
    by decide, _, _, rfl, rfl, rfl, rfl⟩

/-- `LOADP R1,R2,#0` in Execute, `STORE R4,R1,#0` in Decode: the loaded register is the second source. -/
def loadpUse : State := behind [1, 2] (latch .loadp 1 2 0 0) (latch .store 0 4 1 0)

theorem witness_LoadUse_loadp : loadpUse.Inv ∧ loadpUse.HaltInv ∧ loadpUse.running = true ∧ loadpUse.xl.valid = true ∧
    loadpUse.xl.instr? = some (.loadp 1 2 0) ∧ loadpUse.dl.valid = true ∧ loadpUse.dl.instr? = some (.store 4 1 0) ∧
    (Instr.store 4 1 0).passesDecode Config.defaultParams ∧ (Instr.store 4 1 0).operands.src2 = some 1 ∧
    ∃ t u, step loadpUse = .next t ∧ t.fault = none ∧ step t = .next u ∧ u.fault = none :=
  ⟨inv_of_one (i := .loadp 1 2 0) (by rfl) rfl rfl ⟨rfl, by decide⟩ rfl,
    ⟨by decide, by decide, by decide, by decide, by decide⟩, by decide, by decide, by decide, by decide,
    by decide, ⟨by decide, by decide⟩, by decide, _, _, rfl, rfl, rfl, rfl⟩

/-- `SUB R1,R2,R3` in Execute, `STORE R4,R1,#0` in Decode. -/
def aluUse : State := behind [1] (latch .sub 1 2 3 0) (latch .store 0 4 1 0)

theorem witness_AluForward : aluUse.Inv ∧ aluUse.running = true ∧ aluUse.xl.valid = true ∧
    aluUse.xl.instr? = some (.sub 1 2 3) ∧ aluUse.dl.valid = true ∧ aluUse.dl.instr? = some (.store 4 1 0) ∧
    (Instr.store 4 1 0).passesDecode Config.defaultParams ∧ (Instr.store 4 1 0).operands.reads 1 ∧
    (Instr.store 4 1 0).operands.dests = [] ∧ ∃ t, step aluUse = .next t ∧ t.fault = none :=
  ⟨inv_of_one (i := .sub 1 2 3) (by rfl) rfl rfl ⟨rfl, by decide⟩ rfl, by decide, by decide, by decide, by decide,
    by decide, ⟨by decide, by decide⟩, .inr rfl, by decide, _, rfl, rfl⟩

/-- `MOVC R1,#4` in Memory, `ADD R3,R1,R1` in Decode. -/
def memUse : State := { loaded.markBusy [1] with ml := { latch .movc 1 0 0 4 with result := 4 }, dl := latch .add 3 1 1 0 }

theorem not_waits_of_no_execute {s : State} {i : Instr} (hx : s.xl.valid = false)
    (hm : s.ml.valid = false ∨ ∀ d ∈ i.operands.dests, d ∉ s.ml.dests) : ¬s.Waits i := by
  rintro (⟨_, _, _, _, h, -⟩ | ⟨d, hd, ⟨h, -⟩ | ⟨h, hm'⟩⟩)
  · simp [hx] at h
  · simp [hx] at h
  · rcases hm with hm | hm
    · simp [hm] at h
    · exact hm d hd hm'

theorem witness_AluForward_memory : memUse.Inv ∧ memUse.running = true ∧ memUse.dl.valid = true ∧
    memUse.dl.instr? = some (.add 3 1 1) ∧ (Instr.add 3 1 1).passesDecode Config.defaultParams ∧
    (Instr.add 3 1 1).operands.reads 1 ∧ memUse.flushTarget? = none ∧ ¬memUse.Waits (.add 3 1 1) ∧ memUse.ml.valid = true ∧
    memUse.ml.instr? = some (.movc 1 4) ∧ ∃ t, step memUse = .next t ∧ t.fault = none :=
  ⟨inv_of_one (i := .movc 1 4) (by rfl) rfl rfl ⟨rfl, by decide⟩ rfl, by decide, by decide, by decide,
    ⟨by decide, by decide⟩, .inl rfl, by decide, not_waits_of_no_execute rfl (.inr (by decide)), by decide, by decide, _,
    rfl, rfl⟩

/-- The `MOVC` in Writeback. -/
def registerUse : State :=
  { loaded.markBusy [1] with wl := { latch .movc 1 0 0 4 with result := 4 }, dl := latch .add 3 1 1 0 }

theorem witness_AluForward_writeback : registerUse.Inv ∧ registerUse.running = true ∧ registerUse.flushTarget? = none ∧
    ¬registerUse.Waits (.add 3 1 1) ∧ registerUse.wl.valid = true ∧ registerUse.wl.instr? = some (.movc 1 4) ∧
    ∃ t, step registerUse = .next t ∧ t.fault = none :=
  ⟨inv_of_one (i := .movc 1 4) (by rfl) rfl rfl ⟨rfl, by decide⟩ rfl, by decide, by decide,
    not_waits_of_no_execute rfl (.inl rfl), by decide, by decide, _, rfl, rfl⟩

/-- `JALR R1,R2,#4000` in Execute, a wrong-path `DIV` in Decode, `ADD R3,R1,R1` at the target. -/
def linkUse : State :=
  { behind [1] (latch .jalr 1 2 0 4000) (latch .div 0 0 0 0) with code := [(Instr.add 3 1 1).record] }

theorem witness_AluForward_jalr : linkUse.Inv ∧ linkUse.HaltInv ∧ linkUse.running = true ∧ linkUse.xl.valid = true ∧
    linkUse.xl.instr? = some (.jalr 1 2 4000) ∧ ∃ u v t, step linkUse = .next u ∧ step u = .next v ∧ v.dl.valid = true ∧
      v.dl.instr? = some (.add 3 1 1) ∧ (Instr.add 3 1 1).passesDecode Config.defaultParams ∧
      (Instr.add 3 1 1).operands.reads 1 ∧ step v = .next t ∧ t.fault = none :=
  ⟨inv_of_one (i := .jalr 1 2 4000) (by rfl) rfl rfl ⟨rfl, by decide⟩ rfl,
    ⟨by decide, by decide, by decide, by decide, by decide⟩, by decide, by decide, by decide, _, _, _, rfl, rfl,
    by rfl, by rfl, ⟨by decide, by decide⟩, .inl rfl, rfl, by rfl⟩

/-- `ADD R3,R1,R1` in Decode, nothing ahead. -/
def alone : State := { loaded with dl := latch .add 3 1 1 0 }

theorem witness_DecodeIssues : alone.Inv ∧ alone.running = true ∧ alone.xl.valid = false ∧ alone.ml.valid = false ∧
    alone.dl.valid = true ∧ alone.dl.instr? = some (.add 3 1 1) ∧ (Instr.add 3 1 1).passesDecode Config.defaultParams := by
  have free : ∀ r, alone.isBusy r = false := loaded_is_free
  have fl : alone.inFlight = [] := by rfl
  refine ⟨?_, by decide, by decide, by decide, by decide, by decide, by decide, by decide⟩
  exact
    { exbusEmpty := rfl, membusEmpty := rfl, stageFirst := rfl, busyExact := by simp [free, fl], oneWriter := by simp [fl],
      supported := by simp [fl], flagsExclusive := ⟨rfl, rfl, rfl⟩, btbSize := Nat.zero_le _, btbUnique := List.nodup_nil,
      btbOk := nofun, noRedirect := rfl, holdNeedsStall := fun _ => rfl, memoryWf := rfl, memoryBelow := rfl }

/-- `LOAD R1,R2,#0` in Execute, `ADD R3,R4,R5` in Decode: they share no register. -/
def apart : State := behind [1] (latch .load 1 2 0 0) (latch .add 3 4 5 0)

theorem witness_DecodeIssues_apart : apart.Inv ∧ apart.running = true ∧ apart.dl.valid = true ∧
    apart.dl.instr? = some (.add 3 4 5) ∧ (Instr.add 3 4 5).passesDecode Config.defaultParams ∧ apart.flushTarget? = none ∧
    (∀ l ∈ [apart.xl, apart.ml], l.valid = true → ∀ r ∈ l.dests, r ∉ (Instr.add 3 4 5).operands.fields) ∧
    apart.xl.valid = true ∧ ∃ t, step apart = .next t ∧ t.fault = none :=
  ⟨inv_of_one (i := .load 1 2 0) (by rfl) rfl rfl ⟨rfl, by decide⟩ rfl, by decide, by decide, by decide,
    ⟨by decide, by decide⟩, by decide, by decide, by decide, _, rfl, rfl⟩

theorem witness_DecodeWaits_source : loadUse.Inv ∧ loadUse.flushTarget? = none ∧ loadUse.Waits (.add 3 1 1) ∧
    ∃ t, step loadUse = .next t ∧ t.fault = none :=
  ⟨loadUse_inv, by decide, .inl ⟨1, 2, 0, .inl rfl, by decide, .inl (by decide)⟩, _, rfl, rfl⟩

/-- `MOVC R1,#1` in Memory, `MOVC R1,#2` in Decode. -/
def rewrite : State := { loaded.markBusy [1] with ml := latch .movc 1 0 0 1, dl := latch .movc 1 0 0 2 }

theorem witness_DecodeWaits_destination : rewrite.Inv ∧ rewrite.flushTarget? = none ∧ rewrite.Waits (.movc 1 2) ∧
    ∃ t, step rewrite = .next t ∧ t.fault = none :=
  ⟨inv_of_one (i := .movc 1 1) (by rfl) rfl rfl ⟨rfl, by decide⟩ rfl, by decide, .inr ⟨1, by decide, .inr (by decide)⟩, _,
    rfl, rfl⟩

theorem witness_StagesWrite : (∃ t, exec (.movc 1 4) { alone with stage := .decode } = .next t) ∧
    (∃ t, exec (.movc 1 4) (atX 0 0) = .next t) ∧ (∃ t, exec (.movc 1 4) (atM 0 0) = .next t) ∧
    (∃ t, exec (.movc 1 4) (atW 0) = .next t) ∧ (∃ t, exec (.movc 1 4) { alone with stage := .fetch } = .next t) ∧
    (∃ t, fetchStage loaded = .next t) ∧ ∃ t, fetchStage { loaded with redirectPending := true } = .next t :=
  ⟨⟨_, rfl⟩, ⟨_, rfl⟩, ⟨_, rfl⟩, ⟨_, rfl⟩, ⟨_, rfl⟩, ⟨_, rfl⟩, ⟨_, rfl⟩⟩

/-- `MOVC` in Memory. -/
def passing : State := { loaded.setBusy 1 true with ml := latch .movc 1 0 0 4 }

theorem witness_InstructionsAdvance : loadUse.running = true ∧ loadUse.xl.valid = true ∧
    (∃ t, step loadUse = .next t ∧ t.fault = none) ∧ passing.running = true ∧ passing.ml.valid = true ∧
    ∃ t, step passing = .next t ∧ t.fault = none :=
  ⟨by decide, by decide, ⟨_, rfl, rfl⟩, by decide, by decide, _, rfl, rfl⟩

theorem witness_StepKeepsTheInvariant : loadUse.Inv ∧ ∃ t, step loadUse = .next t := ⟨loadUse_inv, _, rfl⟩

/-- `HALT` in Execute, nothing behind it. -/
def halting : State := { loaded with fl := Latch.empty, xl := { latch .halt 0 0 0 0 with pc := 4004 } }

theorem witness_StepKeepsTheHaltInvariant : halting.HaltInv ∧ halting.xl.instr? = some .halt ∧ ∃ t, step halting = .next t :=
  ⟨⟨by decide, by decide, by decide, by decide, by decide⟩, by decide, _, rfl⟩

theorem witness_StepKeepsTheProgramInvariant : halting.ProgramInv ∧ ∃ t, step halting = .next t := by
  refine ⟨⟨nofun, ?_, nofun, nofun, nofun, nofun, ?_⟩, _, rfl⟩
  · intro _; exact ⟨rfl, rfl, rfl, rfl, rfl⟩
  · rintro _ ⟨i, hi, hf⟩
    cases (show some .halt = some i from hi)
    cases hf

/-- A launch with Words of 16 bits. -/
def narrow : State := { loaded with params := { Config.defaultParams with xlen := ⟨16, by decide⟩ } }

theorem witness_StepKeepsWords : narrow.WordsFit ∧ ∃ t, step narrow = .next t := by
  have latches : ∀ l ∈ [narrow.fl, narrow.dl, narrow.xl, narrow.ml, narrow.wl],
      (narrow.params.fits l.pc && narrow.params.fits l.imm && narrow.params.fits l.rs1Value && narrow.params.fits l.rs2Value &&
        narrow.params.fits l.result && narrow.params.fits l.memAddr) = true := by decide
  have latch : ∀ l ∈ [narrow.fl, narrow.dl, narrow.xl, narrow.ml, narrow.wl], l.Fits narrow.params := by
    intro l hl
    have h := latches l hl
    simp only [Bool.and_eq_true] at h
    exact ⟨h.1.1.1.1.1, h.1.1.1.1.2, h.1.1.1.2, h.1.1.2, h.1.2, h.2⟩
  have zero : narrow.params.fits 0 = true := by decide
  refine ⟨⟨?_, by decide, latch _ (by simp), latch _ (by simp), latch _ (by simp), latch _ (by simp), latch _ (by simp), nofun,
    nofun, by decide⟩, _, rfl⟩
  intro r v h
  unfold State.readReg? at h
  obtain ⟨k, -, rfl⟩ := Option.map_eq_some_iff.1 h
  rw [show narrow.x.get k = 0 by simp [narrow, loaded, State.reset, Vector.get_eq_getElem]]
  exact zero

/-- The sequential machine retires `HALT` as its second instruction. -/
theorem witness_PipelineEnds : State.initialize program Config.defaultParams [] = .ok loaded ∧
    ((ArchState.step^[2]) loaded.archReset).halted = true ∧ ((ArchState.step^[2]) loaded.archReset).retired = 2 :=
  ⟨loaded_is_initialized, by decide, by decide⟩

theorem witness_PipelineFaults : ∃ s, State.initialize [(Instr.div 2 1 1 0).record] Config.defaultParams [] = .ok s ∧
    ((ArchState.step^[1]) s.archReset).fault = some (.invalidOpcode 4000 .div) := ⟨_, rfl, by decide⟩

/-- 95_test_vectors.md 2.8, F3: the core's Decode finds the `DIV` behind the load first. -/
theorem witness_PipelineFaults_imprecise :
    ∃ s t, State.initialize [(Instr.movc 1 5000).record, (Instr.load 2 1 0).record, (Instr.div 3 1 1 0).record,
        Instr.halt.record] Config.defaultParams [] = .ok s ∧
      ((ArchState.step^[2]) s.archReset).fault = some (.memoryAddressOutOfRange 4004 5000) ∧
      ((ArchState.step^[2]) s.archReset).fetched (s.params.s32 ((4004 : Word).toInt + 4)) = .error (.invalidOpcode 4008 .div) ∧
      Sys2Proof.core.run 4 s = .next t ∧ t.halted = false ∧ t.fault = some (.invalidOpcode 4008 .div) ∧ t.cycles = 3 :=
  ⟨_, _, rfl, by decide, by decide, rfl, by rfl, by rfl, by rfl⟩

/-- `JUMP R0,#4000` at 4000. -/
def spinning : State := { State.reset with code := [(Instr.jump 0 4000).record] }

theorem witness_PipelineRunsForEver :
    State.initialize [(Instr.jump 0 4000).record] Config.defaultParams [] = .ok spinning ∧
    ∀ n, ((ArchState.step^[n]) spinning.archReset).halted = false ∧ ((ArchState.step^[n]) spinning.archReset).fault = none := by
  have here : spinning.archReset.fetched 4000 = .ok (.jump 0 4000) := by rfl
  have base : spinning.archReset.get 0 = 0 := by decide
  have there : effectiveAddress Config.defaultParams 0 4000 = 4000 := by decide
  have once : ∀ r, ArchState.step { spinning.archReset with spc := 4000, retired := r } =
      { spinning.archReset with spc := 4000, retired := r + 1 } := by
    intro r
    rw [ArchState.step_of_ok (i := .jump 0 4000) (by rfl) (by rfl)
      ((ArchState.fetched_congr (a := spinning.archReset) (by rfl) (by rfl) _).trans here)]
    simp only [ArchState.effect, ArchState.goTo]
    rw [ArchState.get_congr (a := spinning.archReset) (by rfl) (by rfl), base]
    exact congrArg (fun t => { spinning.archReset with spc := t, retired := r + 1 }) there
  have loop : ∀ n, ∃ r, (ArchState.step^[n]) spinning.archReset = { spinning.archReset with spc := 4000, retired := r } := by
    intro n
    induction n with
    | zero => exact ⟨0, by rw [show (4000 : Word) = spinning.archReset.spc from by decide]; rfl⟩
    | succ n ih =>
      obtain ⟨r, h⟩ := ih
      exact ⟨r + 1, by rw [Function.iterate_succ_apply', h, once]⟩
  refine ⟨rfl, fun n => ?_⟩
  obtain ⟨r, h⟩ := loop n
  rw [h]
  exact ⟨rfl, rfl⟩

end Sys2Proof.Tests
end

/-! SUPPORT. Proofs for spec/00_scope.md: the Words of `XLEN` bits (R9) through every stage, and the invariants at
reset (R37). -/

namespace Sys2Proof.Config

/-- R9, R72: the range of a 15-bit immediate lies within the Words of every `XLEN`. -/
theorem fits_of_immOk (p : Params) {w : Word} (h : immOk w = true) : p.fits w = true := by
  have range : -16384 ≤ w.toInt ∧ w.toInt ≤ 16383 := by simpa [immOk] using h
  have width : 2 ^ 15 ≤ 2 ^ p.xlen.val := Nat.pow_le_pow_right (by decide) p.xlen.2.1
  simp only [Params.fits, beq_iff_eq]
  apply BitVec.eq_of_toInt_eq
  rw [toInt_s32, BitVec.toInt_ofInt]
  apply Int.bmod_eq_of_le <;> omega

@[simp] theorem fits_zero (p : Params) : p.fits 0#32 = true := fits_of_immOk p (by decide)

end Sys2Proof.Config

namespace Sys2Proof.Machine

open Sys2Proof.Config

/-! ### The Words of a state within a cycle (R9)

`State.WordsFit` is of cycle boundaries, where the buses are empty. Decode takes operands from the buses, so within a cycle
their values belong to the invariant. -/

/-- R9 within a cycle: the state's Words and the values on the buses have `XLEN` bits. -/
structure State.MidCycleFit (s : State) : Prop extends s.WordsFit where
  exbus : ∀ p ∈ s.exbus, s.params.fits p.value = true
  membus : ∀ p ∈ s.membus, s.params.fits p.value = true

/-- Latches with the same Words fit together: the operand indices, the opcode and the marks do not count. -/
theorem Latch.Fits.congr {p : Params} {l m : Latch} (h : l.Fits p) (pc : m.pc = l.pc := by rfl)
    (imm : m.imm = l.imm := by rfl) (rs1Value : m.rs1Value = l.rs1Value := by rfl)
    (rs2Value : m.rs2Value = l.rs2Value := by rfl) (result : m.result = l.result := by rfl)
    (memAddr : m.memAddr = l.memAddr := by rfl) : m.Fits p :=
  ⟨pc ▸ h.pc, imm ▸ h.imm, rs1Value ▸ h.rs1Value, rs2Value ▸ h.rs2Value, result ▸ h.result, memAddr ▸ h.memAddr⟩

/-- R70: the immediate of the instruction in a latch is the latch's, or 0. -/
theorem Latch.Fits.instrImm {p : Params} {l : Latch} {i : Instr} (h : l.Fits p) (hi : l.instr? = some i) :
    p.fits i.record.imm = true := by
  unfold Latch.instr? at hi
  split at hi
  · unfold Record.instr? at hi
    split at hi <;> cases hi <;> first | exact h.imm | exact fits_zero p
  · cases hi

/-- R55: a memory of Words reads Words. -/
theorem Memory.read_fits {p : Params} {m : Memory} (h : ∀ c ∈ m, p.fits c.2 = true) (a : Nat) :
    p.fits (m.read a) = true := by
  induction m with
  | nil => exact fits_zero p
  | cons c m ih =>
    rw [Memory.read]
    split
    · exact h c (by simp)
    · exact ih fun d hd => h d (by simp [hd])

theorem Memory.mem_cell {a : Nat} {v : Word} {c : Nat × Word} (h : c ∈ Memory.cell a v) : c = (a, v) := by
  unfold Memory.cell at h
  split at h <;> simp_all

/-- R55: what a write leaves listed was listed before, or is the written word. -/
theorem Memory.mem_write {m : Memory} {a : Nat} {v : Word} {c : Nat × Word} (h : c ∈ m.write a v) :
    c ∈ m ∨ c = (a, v) := by
  induction m with
  | nil => exact .inr (Memory.mem_cell h)
  | cons d m ih =>
    obtain ⟨k, w⟩ := d
    unfold Memory.write at h
    split at h
    · rcases List.mem_append.1 h with h | h
      · exact .inr (Memory.mem_cell h)
      · exact .inl h
    · split at h
      · rcases List.mem_append.1 h with h | h
        · exact .inr (Memory.mem_cell h)
        · exact .inl (List.mem_cons_of_mem _ h)
      · rcases List.mem_cons.1 h with rfl | h
        · exact .inl List.mem_cons_self
        · exact (ih h).imp_left (List.mem_cons_of_mem _)

/-- R37: what `DMEM_INIT` leaves listed is one of its words. -/
theorem Memory.mem_ofWords {ws : List (Nat × Word)} {c : Nat × Word} (h : c ∈ Memory.ofWords ws) : c ∈ ws := by
  induction ws with
  | nil => exact h
  | cons d ws ih =>
    rcases Memory.mem_write h with h | rfl
    · exact List.mem_cons_of_mem _ (ih h)
    · exact List.mem_cons_self

/-- R119: a bus of Words gives Words. -/
theorem busFind_fits {p : Params} {bus : List BusPair} (h : ∀ q ∈ bus, p.fits q.value = true) {r : Int} {v : Word}
    (e : busFind bus r = some v) : p.fits v = true := by
  obtain ⟨q, hq, rfl⟩ := Option.map_eq_some_iff.1 e
  exact h q (List.mem_of_find?_eq_some hq)

/-! ### One rule per state operation: what it writes fits, so the state does -/

namespace State.MidCycleFit

variable {s : State}

theorem advanceDecode (h : s.MidCycleFit) : s.advanceDecode.MidCycleFit :=
  { h with xl := h.dl, dl := h.dl.congr }

theorem advanceExecute (h : s.MidCycleFit) : s.advanceExecute.MidCycleFit :=
  { h with ml := h.xl, xl := h.xl.congr }

theorem advanceMemory (h : s.MidCycleFit) : s.advanceMemory.MidCycleFit :=
  { h with wl := h.ml, ml := h.ml.congr }

theorem retire (h : s.MidCycleFit) : s.retire.MidCycleFit :=
  { h with wl := h.wl.congr }

theorem halt (h : s.MidCycleFit) : s.halt.MidCycleFit := { h with }

theorem enterStage (h : s.MidCycleFit) (g : Stage) : (s.at g).MidCycleFit := { h with }

theorem forwardFetch (h : s.MidCycleFit) : s.forwardFetch.MidCycleFit := { h with dl := h.fl }

theorem stopFetch (h : s.MidCycleFit) : s.stopFetch.MidCycleFit := { h with fl := h.fl.congr }

theorem driveExbus (h : s.MidCycleFit) {ps : List BusPair} (hps : ∀ p ∈ ps, s.params.fits p.value = true) :
    (s.driveExbus ps).MidCycleFit :=
  { h with exbus := fun p hp => (List.mem_append.1 hp).elim (h.exbus p) (hps p) }

theorem driveMembus (h : s.MidCycleFit) {ps : List BusPair} (hps : ∀ p ∈ ps, s.params.fits p.value = true) :
    (s.driveMembus ps).MidCycleFit :=
  { h with membus := fun p hp => (List.mem_append.1 hp).elim (h.membus p) (hps p) }

theorem setResult (h : s.MidCycleFit) {r : Word} (hr : s.params.fits r = true) : (s.setResult r).MidCycleFit :=
  { h with xl := { h.xl with result := hr } }

theorem setMemAddr (h : s.MidCycleFit) {a : Word} (ha : s.params.fits a = true) : (s.setMemAddr a).MidCycleFit :=
  { h with xl := { h.xl with memAddr := ha } }

theorem setLoaded (h : s.MidCycleFit) {v : Word} (hv : s.params.fits v = true) : (s.setLoaded v).MidCycleFit :=
  { h with ml := { h.ml with result := hv } }

theorem setFlags (h : s.MidCycleFit) (c : CondCodes) : (s.setFlags c).MidCycleFit := { h with }

theorem flagsWhen (h : s.MidCycleFit) (on : Bool) (r : Word) : (s.flagsWhen on r).MidCycleFit := by
  cases on
  · exact h
  · exact h.setFlags _

theorem flush (h : s.MidCycleFit) {t : Word} (ht : s.params.fits t = true) : (s.flush t).MidCycleFit :=
  { h with pc := ht, dl := h.dl.congr, fl := h.fl.congr }

theorem stall (h : s.MidCycleFit) : s.stall.MidCycleFit :=
  { h with dl := h.dl.congr, fl := h.fl.congr }

theorem unstall (h : s.MidCycleFit) : s.unstall.MidCycleFit :=
  { h with dl := h.dl.congr, fl := h.fl.congr }

theorem setOperands (h : s.MidCycleFit) {a b : Word} (ha : s.params.fits a = true) (hb : s.params.fits b = true) :
    (s.setOperands a b).MidCycleFit :=
  { h with dl := { h.dl with rs1Value := ha, rs2Value := hb } }

theorem setBusy (h : s.MidCycleFit) (r : Int) (b : Bool) : (s.setBusy r b).MidCycleFit := by
  unfold State.setBusy
  split
  · exact { h with }
  · exact h

theorem markBusy (h : s.MidCycleFit) (rs : List Int) : (s.markBusy rs).MidCycleFit := by
  induction rs generalizing s with
  | nil => exact h
  | cons r rs ih => exact ih (h.setBusy r true)

theorem issue (h : s.MidCycleFit) {a b : Word} (ha : s.params.fits a = true) (hb : s.params.fits b = true)
    (ds : List Int) : (s.issue a b ds).MidCycleFit :=
  ((h.setOperands ha hb).markBusy ds).unstall.advanceDecode

/-- R94: an inserted entry starts with the branch's address and target 0. -/
theorem insertBranch (h : s.MidCycleFit) (f : Family) : (s.insertBranch f).MidCycleFit :=
  { h with
    dl := h.dl.congr
    entries := fun e he => by
      rcases mem_btbInsert he with he | rfl
      · exact h.entries e he
      · cases f <;> exact ⟨h.dl.pc, fits_zero _⟩ }

/-- R96: the update writes the taken-target. -/
theorem resolveBranch (h : s.MidCycleFit) (taken : Bool) {t : Word} (ht : s.params.fits t = true) :
    (s.resolveBranch taken t).MidCycleFit :=
  { h with
    entries := fun e he => by
      obtain ⟨d, hd, rfl⟩ := List.mem_map.1 he
      split
      · exact ⟨(h.entries d hd).1, ht⟩
      · exact h.entries d hd }

theorem writeReg (h : s.MidCycleFit) (r : Int) {v : Word} (hv : s.params.fits v = true) :
    (s.writeReg r v).MidCycleFit := by
  have registers : ∀ q w, (s.writeReg r v).readReg? q = some w → s.params.fits w = true := by
    intro q w e
    by_cases hq : q = r
    · subst hq
      have named : (s.params.regIndex? q).isSome := by simpa [e] using (readReg?_isSome (s.writeReg q v) q).symm
      rw [readReg?_writeReg_same s v named] at e
      cases e
      exact hv
    · rw [readReg?_writeReg_other s v hq] at e
      exact h.registers q w e
  unfold State.writeReg at registers ⊢
  split
  next k hk =>
    rw [hk] at registers
    exact { h with registers }
  next => exact h

theorem commit (h : s.MidCycleFit) (r : Int) {v : Word} (hv : s.params.fits v = true) :
    (s.commit r v).MidCycleFit :=
  (h.writeReg r hv).setBusy r false

theorem commitAll (h : s.MidCycleFit) {ws : List BusPair} (hws : ∀ p ∈ ws, s.params.fits p.value = true) :
    (s.commitAll ws).MidCycleFit := by
  induction ws generalizing s with
  | nil => exact h
  | cons p ps ih =>
    refine ih (h.commit p.reg (hws p (by simp))) fun q hq => ?_
    simpa using hws q (by simp [hq])

theorem memWrite (h : s.MidCycleFit) (k : Nat) {v : Word} (hv : s.params.fits v = true) :
    ({ s with dmem := s.dmem.write k v } : State).MidCycleFit :=
  { h with
    data := fun c hc => by
      rcases Memory.mem_write hc with hc | rfl
      · exact h.data c hc
      · exact hv }

/-- R116: Fetch reads a record of the program, or `BADPC` with immediate 0. -/
theorem latchFetched (h : s.MidCycleFit) (hit : Bool) :
    (fetchedLatch s.fl s.pc (s.codeRead s.pc) hit).Fits s.params where
  pc := h.pc
  imm := by
    unfold fetchedLatch
    cases e : s.codeRead s.pc with
    | none => exact fits_zero _
    | some r =>
      obtain ⟨k, -, hk⟩ := Option.bind_eq_some_iff.1 e
      exact h.immediates r (List.mem_of_getElem? hk)
  rs1Value := fits_zero _
  rs2Value := fits_zero _
  result := fits_zero _
  memAddr := fits_zero _

theorem fetchFill (h : s.MidCycleFit) : s.fetchFill.MidCycleFit := by
  unfold State.fetchFill
  split
  next e he => exact { h with fl := h.latchFetched true, pc := (h.entries e (List.mem_of_find?_eq_some he)).2 }
  next => exact { h with fl := h.latchFetched false, pc := fits_s32 _ _ }

/-! ### Operand resolution (R119) -/

theorem resolve (h : s.MidCycleFit) {r : Int} {v : Word} (e : s.resolve r = some v) : s.params.fits v = true := by
  unfold State.resolve at e
  split at e
  next he => cases e; exact busFind_fits h.exbus he
  next =>
    split at e
    next hm => cases e; exact busFind_fits h.membus hm
    next =>
      split at e
      · cases e
      · exact h.registers r v e

theorem operand (h : s.MidCycleFit) {src : Option Int} {old v : Word} (ho : s.params.fits old = true)
    (e : s.operand src old = some v) : s.params.fits v = true := by
  cases src with
  | none => cases e; exact ho
  | some r => exact h.resolve e

end State.MidCycleFit

/-! ### The stages -/

/-- R9 for the answer of a stage: the Words and bus values of the next state, if there is one, have `XLEN` bits. -/
def ResultFits (r : Result State) : Prop := ∀ t, r = .next t → t.MidCycleFit

theorem resultFits_next {t : State} (h : t.MidCycleFit) : ResultFits (.next t) := by
  rintro _ ⟨⟩
  exact h

theorem resultFits_fault (k : Fault) : ResultFits (.fault k) := by
  rintro _ ⟨⟩

theorem resultFits_andThen {r : Result State} {f : State → Result State} (hr : ResultFits r)
    (hf : ∀ s : State, s.MidCycleFit → ResultFits (f s)) : ResultFits (andThen r f) := by
  intro t h
  obtain ⟨s, hs, ht⟩ := andThen_eq_next.1 h
  exact hf s (hr s hs) t ht

/-- R111: a stage keeps what its instructions keep. -/
theorem resultFits_runStage {g : Stage} {l : Latch} {s : State} (h : s.MidCycleFit)
    (he : ∀ i, l.instr? = some i → ResultFits (exec i (s.at g))) : ResultFits (runStage g l s) := by
  intro t e
  rcases runStage_eq_next.1 e with ⟨-, rfl⟩ | ⟨-, i, hi, e⟩
  · exact h
  · exact he i hi t e

section
variable {s : State} (h : s.MidCycleFit)
include h

/-! #### Writeback (R130) -/

theorem writebackCommit_fits {ws : List BusPair} (hws : ∀ p ∈ ws, s.params.fits p.value = true) :
    ResultFits (writebackCommit ws s) :=
  resultFits_next (h.commitAll hws).retire

theorem exec_writeback_fits (i : Instr) : ResultFits (exec i (s.at .writeback)) := by
  have entered := h.enterStage .writeback
  cases i
  case div => exact resultFits_fault _
  case halt => exact resultFits_next entered.halt.retire
  case loadp => exact writebackCommit_fits entered (by simp [h.wl.result, State.pointer])
  case storep => exact writebackCommit_fits entered (by simp [State.pointer])
  all_goals exact writebackCommit_fits entered (by simp [h.wl.result])

/-! #### Memory (R128, R129) -/

theorem memoryPass_fits {ps : List BusPair} (hps : ∀ p ∈ ps, s.params.fits p.value = true) :
    ResultFits (memoryPass ps s) :=
  resultFits_next (h.driveMembus hps).advanceMemory

theorem memoryLoad_fits {ps : Word → List BusPair}
    (hps : ∀ v, s.params.fits v = true → ∀ p ∈ ps v, s.params.fits p.value = true) :
    ResultFits (memoryLoad ps s) := by
  rcases memoryLoad_cases ps s with ⟨v, hv, e⟩ | ⟨-, e⟩ <;> rw [e]
  · obtain ⟨k, -, rfl⟩ := Option.map_eq_some_iff.1 hv
    have loaded := Memory.read_fits h.data k
    exact resultFits_next ((h.setLoaded loaded).driveMembus (hps _ loaded)).advanceMemory
  · exact resultFits_fault _

theorem memoryStore_fits {ps : List BusPair} (hps : ∀ p ∈ ps, s.params.fits p.value = true) :
    ResultFits (memoryStore ps s) := by
  rcases memoryStore_cases ps s with ⟨k, -, e⟩ | ⟨-, e⟩ <;> rw [e]
  · exact resultFits_next ((h.memWrite k h.ml.rs1Value).driveMembus hps).advanceMemory
  · exact resultFits_fault _

theorem exec_memory_fits (i : Instr) : ResultFits (exec i (s.at .memory)) := by
  have entered := h.enterStage .memory
  cases i
  case div => exact resultFits_fault _
  case load => exact memoryLoad_fits entered (by simp)
  case loadp => exact memoryLoad_fits entered (by simp +contextual [State.pointer])
  case store => exact memoryStore_fits entered (by simp)
  case storep => exact memoryStore_fits entered (by simp [State.pointer])
  all_goals exact memoryPass_fits entered (by simp [h.ml.result])

/-! #### Execute (R123 to R127) -/

theorem executeResult_fits (rd : Int) {r : Word} (on : Bool) (hr : s.params.fits r = true) :
    ResultFits (executeResult rd r on s) :=
  resultFits_next (((h.setResult hr).flagsWhen on r).driveExbus (by simpa using hr)).advanceExecute

theorem executeCompare_fits (a b : Word) : ResultFits (executeCompare a b s) :=
  resultFits_next (h.setFlags _).advanceExecute

theorem executeAddress_fits (base imm : Word) {ps : List BusPair} (hps : ∀ p ∈ ps, s.params.fits p.value = true) :
    ResultFits (executeAddress base imm ps s) :=
  resultFits_next ((h.setMemAddr (fits_s32 _ _)).driveExbus hps).advanceExecute

theorem executeBranch_fits (taken : Bool) (imm : Word) : ResultFits (executeBranch taken imm s) := by
  have resolved := h.resolveBranch taken (t := s.branchTarget imm) (fits_s32 _ _)
  unfold executeBranch
  split
  · refine resultFits_next (resolved.flush ?_).advanceExecute
    cases taken <;> exact fits_s32 _ _
  · exact resultFits_next resolved.advanceExecute

theorem executeJump_fits (imm : Word) : ResultFits (executeJump imm s) :=
  resultFits_next (h.flush (fits_s32 _ _)).advanceExecute

theorem executeJumpLink_fits (rd : Int) (imm : Word) : ResultFits (executeJumpLink rd imm s) :=
  have link : s.params.fits s.fallThrough = true := fits_s32 _ _
  resultFits_next ((((h.setResult link).driveExbus (by simpa using link)).flush (fits_s32 _ _)).advanceExecute)

/-- R9: a result is an `s32`, a bitwise operation of two Words, or the immediate. -/
theorem exec_execute_fits (i : Instr) (hi : s.xl.instr? = some i) : ResultFits (exec i (s.at .execute)) := by
  have imm := h.xl.instrImm hi
  have entered := h.enterStage .execute
  cases i
  case div => exact resultFits_fault _
  case halt => exact resultFits_next entered.advanceExecute
  case and => exact executeResult_fits entered _ _ (fits_and h.xl.rs1Value h.xl.rs2Value)
  case or => exact executeResult_fits entered _ _ (fits_or h.xl.rs1Value h.xl.rs2Value)
  case xor => exact executeResult_fits entered _ _ (fits_xor h.xl.rs1Value h.xl.rs2Value)
  case movc => exact executeResult_fits entered _ _ imm
  case cmp => exact executeCompare_fits entered _ _
  case cml => exact executeCompare_fits entered _ _
  case load => exact executeAddress_fits entered _ _ (by simp)
  case store => exact executeAddress_fits entered _ _ (by simp)
  case loadp => exact executeAddress_fits entered _ _ (by simp [State.pointer])
  case storep => exact executeAddress_fits entered _ _ (by simp [State.pointer])
  case bz => exact executeBranch_fits entered _ _
  case bnz => exact executeBranch_fits entered _ _
  case bp => exact executeBranch_fits entered _ _
  case bnp => exact executeBranch_fits entered _ _
  case jump => exact executeJump_fits entered _
  case jalr => exact executeJumpLink_fits entered _ _
  all_goals exact executeResult_fits entered _ _ (fits_s32 _ _)

/-! #### Decode (R117 to R122) and Fetch (R113 to R116) -/

theorem decodeStage_fits : ResultFits (decodeStage s) := by
  intro u e
  rcases decodeStage_cases e with ⟨-, rfl⟩ | ⟨-, i, -, -, ⟨rfl, -⟩ | ⟨f, -, rfl⟩ | ⟨a, b, -, ha, hb, -, rfl⟩⟩
  · exact h
  · exact (h.enterStage .decode).stall
  · exact ((h.enterStage .decode).insertBranch f).unstall.advanceDecode
  · exact (h.enterStage .decode).issue (h.operand h.dl.rs1Value ha) (h.operand h.dl.rs2Value hb) _

theorem fetchDeliver_fits : ResultFits (fetchDeliver s) := by
  have forwarded := (h.enterStage .fetch).forwardFetch
  unfold fetchDeliver
  split
  · rw [exec_fetch _ rfl]
    split
    · exact resultFits_next forwarded.stopFetch
    · exact resultFits_next forwarded
  · exact resultFits_next forwarded

theorem fetchStage_fits : ResultFits (fetchStage s) := by
  unfold fetchStage
  split
  · exact resultFits_next h
  · split
    · exact resultFits_next { h with }
    · split
      · exact resultFits_next { h with fl := { h.fl with pc := h.pc } }
      · exact fetchDeliver_fits h.fetchFill

end

/-! ### The cycle and the step -/

/-- R112: a cycle begins with empty buses. -/
theorem State.WordsFit.clearBuses {s : State} (h : s.WordsFit) : s.clearBuses.MidCycleFit :=
  { h with exbus := nofun, membus := nofun }

theorem cycleStages_fits {s : State} (h : s.WordsFit) : ResultFits (cycleStages s) :=
  have writeback := resultFits_runStage h.clearBuses fun i _ => exec_writeback_fits h.clearBuses i
  have memory := resultFits_andThen writeback fun _ hu => resultFits_runStage hu fun i _ => exec_memory_fits hu i
  have execute := resultFits_andThen memory fun _ hv => resultFits_runStage hv fun i hi => exec_execute_fits hv i hi
  have decode := resultFits_andThen execute fun _ hw => decodeStage_fits hw
  resultFits_andThen decode fun _ hd => fetchStage_fits hd

theorem State.WordsFit.takeFatal {s : State} (h : s.WordsFit) (k : Fault) : (s.takeFatal k).WordsFit := { h with }

theorem State.MidCycleFit.closeCycle {s : State} (h : s.MidCycleFit) : s.closeCycle.WordsFit := { h with }

/-- Settles O51: each stage keeps the Words and the bus values within `XLEN` bits, from the cleared buses on. -/
theorem stepKeepsWordsWithinXlen : Obligations.StepKeepsWordsWithinXlen := by
  intro s t h e
  rcases step_cases s with ⟨-, e'⟩ | ⟨-, ⟨u, hu, e'⟩ | ⟨k, -, e'⟩⟩ <;> rw [e'] at e <;> cases e
  · exact h
  · exact (cycleStages_fits h u hu).closeCycle
  · exact h.takeFatal k

/-! ### Reset and `initialize` (R37) -/

/-- R37: the reset state with a program, launch parameters and data memory. -/
def State.resetWith (code : List Record) (params : Params) (dmem : Memory) : State :=
  { State.reset with code := code, params := params, dmem := dmem }

theorem State.reset_eq_resetWith : State.reset = State.resetWith [] Config.defaultParams [] := rfl

/-- R240: `initialize` gives the reset state with the program and the `DMEM_INIT` words that data memory has. -/
theorem State.eq_resetWith_of_initialize {code : List Record} {params : Params} {init : List (Nat × Word)} {s : State}
    (h : State.initialize code params init = .ok s) :
    s = State.resetWith code params (Memory.ofWords (init.filter fun c => decide (c.1 < params.dmemWords))) := by
  unfold State.initialize at h
  split at h <;> cases h
  rfl

section
variable (code : List Record) (params : Params) (dmem : Memory)

theorem State.resetWith_isBusy (r : Int) : (State.resetWith code params dmem).isBusy r = false := by
  unfold State.isBusy
  split
  · simp [State.resetWith, State.reset, Vector.get_eq_getElem]
  · rfl

theorem State.resetWith_inFlight : (State.resetWith code params dmem).inFlight = [] := rfl

theorem State.resetWith_inv (wf : dmem.wf = true) (below : dmem.below params.dmemWords = true) :
    (State.resetWith code params dmem).Inv where
  exbusEmpty := rfl
  membusEmpty := rfl
  stageFirst := rfl
  busyExact r := by
    simp [State.resetWith_inFlight, State.resetWith_isBusy]
  oneWriter := .nil
  supported _ hl := absurd hl List.not_mem_nil
  flagsExclusive := ⟨rfl, rfl, rfl⟩
  btbSize := Nat.zero_le _
  btbUnique := .nil
  btbOk _ he := absurd he List.not_mem_nil
  noRedirect := rfl
  holdNeedsStall _ := rfl
  memoryWf := wf
  memoryBelow := below

theorem State.resetWith_haltInv : (State.resetWith code params dmem).HaltInv :=
  ⟨nofun, nofun, nofun, nofun, nofun⟩

theorem State.resetWith_programInv : (State.resetWith code params dmem).ProgramInv :=
  ⟨nofun, nofun, nofun, nofun, nofun, nofun, nofun⟩

theorem Latch.empty_fits : Latch.empty.Fits params :=
  ⟨fits_zero _, fits_zero _, fits_zero _, fits_zero _, fits_zero _, fits_zero _⟩

/-- R9: 0 and `CODE_BASE` are Words at every `XLEN`. -/
theorem State.resetWith_wordsFit (hcode : ∀ r ∈ code, params.fits r.imm = true)
    (hdmem : ∀ c ∈ dmem, params.fits c.2 = true) : (State.resetWith code params dmem).WordsFit where
  registers r v e := by
    obtain ⟨k, -, rfl⟩ := Option.map_eq_some_iff.1 e
    simp [State.resetWith, State.reset, Vector.get_eq_getElem]
  pc := fits_of_immOk params (w := word codeBase) (by decide)
  fl := (Latch.empty_fits params).congr
  dl := Latch.empty_fits params
  xl := Latch.empty_fits params
  ml := Latch.empty_fits params
  wl := Latch.empty_fits params
  entries := nofun
  data := hdmem
  immediates := hcode

end

/-- Settles O47: the reset state and every initialized state are `State.resetWith` of a program, parameters and a
well-formed data memory. -/
theorem resetHasTheInvariants : Obligations.ResetHasTheInvariants := by
  refine ⟨?_, fun code params init s h => ?_⟩
  · rw [State.reset_eq_resetWith]
    exact ⟨State.resetWith_inv _ _ _ rfl rfl, State.resetWith_haltInv _ _ _, State.resetWith_programInv _ _ _,
      State.resetWith_wordsFit _ _ _ nofun nofun⟩
  · rw [State.eq_resetWith_of_initialize h]
    have below := Memory.below_ofWords (ws := init.filter fun c => decide (c.1 < params.dmemWords)) (n := params.dmemWords)
      fun c hc => by simpa using (List.mem_filter.1 hc).2
    exact ⟨State.resetWith_inv _ _ _ (Memory.wf_ofWords _) below, State.resetWith_haltInv _ _ _,
      State.resetWith_programInv _ _ _, fun hcode hinit => State.resetWith_wordsFit _ _ _ hcode fun c hc =>
        hinit c (List.mem_filter.1 (Memory.mem_ofWords hc)).1⟩

end Sys2Proof.Machine

/-! SUPPORT. Proofs for spec/10_state.md: the invariant of R39 through every stage, and the counters (R30, R33). -/

namespace Sys2Proof

open Sys2Proof.Machine

/-- R118: a conditional branch has no destination. -/
theorem Instr.dests_of_branch {i : Instr} {f : Family} (h : i.family? = some f) : i.operands.dests = [] := by
  cases i <;> simp [Instr.family?] at h <;> rfl

end Sys2Proof

namespace Sys2Proof.Machine

/-! ### Flags and BTB entries (R39 (b), (c)) -/

/-- R39 (b): at most one condition code is set. -/
def CondCodes.Exclusive (c : CondCodes) : Prop :=
  (c.z && c.p) = false ∧ (c.z && c.n) = false ∧ (c.p && c.n) = false

/-- R172: the flags of a result are exclusive. -/
theorem flagsOf_exclusive (r : Word) : (flagsOf r).Exclusive := by
  simp only [CondCodes.Exclusive, flagsOf, Bool.and_eq_false_iff, decide_eq_false_iff_not]
  omega

/-- R169: so are those of the exact comparison. -/
theorem flagsExact_exclusive (a b : Word) : (flagsExact a b).Exclusive := by
  simp only [CondCodes.Exclusive, flagsExact, Bool.and_eq_false_iff, decide_eq_false_iff_not]
  omega

/-- R94: an inserted entry has a legal counter. -/
theorem BtbEntry.fresh_ok (a : Word) (f : Family) : (BtbEntry.fresh a f).Ok := by
  cases f <;> constructor <;> simp [BtbEntry.fresh, Config.histMax]

/-- R96: a resolution keeps the counters legal. -/
theorem BtbEntry.Ok.resolve {e : BtbEntry} (h : e.Ok) (taken : Bool) (t : Word) : (e.resolve taken t).Ok where
  histRange := nextHist_le e.hist taken h.histRange
  predIsHigh := rfl
  takenCounted _ := by simp [BtbEntry.resolve, Config.cntMax]
  countRange := Nat.min_le_left _ _

/-- R39 (c), R97: the BTB part of `State.Inv`. -/
structure BtbInv (btb : List BtbEntry) : Prop where
  size : btb.length ≤ Config.btbCap
  unique : (btb.map BtbEntry.addr).Nodup
  ok : ∀ e ∈ btb, e.Ok

theorem BtbInv.insert {btb : List BtbEntry} (h : BtbInv btb) (hit : Bool) (a : Word) (f : Family) :
    BtbInv (btbInsert btb hit a f) where
  size := btbInsert_length hit a f h.size
  unique := btbInsert_nodup hit a f h.unique
  ok e he := by
    rcases mem_btbInsert he with he | rfl
    · exact h.ok e he
    · exact BtbEntry.fresh_ok a f

theorem BtbInv.update {btb : List BtbEntry} (h : BtbInv btb) (a : Word) (taken : Bool) (t : Word) :
    BtbInv (btbUpdate btb a taken t) where
  size := (btbUpdate_length btb a taken t).le.trans h.size
  unique := (btbUpdate_addrs btb a taken t).symm ▸ h.unique
  ok e he := by
    obtain ⟨d, hd, rfl⟩ := List.mem_map.1 he
    split
    · exact (h.ok d hd).resolve taken t
    · exact h.ok d hd

/-! ### The instructions in flight (R39 (a)) -/

/-- R118: the destinations of what a latch holds. -/
def destsOf (o : Option Instr) : List Int := o.elim [] fun i => i.operands.dests

theorem Latch.dests_eq_destsOf (l : Latch) : l.dests = destsOf l.instr? := by
  unfold Latch.dests
  cases l.instr? <;> rfl

/-- R39 (a), R117: what is in flight is checked instructions with separate destinations, and the busy registers are
exactly these destinations. -/
structure State.Carries (s : State) (os : List (Option Instr)) : Prop where
  busyExact : ∀ r, s.isBusy r = true ↔ ∃ o ∈ os, r ∈ destsOf o
  oneWriter : os.Pairwise fun o p => ∀ r ∈ destsOf o, r ∉ destsOf p
  supported : ∀ o ∈ os, ∃ i, o = some i ∧ i.passesDecode s.params

/-- What is in flight, youngest first. -/
def State.carried (s : State) : List (Option Instr) := s.inFlight.map Latch.instr?

/-- Of a latch: what it has in flight. -/
def Latch.carried (l : Latch) : List (Option Instr) := if l.valid then [l.instr?] else []

theorem Latch.carried_of_bubble {l : Latch} (h : l.valid = false) : l.carried = [] := by simp [Latch.carried, h]

theorem Latch.carried_of_valid {l : Latch} (h : l.valid = true) : l.carried = [l.instr?] := by simp [Latch.carried, h]

theorem State.carried_eq (s : State) : s.carried = s.xl.carried ++ (s.ml.carried ++ s.wl.carried) := by
  unfold State.carried State.inFlight Latch.carried
  cases hx : s.xl.valid <;> cases hm : s.ml.valid <;> cases hw : s.wl.valid <;> simp [hx, hm, hw]

/-- R122: when `DL` goes to the empty `XL`, its instruction is the youngest in flight. -/
theorem State.carried_of_issue {s u : State} {i : Instr} (free : s.xl.valid = false) (hv : s.dl.valid = true)
    (hi : s.dl.instr? = some i) (valid : u.xl.valid = s.dl.valid) (same : u.xl.instr? = s.dl.instr?)
    (ml : u.ml = s.ml) (wl : u.wl = s.wl) : u.carried = some i :: s.carried := by
  rw [State.carried_eq, State.carried_eq, ml, wl, Latch.carried_of_bubble free,
    Latch.carried_of_valid (valid.trans hv), same, hi]
  rfl

namespace State.Carries

variable {s t : State} {os : List (Option Instr)}

theorem congr (h : s.Carries os) (busy : t.busy = s.busy) (params : t.params = s.params) : t.Carries os where
  busyExact r := by rw [isBusy_congr busy r params, h.busyExact]
  oneWriter := h.oneWriter
  supported := params ▸ h.supported

/-- R130: the oldest leaves, and its destinations are free again: no other instruction writes them. -/
theorem retire {o : Option Instr} (h : s.Carries (os ++ [o])) (params : t.params = s.params)
    (busy : ∀ q, t.isBusy q = (s.isBusy q && !decide (q ∈ destsOf o))) : t.Carries os where
  busyExact r := by
    have separate : (∃ p ∈ os, r ∈ destsOf p) → r ∉ destsOf o := fun ⟨p, hp, hr⟩ =>
      (List.pairwise_append.1 h.oneWriter).2.2 p hp o (by simp) r hr
    have before := h.busyExact r
    simp only [List.mem_append, List.mem_singleton, or_and_right, exists_or, exists_eq_left] at before
    simp only [busy, Bool.and_eq_true, before, Bool.not_eq_true', decide_eq_false_iff_not]
    constructor
    · rintro ⟨hp | ho, hno⟩
      · exact hp
      · exact absurd ho hno
    · exact fun hp => ⟨.inl hp, separate hp⟩
  oneWriter := (List.pairwise_append.1 h.oneWriter).1
  supported o ho := params ▸ h.supported o (by simp [ho])

/-- R122: a checked instruction whose destinations were free joins, and they become busy. -/
theorem issue {i : Instr} (h : s.Carries os) (params : t.params = s.params) (passed : i.passesDecode s.params)
    (free : ∀ d ∈ i.operands.dests, s.isBusy d = false)
    (busy : ∀ q, t.isBusy q = (decide (q ∈ i.operands.dests) || s.isBusy q)) : t.Carries (some i :: os) where
  busyExact r := by simp [busy, h.busyExact, destsOf]
  oneWriter := by
    refine .cons (fun p hp r hr hrp => ?_) h.oneWriter
    exact Bool.false_ne_true ((free r hr).symm.trans ((h.busyExact r).2 ⟨p, hp, hrp⟩))
  supported o ho := by
    rcases List.mem_cons.1 ho with rfl | ho
    · exact ⟨i, rfl, params ▸ passed⟩
    · exact params ▸ h.supported o ho

end State.Carries

/-! ### The invariant within a cycle

`State.Inv` is of cycle boundaries. Between two stages the buses may be driven, and a redirect may be pending as long as
Fetch is on, which then consumes it (R29). -/

/-- R39 within a cycle. -/
structure State.MidCycleInv (s : State) : Prop where
  carries : s.Carries s.carried
  flags : s.cc.Exclusive
  btb : BtbInv s.btb
  redirect : s.redirectPending = true → s.fl.valid = true
  hold : s.dl.valid = false → s.fl.stalled = false
  memoryWf : s.dmem.wf = true
  memoryBelow : s.dmem.below s.params.dmemWords = true

/-- The three clauses of `State.Inv` about the latches in flight, said of their instructions. -/
theorem State.carries_carried_iff (s : State) :
    s.Carries s.carried ↔
      (∀ r, s.isBusy r = true ↔ ∃ l ∈ s.inFlight, r ∈ l.dests) ∧
      (s.inFlight.Pairwise fun l m => ∀ r ∈ l.dests, r ∉ m.dests) ∧
      ∀ l ∈ s.inFlight, ∃ i, l.instr? = some i ∧ i.passesDecode s.params := by
  simp only [Latch.dests_eq_destsOf]
  constructor
  · rintro ⟨busyExact, oneWriter, supported⟩
    exact ⟨by simpa [State.carried] using busyExact, List.pairwise_map.1 oneWriter,
      fun l hl => supported _ (List.mem_map_of_mem hl)⟩
  · rintro ⟨busyExact, oneWriter, supported⟩
    exact ⟨by simpa [State.carried] using busyExact, List.pairwise_map.2 oneWriter, List.forall_mem_map.2 supported⟩

/-- R112: a cycle begins with empty buses. -/
theorem State.Inv.clearBuses {s : State} (h : s.Inv) : s.clearBuses.MidCycleInv where
  carries := s.carries_carried_iff.2 ⟨h.busyExact, h.oneWriter, h.supported⟩ |>.congr rfl rfl
  flags := h.flagsExclusive
  btb := ⟨h.btbSize, h.btbUnique, h.btbOk⟩
  redirect hr := absurd hr (by simp [h.noRedirect])
  hold := h.holdNeedsStall
  memoryWf := h.memoryWf
  memoryBelow := h.memoryBelow

/-- R26, R33: the end of a cycle in which Fetch has consumed the redirect. -/
theorem State.MidCycleInv.closeCycle {s : State} (h : s.MidCycleInv) (noRedirect : s.redirectPending = false) :
    s.closeCycle.Inv := by
  obtain ⟨busyExact, oneWriter, supported⟩ := s.carries_carried_iff.1 h.carries
  exact ⟨rfl, rfl, rfl, busyExact, oneWriter, supported, h.flags, h.btb.size, h.btb.unique, h.btb.ok, noRedirect, h.hold,
    h.memoryWf, h.memoryBelow⟩

theorem State.Inv.takeFatal {s : State} (h : s.Inv) (k : Fault) : (s.takeFatal k).Inv := { h with }

/-! ### The stages -/

/-- R24: an instruction passed on keeps its operand fields, whatever values it has got. -/
theorem Latch.carried_congr {l m : Latch} (hl : l.valid = true) (hm : m.valid = true) (e : m.instr? = l.instr?) :
    m.carried = l.carried := by
  rw [Latch.carried_of_valid hl, Latch.carried_of_valid hm, e]

section
variable {s u : State} (h : s.MidCycleInv)
include h

/-- R130: Writeback takes the oldest instruction out. -/
theorem WritebackDone.keepsInv (f : WritebackDone s u) : u.MidCycleInv where
  carries := by
    have left : u.carried = s.xl.carried ++ s.ml.carried := by
      rw [State.carried_eq, f.xl, f.ml, Latch.carried_of_bubble (l := u.wl) (by rw [f.wl]), List.append_nil]
    have before := h.carries
    rw [State.carried_eq, ← List.append_assoc] at before
    rw [left]
    cases hv : s.wl.valid with
    | false =>
      rw [Latch.carried_of_bubble hv, List.append_nil] at before
      refine ⟨fun r => ?_, before.oneWriter, f.params ▸ before.supported⟩
      rw [← before.busyExact, f.busy, hv, Bool.false_and, Bool.not_false, Bool.and_true]
    | true =>
      rw [Latch.carried_of_valid hv] at before
      exact before.retire f.params fun q => by rw [f.busy, hv, Bool.true_and, Latch.dests_eq_destsOf]
  flags := f.cc ▸ h.flags
  btb := f.btb ▸ h.btb
  redirect := by rw [f.redirectPending, f.fl]; exact h.redirect
  hold := by rw [f.dl, f.fl]; exact h.hold
  memoryWf := f.dmem ▸ h.memoryWf
  memoryBelow := by rw [f.dmem, f.params]; exact h.memoryBelow

/-- R128: Memory passes its instruction on to the empty `WL`, and may write one word. -/
theorem MemoryDone.keepsInv (f : MemoryDone s u) (free : s.wl.valid = false) : u.MidCycleInv where
  carries := by
    have moved : u.wl.carried = s.ml.carried := by
      cases hv : s.ml.valid with
      | false => rw [f.wlKept hv, Latch.carried_of_bubble free, Latch.carried_of_bubble hv]
      | true =>
        obtain ⟨v, hw⟩ := f.wlFilled hv
        exact Latch.carried_congr hv (by rw [hw]; exact hv) (by rw [hw]; rfl)
    have same : u.carried = s.carried := by
      rw [State.carried_eq, State.carried_eq, f.xl, moved, Latch.carried_of_bubble f.ml, Latch.carried_of_bubble free,
        List.nil_append, List.append_nil]
    exact same ▸ h.carries.congr f.busy f.params
  flags := f.cc ▸ h.flags
  btb := f.btb ▸ h.btb
  redirect := by rw [f.redirectPending, f.fl]; exact h.redirect
  hold := by rw [f.dl, f.fl]; exact h.hold
  memoryWf := by
    rcases f.dmem with e | ⟨k, v, -, e⟩ <;> rw [e]
    · exact h.memoryWf
    · exact Memory.wf_write h.memoryWf k v
  memoryBelow := by
    rcases f.dmem with e | ⟨k, v, hk, e⟩ <;> rw [e, f.params]
    · exact h.memoryBelow
    · exact Memory.below_write h.memoryBelow v hk

/-- R123: Execute passes its instruction on to the empty `ML`; it may write the flags, update the BTB and flush. -/
theorem ExecuteDone.keepsInv (f : ExecuteDone s u) (free : s.ml.valid = false) : u.MidCycleInv where
  carries := by
    have moved : u.ml.carried = s.xl.carried := by
      cases hv : s.xl.valid with
      | false => rw [f.mlKept hv, Latch.carried_of_bubble free, Latch.carried_of_bubble hv]
      | true =>
        obtain ⟨r, a, hm⟩ := f.mlFilled hv
        exact Latch.carried_congr hv (by rw [hm]; exact hv) (by rw [hm]; rfl)
    have same : u.carried = s.carried := by
      rw [State.carried_eq, State.carried_eq, f.wl, moved, Latch.carried_of_bubble f.xl, Latch.carried_of_bubble free,
        List.nil_append, List.nil_append]
    exact same ▸ h.carries.congr f.busy f.params
  flags := by
    rcases f.cc with e | ⟨r, e | ⟨a, b, e⟩⟩ <;> rw [e]
    · exact h.flags
    · exact flagsOf_exclusive r
    · exact flagsExact_exclusive a b
  btb := by
    rcases f.btb with e | ⟨-, -, taken, e⟩ <;> rw [e]
    · exact h.btb
    · exact h.btb.update _ _ _
  redirect := by
    rcases f.front with ⟨-, -, hfl, hr⟩ | ⟨-, -, -, hfl, -⟩ <;> rw [hfl]
    · exact hr ▸ h.redirect
    · exact fun _ => rfl
  hold := by
    rcases f.front with ⟨-, hdl, hfl, -⟩ | ⟨-, -, -, hfl, -⟩ <;> rw [hfl]
    · exact hdl ▸ h.hold
    · exact fun _ => rfl
  memoryWf := f.dmem ▸ h.memoryWf
  memoryBelow := by rw [f.dmem, f.params]; exact h.memoryBelow

/-- R121: a stall holds Fetch with an instruction in `DL`. -/
theorem State.MidCycleInv.stall (hd : s.dl.valid = true) : (s.at .decode).stall.MidCycleInv where
  carries := h.carries.congr rfl rfl
  flags := h.flags
  btb := h.btb
  redirect := h.redirect
  hold empty := absurd empty (by simp [hd])
  memoryWf := h.memoryWf
  memoryBelow := h.memoryBelow

/-- R94, R122: the issue of a conditional branch, which has no destination. -/
theorem State.MidCycleInv.issueBranch {i : Instr} {f : Family} (free : s.xl.valid = false) (hv : s.dl.valid = true)
    (hi : s.dl.instr? = some i) (hf : i.family? = some f) :
    (((s.at .decode).insertBranch f).unstall).advanceDecode.MidCycleInv where
  carries := by
    rw [State.carried_of_issue (u := (((s.at .decode).insertBranch f).unstall).advanceDecode) free hv hi rfl rfl rfl rfl]
    refine h.carries.issue rfl (passesDecode_of_branch hf) ?_ fun q => ?_ <;> rw [Instr.dests_of_branch hf]
    · exact nofun
    · exact isBusy_congr rfl q
  flags := h.flags
  btb := h.btb.insert _ _ _
  redirect := h.redirect
  hold _ := rfl
  memoryWf := h.memoryWf
  memoryBelow := h.memoryBelow

/-- R122: the issue of any other instruction, whose destinations Decode found free. -/
theorem State.MidCycleInv.issue {i : Instr} (free : s.xl.valid = false) (hv : s.dl.valid = true)
    (hi : s.dl.instr? = some i) (passed : i.passesDecode s.params)
    (freeDests : ∀ d ∈ i.operands.dests, s.isBusy d = false) (a b : Word) : ((s.at .decode).issue a b i.operands.dests).MidCycleInv where
  carries := by
    rw [State.carried_of_issue free hv hi (by simp) (by simp; rfl) (by simp) (by simp)]
    exact h.carries.issue (by simp) passed freeDests fun q =>
      isBusy_issue (s.at .decode) a b q fun _ => isSome_of_mem_dests passed.2
  flags := by simpa using h.flags
  btb := by simpa using h.btb
  redirect := by simpa using h.redirect
  hold := by simp
  memoryWf := by simpa using h.memoryWf
  memoryBelow := by simpa using h.memoryBelow

/-- R117 to R122: Decode stalls or issues to the empty `XL`. -/
theorem decodeStage_keepsInv (free : s.xl.valid = false) (e : decodeStage s = .next u) : u.MidCycleInv := by
  rcases decodeStage_cases e with
    ⟨-, rfl⟩ | ⟨hv, i, hi, passed, ⟨rfl, -⟩ | ⟨f, hf, rfl⟩ | ⟨a, b, -, -, -, freeDests, rfl⟩⟩
  · exact h
  · exact h.stall hv
  · exact h.issueBranch free hv hi hf
  · exact h.issue free hv hi passed freeDests a b

/-- R113: Fetch fills `DL`; nothing in flight is touched. -/
theorem FetchDone.keepsInv (f : FetchDone s u) (hv : s.fl.valid = true) (noRedirect : s.redirectPending = false) :
    u.MidCycleInv where
  carries := by
    have same : u.carried = s.carried := by rw [State.carried_eq, State.carried_eq, f.xl, f.ml, f.wl]
    exact same ▸ h.carries.congr f.busy f.params
  flags := f.cc ▸ h.flags
  btb := f.btb ▸ h.btb
  redirect hr := absurd hr (by simp [f.redirectPending, noRedirect])
  hold hd := absurd hd (by simp [f.dl, fetchedLatch, hv])
  memoryWf := f.dmem ▸ h.memoryWf
  memoryBelow := by rw [f.dmem, f.params]; exact h.memoryBelow

/-- R29, R113: Fetch consumes the redirect. -/
theorem fetchStage_keepsInv (e : fetchStage s = .next u) : u.MidCycleInv ∧ u.redirectPending = false := by
  rcases fetchStage_cases e with ⟨off, rfl⟩ | ⟨-, -, rfl⟩ | ⟨hv, noRedirect, -, rfl⟩ | ⟨hv, noRedirect, -, f⟩
  · exact ⟨h, Bool.eq_false_iff.2 fun pending => by simp [h.redirect pending] at off⟩
  · exact ⟨⟨h.carries.congr rfl rfl, h.flags, h.btb, nofun, h.hold, h.memoryWf, h.memoryBelow⟩, rfl⟩
  · exact ⟨⟨h.carries.congr rfl rfl, h.flags, h.btb, h.redirect, h.hold, h.memoryWf, h.memoryBelow⟩, noRedirect⟩
  · exact ⟨f.keepsInv h hv noRedirect, f.redirectPending.trans noRedirect⟩

end

/-! ### The cycle and the step -/

/-- R39: the five stages, each with the latch it fills left empty by the one before. -/
theorem cycleStages_keepsInv {s t : State} (h : s.Inv) (e : cycleStages s = .next t) : t.closeCycle.Inv := by
  obtain ⟨u, v, w, d, hu, hv, hw, hd, ht⟩ := cycleStages_eq_next.1 e
  have writeback := writebackStage_done hu
  have memory := memoryStage_done hv
  have execute := executeStage_done hw
  have afterWriteback := writeback.keepsInv h.clearBuses
  have afterMemory := memory.keepsInv afterWriteback (by rw [writeback.wl])
  have afterExecute := execute.keepsInv afterMemory memory.ml
  have afterDecode := decodeStage_keepsInv afterExecute execute.xl hd
  obtain ⟨afterFetch, noRedirect⟩ := fetchStage_keepsInv afterDecode ht
  exact afterFetch.closeCycle noRedirect

/-- Settles O44: each stage keeps `State.MidCycleInv`, and Fetch leaves no redirect pending. -/
theorem stepKeepsTheInvariant : Obligations.StepKeepsTheInvariant := by
  intro s t h e
  rcases step_cases s with ⟨-, e'⟩ | ⟨-, ⟨u, hu, e'⟩ | ⟨k, -, e'⟩⟩ <;> rw [e'] at e <;> cases e
  · exact h
  · exact cycleStages_keepsInv h hu
  · exact h.takeFatal k

/-! ### The counters (R30, R33) -/

/-- What counts nothing: the counters and the recorded fatal condition are as they were. -/
structure State.CountsKept (s u : State) : Prop where
  cycles : u.cycles = s.cycles
  retired : u.retired = s.retired
  fault : u.fault = s.fault

theorem decodeStage_countsKept {s u : State} (e : decodeStage s = .next u) : s.CountsKept u := by
  rcases decodeStage_cases e with ⟨-, rfl⟩ | ⟨-, i, -, -, ⟨rfl, -⟩ | ⟨f, -, rfl⟩ | ⟨a, b, -, -, -, -, rfl⟩⟩ <;>
    constructor <;> simp

theorem fetchStage_countsKept {s u : State} (e : fetchStage s = .next u) : s.CountsKept u := by
  rcases fetchStage_cases e with ⟨-, rfl⟩ | ⟨-, -, rfl⟩ | ⟨-, -, -, rfl⟩ | ⟨-, -, -, f⟩
  · exact ⟨rfl, rfl, rfl⟩
  · exact ⟨rfl, rfl, rfl⟩
  · exact ⟨rfl, rfl, rfl⟩
  · exact ⟨f.cycles, f.retired, f.fault⟩

/-- R30: of the five stages only Writeback counts: it retires what is in `WL`. -/
theorem cycleStages_counts {s t : State} (e : cycleStages s = .next t) :
    t.cycles = s.cycles ∧ t.fault = s.fault ∧ t.retired = s.retired + if s.wl.valid then 1 else 0 := by
  obtain ⟨u, v, w, d, hu, hv, hw, hd, ht⟩ := cycleStages_eq_next.1 e
  have writeback := writebackStage_done hu
  have memory := memoryStage_done hv
  have execute := executeStage_done hw
  have decode := decodeStage_countsKept hd
  have fetch := fetchStage_countsKept ht
  refine ⟨?_, ?_, ?_⟩
  · rw [fetch.cycles, decode.cycles, execute.cycles, memory.cycles, writeback.cycles]; rfl
  · rw [fetch.fault, decode.fault, execute.fault, memory.fault, writeback.fault]; rfl
  · rw [fetch.retired, decode.retired, execute.retired, memory.retired, writeback.retired]; rfl

/-- R233: a core runs exactly when its step is a cycle. -/
theorem State.running_eq (s : State) : s.running = !(s.halted || s.fault.isSome) := by
  simp [State.running]

/-- Settles O13: a stopped core stands still, a whole cycle is counted at its close, a fatal condition only records itself. -/
theorem stepCountsCyclesAndRetirements : Obligations.StepCountsCyclesAndRetirements := by
  intro s t e
  rcases step_cases s with ⟨stopped, e'⟩ | ⟨running, ⟨u, hu, e'⟩ | ⟨k, -, e'⟩⟩ <;> rw [e'] at e <;> cases e
  · exact ⟨fun run => by simp [s.running_eq, stopped] at run, fun _ => ⟨rfl, rfl⟩⟩
  · have noFault : s.fault = none := by simpa using (Bool.or_eq_false_iff.1 running).2
    obtain ⟨cycles, fault, retired⟩ := cycleStages_counts hu
    refine ⟨fun _ _ => ⟨congrArg (· + 1) cycles, retired⟩, fun stops => ?_⟩
    rcases stops with notRunning | faulted
    · exact absurd notRunning (by simp [s.running_eq, running])
    · exact absurd (fault.trans noFault) faulted
  · exact ⟨fun _ => nofun, fun _ => ⟨rfl, rfl⟩⟩

end Sys2Proof.Machine

/-! SUPPORT. Proofs for spec/20_memory.md: the program (R61) and the launch parameters (R36) through every stage. -/

namespace Sys2Proof.Machine

/-- What was given at launch is as it was: the program and the launch parameters. -/
structure State.LaunchKept (s u : State) : Prop where
  code : u.code = s.code
  params : u.params = s.params

theorem decodeStage_launchKept {s u : State} (e : decodeStage s = .next u) : s.LaunchKept u := by
  rcases decodeStage_cases e with ⟨-, rfl⟩ | ⟨-, i, -, -, ⟨rfl, -⟩ | ⟨f, -, rfl⟩ | ⟨a, b, -, -, -, -, rfl⟩⟩ <;>
    constructor <;> simp

theorem fetchStage_launchKept {s u : State} (e : fetchStage s = .next u) : s.LaunchKept u := by
  rcases fetchStage_cases e with ⟨-, rfl⟩ | ⟨-, -, rfl⟩ | ⟨-, -, -, rfl⟩ | ⟨-, -, -, f⟩
  · exact ⟨rfl, rfl⟩
  · exact ⟨rfl, rfl⟩
  · exact ⟨rfl, rfl⟩
  · exact ⟨f.code, f.params⟩

/-- R61: none of the five stages writes the program; none writes the launch parameters. -/
theorem cycleStages_launchKept {s t : State} (e : cycleStages s = .next t) : s.LaunchKept t := by
  obtain ⟨u, v, w, d, hu, hv, hw, hd, ht⟩ := cycleStages_eq_next.1 e
  have writeback := writebackStage_done hu
  have memory := memoryStage_done hv
  have execute := executeStage_done hw
  have decode := decodeStage_launchKept hd
  have fetch := fetchStage_launchKept ht
  constructor
  · rw [fetch.code, decode.code, execute.code, memory.code, writeback.code, State.clearBuses_code]
  · rw [fetch.params, decode.params, execute.params, memory.params, writeback.params, State.clearBuses_params]

/-- Settles O12: a stopped core stands still, no stage of a whole cycle writes the program or the parameters, and a fatal
condition only records itself. -/
theorem stepKeepsProgramAndParameters : Obligations.StepKeepsProgramAndParameters := by
  intro s t e
  rcases step_cases s with ⟨-, e'⟩ | ⟨-, ⟨u, hu, e'⟩ | ⟨k, -, e'⟩⟩ <;> rw [e'] at e <;> cases e
  · exact ⟨rfl, rfl⟩
  · obtain ⟨code, params⟩ := cycleStages_launchKept hu
    exact ⟨u.closeCycle_code.trans code, u.closeCycle_params.trans params⟩
  · exact ⟨s.takeFatal_code k, s.takeFatal_params k⟩

end Sys2Proof.Machine

/-! SUPPORT. Proofs for spec/30_encoding.md: the decoder, the encoder and the mask/match table, each said once in terms of
the five fields of a word (R71) and the record of an instruction (R70). -/

namespace Sys2Proof

/-! ### The record in the fields of a word -/

/-- R70, R72: the record with opcode `o` and the operands that are in the fields of `w`, whether `o` uses them or not. -/
def fieldRecord (o : Opcode) (w : InstrWord) : Record :=
  ⟨o, regOfField (fieldRd w), regOfField (fieldRs1 w), regOfField (fieldRs2 w), immOfField (fieldImm w)⟩

@[simp] theorem regOfField_eq_zero {f : BitVec 4} : regOfField f = 0 ↔ f = 0#4 := by
  constructor
  · intro h; rw [← ofInt_regOfField f, h]; rfl
  · rintro rfl; rfl

@[simp] theorem immOfField_eq_zero {f : BitVec 15} : immOfField f = 0#32 ↔ f = 0#15 := by
  constructor
  · intro h; rw [← setWidth_immOfField f, h]; rfl
  · rintro rfl; rfl

@[simp] theorem zero_eq_regOfField {f : BitVec 4} : 0 = regOfField f ↔ f = 0#4 := eq_comm.trans regOfField_eq_zero

@[simp] theorem zero_eq_immOfField {f : BitVec 15} : 0#32 = immOfField f ↔ f = 0#15 := eq_comm.trans immOfField_eq_zero

/-! ### The decoder -/

theorem ifZero_eq_ok {n : Nat} {unused : Bool} {i j : Instr} : ifZero n unused i = .ok j ↔ unused = true ∧ i = j := by
  unfold ifZero
  split <;> simp [*]

/-- R72, R73, R82: a word decodes to `i` exactly when its `op` field is the number of `i` and its other fields hold the
record of `i`, whose unused operands are 0. -/
theorem decode_eq_ok {w : InstrWord} {i : Instr} :
    decode w = .ok i ↔ i.opcode.number? = some (fieldOp w).toNat ∧ i.record = fieldRecord i.opcode w := by
  constructor
  · intro h
    unfold decode at h
    split at h
    case h_4 op =>
      cases h
      simp [op, Instr.opcode, Instr.record, Opcode.number?, fieldRecord]
    case h_24 => cases h
    all_goals
      rename_i op
      obtain ⟨unused, rfl⟩ := ifZero_eq_ok.1 h
      simp only [Bool.and_eq_true, beq_iff_eq] at unused
      simp [op, unused, Instr.opcode, Instr.record, Opcode.number?, fieldRecord]
  · rintro ⟨op, fields⟩
    cases i <;>
      simp [Instr.opcode, Instr.record, Opcode.number?, fieldRecord] at op fields <;>
      simp [decode, ← op, fields, ifZero]

/-! ### The encoder -/

/-- R71, R72: the word of an instruction is its number and its record, packed. -/
theorem encode_eq_pack {i : Instr} {n : Nat} (h : i.opcode.number? = some n) :
    encode i = pack n i.record.rd i.record.rs1 i.record.rs2 i.record.imm := by
  cases i <;> cases h <;> rfl

/-- R72: an instruction has a word when every operand of its record is in range: those it does not use are 0. -/
theorem Instr.wf_iff {i : Instr} : i.wf = true ↔
    regOk i.record.rd = true ∧ regOk i.record.rs1 = true ∧ regOk i.record.rs2 = true ∧ immOk i.record.imm = true := by
  have reg0 : regOk 0 = true := by decide
  have imm0 : immOk 0#32 = true := by decide
  cases i <;> simp [Instr.wf, Instr.record, reg0, imm0, and_assoc]

/-- R74: every instruction has an opcode number that the 5-bit field holds. -/
theorem Instr.exists_number (i : Instr) : ∃ n < 32, i.opcode.number? = some n := by
  cases i <;> exact ⟨_, by decide, rfl⟩

/-- R72: operands in range survive the packing. -/
theorem fieldRecord_pack (o : Opcode) (n : Nat) {rd rs1 rs2 : Int} {imm : Word} (hd : regOk rd = true)
    (h1 : regOk rs1 = true) (h2 : regOk rs2 = true) (hi : immOk imm = true) :
    fieldRecord o (pack n rd rs1 rs2 imm) = ⟨o, rd, rs1, rs2, imm⟩ := by
  simp [fieldRecord, pack, regOfField_ofInt, immOfField_setWidth, *]

/-- R71: packing what is in the fields of a word gives the word. -/
theorem pack_fieldRecord (o : Opcode) (w : InstrWord) :
    pack (fieldOp w).toNat (fieldRecord o w).rd (fieldRecord o w).rs1 (fieldRecord o w).rs2 (fieldRecord o w).imm = w := by
  simp [pack, fieldRecord, ofInt_regOfField, setWidth_immOfField, joinFields_fields]

/-- Settles O1: the fields of the packed word hold the record of a well-formed instruction. -/
theorem decodeOfEncodeIsTheInstruction : Obligations.DecodeOfEncodeIsTheInstruction := by
  intro i wf
  obtain ⟨rd, rs1, rs2, imm⟩ := Instr.wf_iff.1 wf
  obtain ⟨n, small, number⟩ := i.exists_number
  rw [decode_eq_ok, encode_eq_pack number, Laws.fieldOp_pack n small, fieldRecord_pack _ n rd rs1 rs2 imm]
  exact ⟨number, rfl⟩

/-- Settles O2: the record of a decoded instruction is in the fields of the word, which are in range and make up the
word. -/
theorem encodeOfDecodeIsTheWord : Obligations.EncodeOfDecodeIsTheWord := by
  intro w i h
  obtain ⟨number, fields⟩ := decode_eq_ok.1 h
  rw [Instr.wf_iff, encode_eq_pack number, fields, pack_fieldRecord]
  exact ⟨⟨regOk_regOfField _, regOk_regOfField _, regOk_regOfField _, immOk_immOfField _⟩, rfl⟩

/-! ### The mask/match table -/

/-- R75: a row tests the fields of a word one by one. -/
theorem OpcodeRow.admits_iff_fields {row : OpcodeRow} {w : InstrWord} : row.admits w = true ↔
    fieldOp w &&& fieldOp row.mask = fieldOp row.value ∧ fieldRd w &&& fieldRd row.mask = fieldRd row.value ∧
      fieldRs1 w &&& fieldRs1 row.mask = fieldRs1 row.value ∧ fieldRs2 w &&& fieldRs2 row.mask = fieldRs2 row.value ∧
      fieldImm w &&& fieldImm row.mask = fieldImm row.value := by
  rw [OpcodeRow.admits, beq_iff_eq, ← joinFields_inj, ← joinFields_and]
  simp only [joinFields_fields]

/-- R74, R75: a row tests the whole `op` field for the number of its opcode. -/
theorem opcodeRows_op_mask : ∀ row ∈ opcodeRows,
    fieldOp row.mask = BitVec.allOnes 5 ∧ row.opcode.number? = some (fieldOp row.value).toNat := by decide

/-- R70, R73: a record is that of an instruction when reading it as one and back leaves it as it is. -/
theorem exists_record_eq {r : Record} : (∃ i : Instr, i.record = r) ↔ r.instr?.map Instr.record = some r := by
  constructor
  · rintro ⟨i, rfl⟩
    rw [Machine.record_instr?]; rfl
  · intro h
    obtain ⟨i, -, hi⟩ := Option.map_eq_some_iff.1 h
    exact ⟨i, hi⟩

/-- R75: of the other fields a row tests those that its opcode does not use, for 0. -/
theorem opcodeRows_operand_masks {row : OpcodeRow} (h : row ∈ opcodeRows) (w : InstrWord) :
    (∃ i : Instr, i.record = fieldRecord row.opcode w) ↔ fieldRd w &&& fieldRd row.mask = fieldRd row.value ∧
      fieldRs1 w &&& fieldRs1 row.mask = fieldRs1 row.value ∧ fieldRs2 w &&& fieldRs2 row.mask = fieldRs2 row.value ∧
      fieldImm w &&& fieldImm row.mask = fieldImm row.value := by
  have all4 : ∀ f : BitVec 4, f &&& 15#4 = f := fun f => BitVec.and_allOnes
  have all15 : ∀ f : BitVec 15, f &&& 32767#15 = f := fun f => BitVec.and_allOnes
  rw [exists_record_eq, fieldRecord]
  generalize fieldRd w = rd, fieldRs1 w = rs1, fieldRs2 w = rs2, fieldImm w = imm
  fin_cases h <;>
    simp [Record.instr?, Instr.record, fieldRd, fieldRs1, fieldRs2, fieldImm, all4, all15]

/-- R75: a row admits the words whose `op` field is its number and whose other fields hold the record of an
instruction. -/
theorem OpcodeRow.admits_iff {row : OpcodeRow} (h : row ∈ opcodeRows) (w : InstrWord) : row.admits w = true ↔
    row.opcode.number? = some (fieldOp w).toNat ∧ ∃ i : Instr, i.record = fieldRecord row.opcode w := by
  obtain ⟨mask, number⟩ := opcodeRows_op_mask row h
  rw [OpcodeRow.admits_iff_fields, opcodeRows_operand_masks h, mask, number, BitVec.and_allOnes, Option.some_inj,
    BitVec.toNat_inj, eq_comm (a := fieldOp w)]

/-- R75, R82: which words decode to an instruction with opcode `o`. -/
theorem exists_decode_opcode {o : Opcode} {w : InstrWord} : (∃ i, decode w = .ok i ∧ i.opcode = o) ↔
    o.number? = some (fieldOp w).toNat ∧ ∃ i : Instr, i.record = fieldRecord o w := by
  constructor
  · rintro ⟨i, h, rfl⟩
    obtain ⟨number, fields⟩ := decode_eq_ok.1 h
    exact ⟨number, i, fields⟩
  · rintro ⟨number, i, fields⟩
    obtain rfl : i.opcode = o := congrArg Record.opcode fields
    exact ⟨i, decode_eq_ok.2 ⟨number, fields⟩, rfl⟩

/-- R75: a row admits exactly the words that decode to its opcode. -/
theorem OpcodeRow.admits_iff_decode {row : OpcodeRow} (h : row ∈ opcodeRows) (w : InstrWord) :
    row.admits w = true ↔ ∃ i, decode w = .ok i ∧ i.opcode = row.opcode :=
  (OpcodeRow.admits_iff h w).trans exists_decode_opcode.symm

/-- R75: one row for each opcode. -/
theorem opcodeRows_unique : ∀ row ∈ opcodeRows, ∀ row' ∈ opcodeRows, row.opcode = row'.opcode → row = row' := by
  decide

/-- R75: a row for the opcode of every instruction. -/
theorem exists_opcodeRow (i : Instr) : ∃ row ∈ opcodeRows, row.opcode = i.opcode := by
  cases i <;> simp only [Instr.opcode, Instr.record] <;> decide

/-- Settles O3: a row admits what decodes to its opcode; so two rows of one word have one opcode, and what decodes has a
row. -/
theorem decodeAgreesWithMaskAndMatch : Obligations.DecodeAgreesWithMaskAndMatch := by
  refine ⟨fun w row h => row.admits_iff_decode h w, fun w row h row' h' admits admits' => ?_, fun w noRow => ?_⟩
  · obtain ⟨i, decoded, opcode⟩ := (row.admits_iff_decode h w).1 admits
    obtain ⟨j, decoded', opcode'⟩ := (row'.admits_iff_decode h' w).1 admits'
    obtain rfl : i = j := by simpa [decoded] using decoded'
    exact opcodeRows_unique row h row' h' (opcode.symm.trans opcode')
  · cases decoded : decode w with
    | error => simp [decodeRecord, decoded, Record.invalid]
    | ok i =>
      obtain ⟨row, h, opcode⟩ := exists_opcodeRow i
      have admits := (row.admits_iff_decode h w).2 ⟨i, decoded, opcode.symm⟩
      simp [noRow row h] at admits

end Sys2Proof

/-! SUPPORT. Proofs for spec/40_btb_predictor.md: the predictor's counter, the queue and its ring buffer, and the program
invariant (R97, R100) through every stage. -/

namespace Sys2Proof.Machine

/-! ### The history counter (R90, R91) -/

theorem nextHist_taken (h : Nat) : nextHist h true = min 3 (h + 1) := rfl

theorem nextHist_notTaken (h : Nat) : nextHist h false = h - 1 := rfl

theorem predOf_iff {h : Nat} : predOf h = true ↔ 2 ≤ h := decide_eq_true_iff

/-- Settles O36: the four histories are told apart by where the counter crosses 2 and where it saturates. -/
theorem historyCounterTable : Obligations.HistoryCounterTable := by
  rintro h e t range rfl
  refine ⟨nextHist_taken _, ?_, ?_, ?_⟩
  · rw [BtbEntry.resolve_hist, nextHist_notTaken]; omega
  · rw [BtbEntry.resolve_pred, predOf_iff, nextHist_taken]; omega
  · rw [BtbEntry.resolve_pred, predOf_iff, nextHist_notTaken]; omega

/-! ### Lookup (R93) -/

theorem BtbEntry.hits_iff {e : BtbEntry} {a : Word} :
    e.hits a = true ↔ e.addr = a ∧ e.everTaken = true ∧ e.execCount ≠ 0 ∧ e.pred = true := by
  simp [BtbEntry.hits, and_assoc]

theorem btbLookup_eq_some {btb : List BtbEntry} {a : Word} {e : BtbEntry} (h : btbLookup btb a = some e) :
    e ∈ btb ∧ e.hits a = true := by
  rw [btbLookup] at h
  have hit := List.find?_some h
  exact ⟨List.mem_of_find?_eq_some h, hit⟩

/-- Settles O37: the lookup is the first entry of the list that `BtbEntry.hits`. -/
theorem lookupIsTheOldestPredictiveHit : Obligations.LookupIsTheOldestPredictiveHit := by
  intro btb a
  simp only [← BtbEntry.hits_iff]
  constructor
  · intro e
    rw [btbLookup, List.find?_eq_some_iff_append]
    constructor
    · rintro ⟨hit, older, newer, rfl, misses⟩
      exact ⟨older, newer, rfl, hit, fun d hd => by simpa using misses d hd⟩
    · rintro ⟨older, newer, rfl, hit, misses⟩
      exact ⟨hit, older, newer, rfl, fun d hd => by simpa using misses d hd⟩
  · exact List.find?_eq_none

/-! ### Insertion (R94, R95) -/

theorem btbHas_eq_false_iff {btb : List BtbEntry} {a : Word} : btbHas btb a = false ↔ ∀ e ∈ btb, e.addr ≠ a := by
  simp [btbHas]

theorem btbInsert_of_hit (btb : List BtbEntry) (a : Word) (f : Family) : btbInsert btb true a f = btb := rfl

theorem btbInsert_of_has {btb : List BtbEntry} {a : Word} (h : btbHas btb a = true) (hit : Bool) (f : Family) :
    btbInsert btb hit a f = btb := by
  simp [btbInsert, h]

theorem btbInsert_of_new {btb : List BtbEntry} {a : Word} (h : btbHas btb a = false) (f : Family) :
    btbInsert btb false a f = btbPush btb (BtbEntry.fresh a f) := by
  simp [btbInsert, h]

theorem btbPush_of_room {btb : List BtbEntry} (h : btb.length ≠ 4) (e : BtbEntry) : btbPush btb e = btb ++ [e] := by
  simp [btbPush, Config.btbCap, h]

theorem btbPush_of_full {btb : List BtbEntry} (h : btb.length = 4) (e : BtbEntry) :
    btbPush btb e = btb.tail ++ [e] := by
  simp [btbPush, Config.btbCap, h]

/-- Settles O38: a hit and a present address insert nothing; a new address is one push of the family's fresh entry. -/
theorem insertionEvictsTheOldest : Obligations.InsertionEvictsTheOldest := by
  intro btb hit a f
  constructor
  · rintro (rfl | ⟨e, he, addr⟩)
    · exact btbInsert_of_hit btb a f
    · exact btbInsert_of_has ((btbHas_iff btb a).2 (List.mem_map.2 ⟨e, he, addr⟩)) hit f
  · rintro rfl absent
    rw [btbInsert_of_new (btbHas_eq_false_iff.2 absent)]
    refine ⟨BtbEntry.fresh a f, by cases f <;> rfl, fun room => btbPush_of_room room _, ?_⟩
    rintro oldest rest rfl full
    exact btbPush_of_full full _

/-! ### Resolution (R96) -/

theorem btbUpdate_getElem? (btb : List BtbEntry) (a : Word) (taken : Bool) (t : Word) (k : Nat) :
    (btbUpdate btb a taken t)[k]? = btb[k]?.map fun e => if e.addr = a then e.resolve taken t else e := by
  simp [btbUpdate]

/-- Settles O39: the update is entry by entry, and resolves exactly the entries of the branch's address. -/
theorem resolutionUpdatesOneEntry : Obligations.ResolutionUpdatesOneEntry := by
  intro btb a t taken
  refine ⟨btbUpdate_addrs btb a taken t, fun k e he => ⟨fun other => ?_, fun own => ?_⟩⟩
  · simp [btbUpdate_getElem?, he, other]
  · exact ⟨e.resolve taken t, by simp [btbUpdate_getElem?, he, own], rfl, rfl, rfl, rfl, rfl⟩

/-! ### The ring buffer (R98) -/

theorem BtbRing.ok_iff {q : BtbRing} : q.ok = true ↔ q.size ≤ 4 ∧ q.tail.val = (q.head.val + q.size) % 4 := by
  simp [BtbRing.ok, Fin.ext_iff]

@[simp] theorem BtbRing.toList_length (q : BtbRing) : q.toList.length = q.size := by simp [BtbRing.toList]

/-- The slots after a write, at index `n` modulo 4. -/
theorem get_set_ofNat (slots : Vector BtbEntry 4) (i : Fin 4) (e : BtbEntry) (n : Nat) :
    (slots.set i e).get (Fin.ofNat 4 n) = if i.val = n % 4 then e else slots.get (Fin.ofNat 4 n) := by
  simp [Vector.get_eq_getElem, Vector.getElem_set]

theorem BtbRing.push_of_room {q : BtbRing} (room : q.size < 4) (e : BtbEntry) :
    q.push e = ⟨q.slots.set q.tail e, q.head, q.tail + 1, q.size + 1⟩ := if_pos room

theorem BtbRing.push_of_full {q : BtbRing} (full : q.size = 4) (e : BtbEntry) :
    q.push e = ⟨q.slots.set q.head e, q.head + 1, q.tail + 1, q.size⟩ := if_neg (by rw [full]; decide)

theorem BtbRing.push_ok {q : BtbRing} (h : q.ok = true) (e : BtbEntry) : (q.push e).ok = true := by
  obtain ⟨size, tail⟩ := BtbRing.ok_iff.1 h
  rcases Nat.lt_or_eq_of_le size with room | full
  · rw [BtbRing.push_of_room room, BtbRing.ok_iff]
    simp only [Fin.val_add, Fin.val_one]
    omega
  · rw [BtbRing.push_of_full full, BtbRing.ok_iff]
    simp only [Fin.val_add, Fin.val_one]
    omega

/-- R98: with room, slot `tail` is none of the queue's: the entry comes behind all of them. -/
theorem BtbRing.toList_push_of_room {q : BtbRing} (h : q.ok = true) (room : q.size < 4) (e : BtbEntry) :
    (q.push e).toList = q.toList ++ [e] := by
  obtain ⟨-, tail⟩ := BtbRing.ok_iff.1 h
  rw [BtbRing.push_of_room room, BtbRing.toList, BtbRing.toList]
  simp only [get_set_ofNat]
  rw [List.range_succ, List.map_append, List.map_singleton, if_pos tail]
  congr 1
  refine List.map_congr_left fun k hk => if_neg ?_
  have : k < q.size := List.mem_range.1 hk
  omega

/-- R98: when full, slot `head` held the oldest entry and is, once `head` has moved on, the newest place. -/
theorem BtbRing.toList_push_of_full {q : BtbRing} (full : q.size = 4) (e : BtbEntry) :
    (q.push e).toList = q.toList.tail ++ [e] := by
  have next (k : Nat) : Fin.ofNat 4 ((q.head + 1).val + k) = Fin.ofNat 4 (q.head.val + (k + 1)) := by
    simp only [Fin.ext_iff, Fin.val_ofNat, Fin.val_add, Fin.val_one]
    omega
  have old : q.toList.tail = (List.range 3).map fun k => q.slots.get (Fin.ofNat 4 (q.head.val + (k + 1))) := by
    rw [BtbRing.toList, full, List.range_succ_eq_map, List.map_cons, List.tail_cons, List.map_map]
    rfl
  rw [BtbRing.push_of_full full, old, BtbRing.toList, full]
  simp only [next, get_set_ofNat]
  rw [List.range_succ, List.map_append, List.map_singleton, if_pos (by omega)]
  congr 1
  refine List.map_congr_left fun k hk => if_neg ?_
  have : k < 3 := List.mem_range.1 hk
  omega

/-- Settles O40: a push with room and one into the full ring are those of the list. -/
theorem ringBufferRefinesTheQueue : Obligations.RingBufferRefinesTheQueue := by
  intro q e h
  refine ⟨BtbRing.push_ok h e, ?_⟩
  rcases Nat.lt_or_eq_of_le (BtbRing.ok_iff.1 h).1 with room | full
  · rw [BtbRing.toList_push_of_room h room, btbPush_of_room (by rw [BtbRing.toList_length]; omega)]
  · rw [BtbRing.toList_push_of_full full, btbPush_of_full (by rw [BtbRing.toList_length, full])]


/-! ### What a latch and an entry have of the program (R97, R100) -/

theorem codeRead_congr {s u : State} (code : u.code = s.code) (a : Word) : u.codeRead a = s.codeRead a := by
  rw [State.codeRead, State.codeRead, code]

/-- R50: whether a latch holds the program's record is settled by its address, its opcode and its operand fields. -/
theorem State.holdsProgram.congr {s u : State} {l m : Latch} (h : s.holdsProgram l) (code : u.code = s.code)
    (pc : m.pc = l.pc := by rfl) (opcode : m.opcode = l.opcode := by rfl) (rd : m.rd = l.rd := by rfl)
    (rs1 : m.rs1 = l.rs1 := by rfl) (rs2 : m.rs2 = l.rs2 := by rfl) (imm : m.imm = l.imm := by rfl) :
    u.holdsProgram m := by
  rw [State.holdsProgram] at h ⊢
  rw [codeRead_congr code, pc, opcode, rd, rs1, rs2, imm]
  exact h

/-- R50: an instruction in a latch that holds the program's is that of the record at its address, immediate included. -/
theorem State.holdsProgram.record {s : State} {l : Latch} {i : Instr} (h : s.holdsProgram l) (hi : l.instr? = some i) :
    ∃ r, s.codeRead l.pc = some r ∧ r.instr? = some i ∧ r.imm = l.imm := by
  rw [State.holdsProgram] at h
  cases read : s.codeRead l.pc with
  | none =>
    rw [read] at h
    simp only [Latch.instr?, h, reduceCtorEq] at hi
  | some r =>
    rw [read] at h
    obtain ⟨opcode, rd, rs1, rs2, imm⟩ := h
    refine ⟨r, rfl, ?_, imm.symm⟩
    rwa [Latch.instr?, opcode, rd, rs1, rs2, imm] at hi

/-- R113: Fetch fills the latch from the program. -/
theorem holdsProgram_fetchedLatch (s : State) (old : Latch) (a : Word) (hit : Bool) :
    s.holdsProgram (fetchedLatch old a (s.codeRead a) hit) := by
  unfold State.holdsProgram
  cases read : s.codeRead a <;> simp [fetchedLatch, read]

/-- R97: the entry belongs to a conditional branch of the program, and once resolved has its taken-target. -/
def State.EntryOfProgram (s : State) (e : BtbEntry) : Prop :=
  ∃ r i, s.codeRead e.addr = some r ∧ r.instr? = some i ∧ i.family?.isSome = true ∧
    (1 ≤ e.execCount → e.target = s.params.s32 (e.addr.toInt + r.imm.toInt))

theorem State.EntryOfProgram.congr {s u : State} {e : BtbEntry} (h : s.EntryOfProgram e) (code : u.code = s.code)
    (params : u.params = s.params) : u.EntryOfProgram e := by
  rw [State.EntryOfProgram] at h ⊢
  rwa [codeRead_congr code, params]

section
variable {s : State} {l : Latch} {i : Instr} (holds : s.holdsProgram l) (hi : l.instr? = some i)
  (branch : i.family?.isSome = true)
include holds hi branch

/-- R94: a fresh entry is not resolved yet. -/
theorem State.EntryOfProgram.fresh (f : Family) : s.EntryOfProgram (BtbEntry.fresh l.pc f) := by
  obtain ⟨r, read, instr, -⟩ := holds.record hi
  refine ⟨r, i, by rwa [BtbEntry.fresh_addr], instr, branch, ?_⟩
  cases f <;> exact nofun

/-- R96: a resolution writes the taken-target of the branch. -/
theorem State.EntryOfProgram.resolve {e : BtbEntry} (addr : e.addr = l.pc) (taken : Bool) :
    s.EntryOfProgram (e.resolve taken (s.params.s32 (l.pc.toInt + l.imm.toInt))) := by
  obtain ⟨r, read, instr, imm⟩ := holds.record hi
  rw [← addr] at read
  refine ⟨r, i, read, instr, branch, fun _ => ?_⟩
  rw [BtbEntry.resolve_target, BtbEntry.resolve_addr, addr, imm]

end

/-- R96: an update neither adds nor removes an address. -/
theorem btbHas_btbUpdate (btb : List BtbEntry) (b : Word) (taken : Bool) (t a : Word) :
    btbHas (btbUpdate btb b taken t) a = btbHas btb a := by
  rw [Bool.eq_iff_iff, btbHas_iff, btbHas_iff, btbUpdate_addrs]

/-- R93: a predictive hit is an entry of the address. -/
theorem btbHas_of_btbLookup {btb : List BtbEntry} {a : Word} (h : (btbLookup btb a).isSome = true) :
    btbHas btb a = true := by
  obtain ⟨e, he⟩ := Option.isSome_iff_exists.1 h
  obtain ⟨mem, hit⟩ := btbLookup_eq_some he
  exact (btbHas_iff btb a).2 (List.mem_map.2 ⟨e, mem, (BtbEntry.hits_iff.1 hit).1⟩)

/-- R96: Execute adds and removes no entry. -/
theorem ExecuteDone.btbHas_eq {s u : State} (f : ExecuteDone s u) (a : Word) : btbHas u.btb a = btbHas s.btb a := by
  rcases f.btb with btb | ⟨-, -, taken, btb⟩ <;> rw [btb]
  exact btbHas_btbUpdate ..

/-- R126: a flush empties `DL`; so what is still in it was there before Execute. -/
theorem ExecuteDone.dl_eq_of_valid {s u : State} (f : ExecuteDone s u) : u.dl.valid = true → u.dl = s.dl := by
  rcases f.front with ⟨-, dl, -⟩ | ⟨-, -, dl, -⟩ <;> rw [dl]
  · exact fun _ => rfl
  · exact nofun

/-! ### The stages keep the program invariant -/

section
variable {s u : State} (h : s.ProgramInv)
include h

/-- What only touches the latches behind Execute has to say only what these hold. -/
theorem State.ProgramInv.behindExecute (dl : u.dl = s.dl) (xl : u.xl = s.xl) (btb : u.btb = s.btb)
    (code : u.code = s.code) (params : u.params = s.params) (inMemory : u.ml.valid = true → u.holdsProgram u.ml)
    (inWriteback : u.wl.valid = true → u.holdsProgram u.wl) : u.ProgramInv where
  inDecode := by rw [dl]; exact fun hv => (h.inDecode hv).congr code
  inExecute := by rw [xl]; exact fun hv => (h.inExecute hv).congr code
  inMemory := inMemory
  inWriteback := inWriteback
  entries := by rw [btb]; exact fun e he => State.EntryOfProgram.congr (h.entries e he) code params
  hitHasEntry := by rw [dl, btb]; exact h.hitHasEntry
  branchHasEntry := by rw [xl, btb]; exact h.branchHasEntry

/-- R130: Writeback empties `WL`. -/
theorem WritebackDone.keepsProgram (f : WritebackDone s u) : u.ProgramInv := by
  refine h.behindExecute f.dl f.xl f.btb f.code f.params ?_ ?_
  · rw [f.ml]; exact fun hv => (h.inMemory hv).congr f.code
  · rw [f.wl]; exact nofun

/-- R128: Memory passes its instruction on to `WL`. -/
theorem MemoryDone.keepsProgram (f : MemoryDone s u) : u.ProgramInv := by
  refine h.behindExecute f.dl f.xl f.btb f.code f.params ?_ ?_
  · rw [f.ml]; exact nofun
  · cases filled : s.ml.valid with
    | false => rw [f.wlKept filled]; exact fun hv => (h.inWriteback hv).congr f.code
    | true =>
      obtain ⟨v, wl⟩ := f.wlFilled filled
      rw [wl]
      exact fun hv => (h.inMemory hv).congr f.code

/-- R96: after Execute the entries are the program's: an updated one has got the taken-target of the branch in `XL`. -/
theorem ExecuteDone.entriesOfProgram (f : ExecuteDone s u) : ∀ e ∈ u.btb, s.EntryOfProgram e := by
  rcases f.btb with btb | ⟨hv, ⟨i, hi, branch⟩, taken, btb⟩ <;> rw [btb]
  · exact h.entries
  · intro e he
    obtain ⟨d, hd, rfl⟩ := List.mem_map.1 he
    split
    next addr => exact .resolve (h.inExecute hv) hi branch addr taken
    next => exact h.entries d hd

/-- R123: Execute passes its instruction on to `ML`; it adds and removes no entry, and a flush empties `DL`. -/
theorem ExecuteDone.keepsProgram (f : ExecuteDone s u) : u.ProgramInv where
  inDecode hv := by
    have kept := f.dl_eq_of_valid hv
    rw [kept] at hv ⊢
    exact (h.inDecode hv).congr f.code
  inExecute := by rw [f.xl]; exact nofun
  inMemory := by
    cases filled : s.xl.valid with
    | false => rw [f.mlKept filled]; exact fun hv => (h.inMemory hv).congr f.code
    | true =>
      obtain ⟨r, a, ml⟩ := f.mlFilled filled
      rw [ml]
      exact fun hv => (h.inExecute hv).congr f.code
  inWriteback := by rw [f.wl]; exact fun hv => (h.inWriteback hv).congr f.code
  entries e he := (f.entriesOfProgram h e he).congr f.code f.params
  hitHasEntry hv := by
    have kept := f.dl_eq_of_valid hv
    rw [kept] at hv ⊢
    rw [f.btbHas_eq]
    exact h.hitHasEntry hv
  branchHasEntry := by rw [f.xl]; exact nofun

/-- R94, R122: the issue of a conditional branch, whose entry is there or inserted. -/
theorem State.ProgramInv.issueBranch {i : Instr} {f : Family} (hv : s.dl.valid = true) (hi : s.dl.instr? = some i)
    (hf : i.family? = some f) : (((s.at .decode).insertBranch f).unstall).advanceDecode.ProgramInv where
  inDecode := nofun
  inExecute _ := (h.inDecode hv).congr rfl
  inMemory := h.inMemory
  inWriteback := h.inWriteback
  entries e he := by
    rcases mem_btbInsert he with he | rfl
    · exact h.entries e he
    · exact State.EntryOfProgram.fresh (h.inDecode hv) hi (by rw [hf]; rfl) f
  hitHasEntry := nofun
  branchHasEntry _ _ := btbHas_btbInsert _ _ _ _ (h.hitHasEntry hv)

/-- R122: the issue of any other instruction, which needs no entry. -/
theorem State.ProgramInv.issue {i : Instr} (hv : s.dl.valid = true) (hi : s.dl.instr? = some i)
    (noBranch : i.family? = none) (a b : Word) (ds : List Int) : ((s.at .decode).issue a b ds).ProgramInv where
  inDecode := by simp
  inExecute := by simpa using fun _ => (h.inDecode hv).congr (by simp)
  inMemory := by simpa using fun hv => (h.inMemory hv).congr (by simp)
  inWriteback := by simpa using fun hv => (h.inWriteback hv).congr (by simp)
  entries e he := State.EntryOfProgram.congr (h.entries e (by simpa using he)) (by simp) (by simp)
  hitHasEntry := by simp
  branchHasEntry := by
    have same : ((s.at .decode).issue a b ds).xl.instr? = s.dl.instr? := by simp; rfl
    rw [same, hi]
    rintro - ⟨_, ⟨⟩, branch⟩
    simp [noBranch] at branch

/-- R117 to R122: Decode stalls or issues. -/
theorem decodeStage_keepsProgram (e : decodeStage s = .next u) : u.ProgramInv := by
  rcases decodeStage_cases e with
    ⟨-, rfl⟩ | ⟨hv, i, hi, -, ⟨rfl, -⟩ | ⟨f, hf, rfl⟩ | ⟨a, b, noBranch, -, -, -, rfl⟩⟩
  · exact h
  · exact ⟨h.inDecode, h.inExecute, h.inMemory, h.inWriteback, h.entries, h.hitHasEntry, h.branchHasEntry⟩
  · exact h.issueBranch hv hi hf
  · exact h.issue hv hi noBranch a b _

/-- R113, R116: Fetch fills `DL` with what the program has at `pc`; a hit is an entry. -/
theorem FetchDone.keepsProgram (f : FetchDone s u) : u.ProgramInv where
  inDecode _ := by rw [f.dl]; exact (holdsProgram_fetchedLatch s s.fl s.pc _).congr f.code
  inExecute := by rw [f.xl]; exact fun hv => (h.inExecute hv).congr f.code
  inMemory := by rw [f.ml]; exact fun hv => (h.inMemory hv).congr f.code
  inWriteback := by rw [f.wl]; exact fun hv => (h.inWriteback hv).congr f.code
  entries := by rw [f.btb]; exact fun e he => State.EntryOfProgram.congr (h.entries e he) f.code f.params
  hitHasEntry _ := by rw [f.dl, f.btb]; exact btbHas_of_btbLookup
  branchHasEntry := by rw [f.xl, f.btb]; exact h.branchHasEntry

theorem fetchStage_keepsProgram (e : fetchStage s = .next u) : u.ProgramInv := by
  rcases fetchStage_cases e with ⟨-, rfl⟩ | ⟨-, -, rfl⟩ | ⟨-, -, -, rfl⟩ | ⟨-, -, -, f⟩
  · exact h
  · exact { h with }
  · exact { h with }
  · exact f.keepsProgram h

/-! ### The cycle and the step -/

theorem cycleStages_keepsProgram (e : cycleStages s = .next u) : u.ProgramInv := by
  obtain ⟨afterWriteback, afterMemory, afterExecute, afterDecode, hw, hm, hx, hd, hf⟩ := cycleStages_eq_next.1 e
  have atStart : s.clearBuses.ProgramInv := { h with }
  have writeback := (writebackStage_done hw).keepsProgram atStart
  have memory := (memoryStage_done hm).keepsProgram writeback
  have execute := (executeStage_done hx).keepsProgram memory
  have decode := decodeStage_keepsProgram execute hd
  exact fetchStage_keepsProgram decode hf

end

/-- Settles O46: each stage keeps the program invariant; the close of a cycle and a fatal condition touch none of it. -/
theorem stepKeepsTheProgramInvariant : Obligations.StepKeepsTheProgramInvariant := by
  intro s t h e
  rcases step_cases s with ⟨-, e'⟩ | ⟨-, ⟨u, hu, e'⟩ | ⟨k, -, e'⟩⟩ <;> rw [e'] at e <;> cases e
  · exact h
  · exact { cycleStages_keepsProgram h hu with }
  · exact { h with }

end Sys2Proof.Machine

/-! SUPPORT. Proofs for spec/41_pipeline_stages.md: the stopped core (R132), the first cycle (R241), the stall (R121), the
halt invariant (R115, R131), the flush (R126), and the refinement of the sequential machine (R134). -/

namespace Sys2Proof.Machine

open Sys2Proof.Config

/-! ### The stopped core, the first cycle, the stall -/

/-- R132, R216: a step leaves a stopped core alone. -/
theorem step_of_stopped {s : State} (h : (s.halted || s.fault.isSome) = true) : step s = .next s := by
  rcases step_cases s with ⟨-, e⟩ | ⟨running, -⟩
  · exact e
  · exact absurd h (by simp [running])

/-- Settles O8: `step_of_stopped`, which `stepOneCycle` passes on. -/
theorem haltedOrFaultedStepIsIdentity : Obligations.HaltedOrFaultedStepIsIdentity := by
  intro s h
  have stopped : (s.halted || s.fault.isSome) = true := by
    rcases h with halted | faulted
    · simp [halted]
    · simp [Option.isSome_iff_ne_none.2 faulted]
  exact ⟨step_of_stopped stopped, by simp [stepOneCycle, step_of_stopped stopped]⟩

/-- R110: a running core whose four latches are empty only fetches. -/
theorem step_of_empty {s t : State} (running : (s.halted || s.fault.isSome) = false) (wl : s.wl.valid = false)
    (ml : s.ml.valid = false) (xl : s.xl.valid = false) (dl : s.dl.valid = false)
    (fetch : fetchStage s.clearBuses = .next t) : step s = .next t.closeCycle := by
  have backEnd : cycleStages s = .next t := cycleStages_eq_next.2 ⟨_, _, _, _, runStage_bubble _ wl, runStage_bubble _ ml,
    runStage_bubble _ xl, runStage_bubble _ dl, fetch⟩
  simp [step, stepCycle, running, backEnd]

/-- R113, R115: Fetch delivers what it has filled into its latch, and goes off on a `HALT`. -/
theorem fetchDeliver_eq (s : State) : fetchDeliver s =
    .next (if s.fl.opcode = .op .halt then (s.at .fetch).forwardFetch.stopFetch else (s.at .fetch).forwardFetch) := by
  unfold fetchDeliver
  cases h : s.fl.instr? with
  | none =>
    have : s.fl.opcode ≠ .op .halt := fun e => by simp [Latch.instr?_halt.2 e] at h
    simp [this, fetchForward]
  | some i =>
    have : s.fl.opcode = .op .halt ↔ i = .halt := by rw [← Latch.instr?_halt, h, Option.some_inj]
    simp only [this]
    exact exec_fetch i rfl

/-- R113: Fetch at work: enabled, not skipped, not held. -/
theorem fetchStage_of_enabled {s : State} (enabled : s.fl.valid = true) (noRedirect : s.redirectPending = false)
    (free : s.fl.stalled = false) : fetchStage s = fetchDeliver s.fetchFill := by
  simp [fetchStage, enabled, noRedirect, free]

/-- R113: Fetch without a predictive hit goes on at the next address. -/
theorem State.fetchFill_of_miss {s : State} (miss : btbLookup s.btb s.pc = none) : s.fetchFill =
    { s with
      fl := fetchedLatch s.fl s.pc (s.codeRead s.pc) false
      pc := s.params.s32 (s.pc.toInt + ilen) } := by
  simp [State.fetchFill, miss]

/-- R9: 4004 is a Word at every `XLEN`. -/
theorem s32_secondAddress (p : Params) : p.s32 4004 = 4004 := by
  simpa [Params.fits] using fits_of_immOk p (w := 4004) (by decide)

/-- Settles O6: after reset only Fetch has work, and it misses the empty BTB. -/
theorem firstCycleFetchesTheEntryPoint : Obligations.FirstCycleFetchesTheEntryPoint := by
  rintro r rest params init s l h rfl
  rw [State.eq_resetWith_of_initialize h]
  generalize Memory.ofWords _ = dmem
  generalize start : (State.resetWith (r :: rest) params dmem).clearBuses = u
  have pc : u.pc = 4000 := start ▸ (by decide : word codeBase = 4000)
  have read : u.codeRead 4000 = some r := start ▸ rfl
  have next : u.params.s32 ((4000 : Word).toInt + ilen) = 4004 := s32_secondAddress u.params
  have fetch : fetchStage u = fetchDeliver u.fetchFill := by subst start; exact fetchStage_of_enabled rfl rfl rfl
  have miss : btbLookup u.btb u.pc = none := start ▸ rfl
  rw [fetchDeliver_eq, State.fetchFill_of_miss miss, pc, read, next] at fetch
  refine (step_of_empty rfl rfl rfl rfl rfl (start ▸ fetch)).trans ?_
  subst start
  by_cases halt : r.opcode = .halt <;> simp [halt, fetchedLatch] <;> rfl

/-- Settles O20: of the three ways Decode can take, the range check has passed and an issue would need every source resolved
and every destination free. -/
theorem unresolvedSourceOrBusyDestinationStalls : Obligations.UnresolvedSourceOrBusyDestinationStalls := by
  rintro i s hs ⟨accepted, inRange⟩ noBranch waits
  have decodes : exec i s = decodeOperands i.operands s := by simp [exec_decode i hs, accepted, noBranch]
  rcases decodeOperands_cases i.operands s with ⟨f, bad, -⟩ | ⟨-, e, -⟩ | ⟨a, b, -, first, second, free, -⟩
  · exact absurd bad (by simp [inRange])
  · exact decodes.trans e
  · rcases waits with ⟨r, src, unresolved⟩ | ⟨r, src, unresolved⟩ | ⟨d, dest, busy⟩
    · simp [State.operand, src, unresolved] at first
    · simp [State.operand, src, unresolved] at second
    · exact absurd busy (by simp [free d dest])

/-! ### The halt invariant through the stages (R115, R131) -/

section
variable {s u : State} (h : s.HaltInv)
include h

/-- R130: a `HALT` leaves `WL` as the core halts. -/
theorem WritebackDone.keepsHalt (f : WritebackDone s u) : u.HaltInv where
  inDecode := by rw [f.dl, f.fl]; exact h.inDecode
  inExecute := by rw [f.xl, f.dl, f.fl]; exact h.inExecute
  inMemory := by rw [f.ml, f.xl, f.dl, f.fl]; exact h.inMemory
  inWriteback := by rw [f.wl]; exact nofun
  afterHalt halted := by
    rw [f.wl, f.ml, f.xl, f.dl, f.fl]
    refine ⟨rfl, ?_⟩
    rw [f.halted, Bool.or_eq_true, Bool.and_eq_true, decide_eq_true_eq] at halted
    rcases halted with halted | ⟨valid, halt⟩
    · exact (h.afterHalt halted).2
    · exact h.inWriteback valid halt

/-- R128: a `HALT` goes from `ML` to `WL`. -/
theorem MemoryDone.keepsHalt (f : MemoryDone s u) : u.HaltInv where
  inDecode := by rw [f.dl, f.fl]; exact h.inDecode
  inExecute := by rw [f.xl, f.dl, f.fl]; exact h.inExecute
  inMemory := by rw [f.ml]; exact nofun
  inWriteback := by
    rw [f.xl, f.dl, f.fl]
    refine fun valid halt => ⟨f.ml, ?_⟩
    cases filled : s.ml.valid with
    | false =>
      rw [f.wlKept filled] at valid halt
      exact (h.inWriteback valid halt).2
    | true =>
      obtain ⟨v, wl⟩ := f.wlFilled filled
      rw [wl] at halt
      exact h.inMemory filled halt
  afterHalt halted := by
    obtain ⟨wl, ml, front⟩ := h.afterHalt (f.halted ▸ halted)
    rw [f.wlKept ml, f.xl, f.dl, f.fl]
    exact ⟨wl, f.ml, front⟩

/-- R123, R126: a `HALT` goes from `XL` to `ML`; a flush comes from an older instruction, and removes a `HALT` from `DL`. -/
theorem ExecuteDone.keepsHalt (f : ExecuteDone s u) : u.HaltInv where
  inDecode := by
    rcases f.front with ⟨-, dl, fl, -⟩ | ⟨-, -, dl, -⟩ <;> rw [dl]
    · exact fl ▸ h.inDecode
    · exact nofun
  inExecute := by rw [f.xl]; exact nofun
  inMemory valid halt := by
    refine ⟨f.xl, ?_⟩
    cases filled : s.xl.valid with
    | false =>
      rw [f.mlKept filled] at valid halt
      rcases f.front with ⟨-, dl, fl, -⟩ | ⟨flushes, -⟩
      · rw [dl, fl]; exact (h.inMemory valid halt).2
      · simp [filled] at flushes
    | true =>
      obtain ⟨r, a, ml⟩ := f.mlFilled filled
      rw [ml] at halt
      rcases f.front with ⟨-, dl, fl, -⟩ | ⟨-, noHalt, -⟩
      · rw [dl, fl]; exact h.inExecute filled halt
      · exact absurd halt noHalt
  inWriteback valid halt := by
    rw [f.wl] at valid halt
    obtain ⟨ml, xl, front⟩ := h.inWriteback valid halt
    rcases f.front with ⟨-, dl, fl, -⟩ | ⟨flushes, -⟩
    · rw [f.mlKept xl, dl, fl]; exact ⟨ml, f.xl, front⟩
    · simp [xl] at flushes
  afterHalt halted := by
    obtain ⟨wl, ml, xl, front⟩ := h.afterHalt (f.halted ▸ halted)
    rcases f.front with ⟨-, dl, fl, -⟩ | ⟨flushes, -⟩
    · rw [f.wl, f.mlKept xl, dl, fl]; exact ⟨wl, ml, f.xl, front⟩
    · simp [xl] at flushes

/-- R122: what Decode issues has nothing older ahead that is a `HALT`, and leaves `DL` empty. -/
theorem State.HaltInv.issue (valid : s.dl.valid = true) (same : u.xl.instr? = s.dl.instr?) (dl : u.dl.valid = false)
    (fl : u.fl.valid = s.fl.valid) (ml : u.ml = s.ml) (wl : u.wl = s.wl) (halted : u.halted = s.halted) :
    u.HaltInv where
  inDecode := by rw [dl]; exact nofun
  inExecute _ halt := ⟨dl, fl.trans (h.inDecode valid (same ▸ halt))⟩
  inMemory hv halt := by
    rw [ml] at hv halt
    exact absurd valid (by simp [(h.inMemory hv halt).2.1])
  inWriteback hv halt := by
    rw [wl] at hv halt
    exact absurd valid (by simp [(h.inWriteback hv halt).2.2.1])
  afterHalt hh := absurd valid (by simp [(h.afterHalt (halted ▸ hh)).2.2.2.1])

/-- R117 to R122: Decode stalls or issues. -/
theorem decodeStage_keepsHalt (e : decodeStage s = .next u) : u.HaltInv := by
  rcases decodeStage_cases e with
    ⟨-, rfl⟩ | ⟨hv, i, -, -, ⟨rfl, -⟩ | ⟨f, -, rfl⟩ | ⟨a, b, -, -, -, -, rfl⟩⟩
  · exact h
  · exact { h with }
  · exact h.issue hv rfl rfl rfl rfl rfl rfl
  · exact h.issue hv (by simp; rfl) (by simp) (by simp) (by simp) (by simp) (by simp)

/-- R113, R115: Fetch works only while no `HALT` is ahead, and goes off with one. -/
theorem FetchDone.keepsHalt (f : FetchDone s u) (enabled : s.fl.valid = true) : u.HaltInv where
  inDecode _ halt := by rw [f.fl]; simpa using halt
  inExecute hv halt := by
    rw [f.xl] at hv halt
    exact absurd enabled (by simp [(h.inExecute hv halt).2])
  inMemory hv halt := by
    rw [f.ml] at hv halt
    exact absurd enabled (by simp [(h.inMemory hv halt).2.2])
  inWriteback hv halt := by
    rw [f.wl] at hv halt
    exact absurd enabled (by simp [(h.inWriteback hv halt).2.2.2])
  afterHalt hh := absurd enabled (by simp [(h.afterHalt (f.halted ▸ hh)).2.2.2.2])

theorem fetchStage_keepsHalt (e : fetchStage s = .next u) : u.HaltInv := by
  rcases fetchStage_cases e with ⟨-, rfl⟩ | ⟨-, -, rfl⟩ | ⟨-, -, -, rfl⟩ | ⟨enabled, -, -, f⟩
  · exact h
  · exact { h with }
  · exact { h with }
  · exact f.keepsHalt h enabled

theorem cycleStages_keepsHalt (e : cycleStages s = .next u) : u.HaltInv := by
  obtain ⟨afterWriteback, afterMemory, afterExecute, afterDecode, hw, hm, hx, hd, hf⟩ := cycleStages_eq_next.1 e
  have atStart : s.clearBuses.HaltInv := { h with }
  have writeback := (writebackStage_done hw).keepsHalt atStart
  have memory := (memoryStage_done hm).keepsHalt writeback
  have execute := (executeStage_done hx).keepsHalt memory
  have decode := decodeStage_keepsHalt execute hd
  exact fetchStage_keepsHalt decode hf

end

/-- Settles O45: each stage keeps the halt invariant; the close of a cycle and a fatal condition touch none of it. -/
theorem stepKeepsTheHaltInvariant : Obligations.StepKeepsTheHaltInvariant := by
  intro s t h e
  rcases step_cases s with ⟨-, e'⟩ | ⟨-, ⟨u, hu, e'⟩ | ⟨k, -, e'⟩⟩ <;> rw [e'] at e <;> cases e
  · exact h
  · exact { cycleStages_keepsHalt h hu with }
  · exact { h with }

/-! ### The flush (R126, R127) -/

/-- R126: Execute left the front end alone. -/
structure State.FrontKept (s u : State) : Prop where
  pc : u.pc = s.pc
  dl : u.dl = s.dl
  fl : u.fl = s.fl
  redirectPending : u.redirectPending = s.redirectPending

/-- R126: Execute flushed to `t`. -/
structure State.Flushed (s u : State) (t : Word) : Prop where
  pc : u.pc = t
  dl : u.dl = { s.dl with valid := false, stalled := false }
  fl : u.fl = { s.fl with valid := true, stalled := false }
  redirectPending : u.redirectPending = true

theorem State.misprediction?_eq_none {s : State} {taken : Bool} {imm : Word} :
    s.misprediction? taken imm = none ↔ taken = s.xl.btbHit := by
  unfold State.misprediction?
  split <;> simp [*]

/-- R196: a misprediction is an outcome opposite to the prediction; its target is the address Fetch did not take. -/
theorem State.misprediction?_eq_some {s : State} {taken : Bool} {imm t : Word} (h : s.misprediction? taken imm = some t) :
    taken = (!s.xl.btbHit) ∧ t = if taken then s.branchTarget imm else s.fallThrough := by
  unfold State.misprediction? at h
  split at h
  · cases h
  next differ =>
    obtain rfl := Option.some_inj.1 h
    refine ⟨by cases taken <;> simp_all, ?_⟩
    cases taken <;> rfl

/-- R196: a branch whose outcome is what Fetch did only updates the BTB. -/
theorem executeBranch_of_predicted {s : State} {taken : Bool} {imm : Word} (h : s.misprediction? taken imm = none) :
    executeBranch taken imm s = .next (s.resolveBranch taken (s.branchTarget imm)).advanceExecute := by
  simp [executeBranch, State.misprediction?_eq_none.1 h]

/-- R196: a mispredicted branch updates the BTB and flushes. -/
theorem executeBranch_of_mispredicted {s : State} {taken : Bool} {imm t : Word}
    (h : s.misprediction? taken imm = some t) :
    executeBranch taken imm s =
      .next ((s.resolveBranch (!s.xl.btbHit) (s.branchTarget imm)).flush t).advanceExecute := by
  obtain ⟨outcome, rfl⟩ := State.misprediction?_eq_some h
  simp [executeBranch, outcome]

/-- R127: Execute of an instruction that does not flush. -/
theorem exec_execute_noFlush (i : Instr) {s u : State} (stage : s.stage = .execute) (noFlush : s.flushOf i = none)
    (e : exec i s = .next u) : s.FrontKept u := by
  cases i <;> simp only [State.flushOf, reduceCtorEq] at noFlush <;>
    simp only [exec, stage, execAdd, execSub, execMul, execDiv, execAnd, execOr, execXor, execMovc, execLoad, execStore,
      execBz, execBnz, execHalt, execAddl, execSubl, execLoadp, execStorep, execCmp, execCml, execBp, execBnp] at e
  case bz | bnz | bp | bnp =>
    rw [executeBranch_of_predicted noFlush] at e
    cases e
    constructor <;> simp
  case div => cases e
  all_goals
    cases e
    constructor <;> simp

/-- R126, R127: Execute of an instruction that flushes: a jump leaves the BTB alone, a mispredicted branch resolves. -/
theorem exec_execute_flush (i : Instr) {s u : State} {t : Word} (stage : s.stage = .execute)
    (flushes : s.flushOf i = some t) (e : exec i s = .next u) : s.Flushed u t ∧
      (i.family? = none → u.btb = s.btb) ∧
      (i.family? ≠ none → u.btb = btbUpdate s.btb s.xl.pc (!s.xl.btbHit) (s.branchTarget i.record.imm)) := by
  cases i <;> simp only [State.flushOf, reduceCtorEq] at flushes <;>
    simp only [exec, stage, execBz, execBnz, execBp, execBnp, execJump, execJalr] at e
  case bz | bnz | bp | bnp =>
    rw [executeBranch_of_mispredicted flushes] at e
    cases e
    exact ⟨by constructor <;> simp, nofun, fun _ => rfl⟩
  case jump | jalr =>
    cases e
    refine ⟨?_, fun _ => by simp, fun branch => absurd rfl branch⟩
    constructor <;> simp
    exact Option.some_inj.1 flushes

/-- R127: what the Execute stage does to the front end is settled by `State.flushTarget?`. -/
theorem executeStage_noFlush {s u : State} (noFlush : s.flushTarget? = none) (e : executeStage s = .next u) :
    s.FrontKept u := by
  rcases runStage_eq_next.1 e with ⟨-, rfl⟩ | ⟨hv, i, hi, e⟩
  · exact ⟨rfl, rfl, rfl, rfl⟩
  · simp only [State.flushTarget?, hv, hi, if_true, Option.bind_some] at noFlush
    have kept := exec_execute_noFlush i (s := s.at .execute) rfl noFlush e
    exact ⟨kept.pc, kept.dl, kept.fl, kept.redirectPending⟩

/-- R127: a flush comes from the instruction in `XL`. -/
theorem State.flushTarget?_eq_some {s : State} {t : Word} (h : s.flushTarget? = some t) :
    s.xl.valid = true ∧ ∃ i, s.xl.instr? = some i ∧ s.flushOf i = some t := by
  unfold State.flushTarget? at h
  split at h
  next hv => exact ⟨hv, by simpa [Option.bind_eq_some_iff] using h⟩
  next => cases h

theorem executeStage_flush {s u : State} {t : Word} (flushes : s.flushTarget? = some t) (e : executeStage s = .next u) :
    s.Flushed u t := by
  obtain ⟨hv, i, hi, flushOf⟩ := State.flushTarget?_eq_some flushes
  rw [executeStage, runStage_instr s hv hi] at e
  have flushed := (exec_execute_flush i (s := s.at .execute) rfl flushOf e).1
  exact ⟨flushed.pc, flushed.dl, flushed.fl, flushed.redirectPending⟩

/-- R96, R127: what a cycle that flushes leaves of the BTB. -/
theorem executeStage_flush_btb {s u : State} {t : Word} {i : Instr} (flushes : s.flushTarget? = some t)
    (hi : s.xl.instr? = some i) (e : executeStage s = .next u) :
    (i.family? = none → u.btb = s.btb) ∧
    (i.family? ≠ none →
      u.btb = btbUpdate s.btb s.xl.pc (!s.xl.btbHit) (s.params.s32 (s.xl.pc.toInt + s.xl.imm.toInt))) := by
  obtain ⟨hv, j, hj, flushOf⟩ := State.flushTarget?_eq_some flushes
  obtain rfl := Option.some_inj.1 (hi.symm.trans hj)
  rw [executeStage, runStage_instr s hv hi] at e
  obtain ⟨-, jump, branch⟩ := exec_execute_flush i (s := s.at .execute) rfl flushOf e
  refine ⟨jump, fun family => ?_⟩
  rw [branch family, Latch.imm_of_branch hi (Option.isSome_iff_ne_none.2 family)]
  rfl

/-- R127: what a flush depends on. -/
theorem State.flushTarget?_congr {s u : State} (xl : u.xl = s.xl) (cc : u.cc = s.cc) (params : u.params = s.params) :
    u.flushTarget? = s.flushTarget? := by
  have same : u.flushOf = s.flushOf := by
    funext i
    cases i <;> simp [State.flushOf, State.misprediction?, xl, cc, params]
  simp [State.flushTarget?, xl, same]

/-- R126, R252: after a flush Decode has nothing to do and Fetch consumes the redirect. -/
theorem frontEnd_of_flushed {s : State} (empty : s.dl.valid = false) (enabled : s.fl.valid = true)
    (redirect : s.redirectPending = true) : decodeStage s = .next s ∧
      fetchStage s = .next { s with redirectPending := false } :=
  ⟨runStage_bubble s empty, by simp [fetchStage, enabled, redirect]⟩

/-- Settles O34: Writeback and Memory leave to Execute what it flushes, and behind a flush Decode has nothing to do and Fetch
only consumes the redirect. -/
theorem flushLosesDecodeAndOneFetch : Obligations.FlushLosesDecodeAndOneFetch := by
  intro s t a run flushes e noFault
  rcases step_cases s with ⟨stopped, -⟩ | ⟨-, ⟨d, cycle, e'⟩ | ⟨k, -, e'⟩⟩
  · exact absurd run (by simp [s.running_eq, stopped])
  · rw [e'] at e
    cases e
    obtain ⟨u, v, w, x, hw, hm, hx, hd, hf⟩ := cycleStages_eq_next.1 cycle
    have writeback := writebackStage_done hw
    have memory := memoryStage_done hm
    have execute := executeStage_done hx
    have xl : v.xl = s.xl := memory.xl.trans writeback.xl
    have params : v.params = s.params := memory.params.trans writeback.params
    have flushes' : v.flushTarget? = some a :=
      (State.flushTarget?_congr xl (memory.cc.trans writeback.cc) params).trans flushes
    have flushed := executeStage_flush flushes' hx
    obtain ⟨idle, fetch⟩ := frontEnd_of_flushed (s := w) (by rw [flushed.dl]) (by rw [flushed.fl]) flushed.redirectPending
    rw [idle] at hd
    cases hd
    rw [fetch] at hf
    cases hf
    obtain ⟨hv, -⟩ := State.flushTarget?_eq_some flushes
    obtain ⟨r, m, ml⟩ := execute.mlFilled (xl ▸ hv)
    have busy : ∀ q, w.isBusy q = (s.isBusy q && !(s.wl.valid && decide (q ∈ s.wl.dests))) := fun q =>
      (isBusy_congr (execute.busy.trans memory.busy) q (execute.params.trans memory.params)).trans (writeback.busy q)
    refine ⟨flushed.pc, by simp [flushed.dl], by simp [flushed.dl], execute.xl, by simp [flushed.fl],
      by simp [flushed.fl], rfl, by simp [ml, xl, hv], by simp [ml, xl]; rfl, by simp [ml, xl], ?_, ?_, ?_⟩
    · intro q (hq : w.isBusy q = true)
      exact (Bool.and_eq_true_iff.1 ((busy q).symm.trans hq)).1
    · intro i hi jump
      exact ((executeStage_flush_btb flushes' (xl ▸ hi) hx).1 jump).trans (memory.btb.trans writeback.btb)
    · intro i hi branch
      have btb := (executeStage_flush_btb flushes' (xl ▸ hi) hx).2 branch
      rwa [memory.btb, writeback.btb, xl, params] at btb
  · rw [e'] at e
    cases e
    cases noFault

/-! ### The sequential machine (R134) -/

namespace ArchState

variable {a b : ArchState}

/-- The sequential machine has halted, or has recorded a fatal condition. -/
def stopped (a : ArchState) : Bool := a.halted || a.fault.isSome

theorem stopped_eq_false : a.stopped = false ↔ a.halted = false ∧ a.fault = none := by
  simp [stopped]

theorem step_of_stopped (h : a.stopped = true) : a.step = a := by
  unfold stopped at h
  simp [step, h]

theorem step_of_running {i : Instr} (running : a.stopped = false) (h : a.fetched a.spc = .ok i) :
    a.step = a.effect i :=
  step_of_ok (stopped_eq_false.1 running).1 (stopped_eq_false.1 running).2 h

/-- Two states of one run in which the machine has stopped are the same. -/
theorem iterate_eq_of_stopped {m n : ℕ} (hm : (step^[m] a).stopped = true) (hn : (step^[n] a).stopped = true) :
    step^[m] a = step^[n] a := by
  have later : ∀ {k l : ℕ}, k ≤ l → (step^[k] a).stopped = true → step^[l] a = step^[k] a := by
    intro k l hl hk
    obtain ⟨j, rfl⟩ := Nat.exists_eq_add_of_le' hl
    rw [Function.iterate_add_apply]
    exact Function.iterate_fixed (step_of_stopped hk) j
  rcases Nat.le_total m n with h | h
  · exact (later h hm).symm
  · exact later h hn

/-! What the parts of an effect leave in each field. -/

@[simp] theorem put_cc (a : ArchState) (r : Int) (v : Word) : (a.put r v).cc = a.cc := by
  unfold put; split <;> rfl
@[simp] theorem put_dmem (a : ArchState) (r : Int) (v : Word) : (a.put r v).dmem = a.dmem := by
  unfold put; split <;> rfl
@[simp] theorem put_spc (a : ArchState) (r : Int) (v : Word) : (a.put r v).spc = a.spc := by
  unfold put; split <;> rfl
@[simp] theorem put_retired (a : ArchState) (r : Int) (v : Word) : (a.put r v).retired = a.retired := by
  unfold put; split <;> rfl
@[simp] theorem put_halted (a : ArchState) (r : Int) (v : Word) : (a.put r v).halted = a.halted := by
  unfold put; split <;> rfl
@[simp] theorem put_fault (a : ArchState) (r : Int) (v : Word) : (a.put r v).fault = a.fault := by
  unfold put; split <;> rfl
@[simp] theorem put_code (a : ArchState) (r : Int) (v : Word) : (a.put r v).code = a.code := by
  unfold put; split <;> rfl
@[simp] theorem put_params (a : ArchState) (r : Int) (v : Word) : (a.put r v).params = a.params := by
  unfold put; split <;> rfl

@[simp] theorem flagsWhen_x (a : ArchState) (on : Bool) (r : Word) : (a.flagsWhen on r).x = a.x := by
  unfold flagsWhen; split <;> rfl
theorem flagsWhen_cc (a : ArchState) (on : Bool) (r : Word) :
    (a.flagsWhen on r).cc = if on then flagsOf r else a.cc := by
  unfold flagsWhen; split <;> rfl
@[simp] theorem flagsWhen_dmem (a : ArchState) (on : Bool) (r : Word) : (a.flagsWhen on r).dmem = a.dmem := by
  unfold flagsWhen; split <;> rfl
@[simp] theorem flagsWhen_spc (a : ArchState) (on : Bool) (r : Word) : (a.flagsWhen on r).spc = a.spc := by
  unfold flagsWhen; split <;> rfl
@[simp] theorem flagsWhen_retired (a : ArchState) (on : Bool) (r : Word) : (a.flagsWhen on r).retired = a.retired := by
  unfold flagsWhen; split <;> rfl
@[simp] theorem flagsWhen_halted (a : ArchState) (on : Bool) (r : Word) : (a.flagsWhen on r).halted = a.halted := by
  unfold flagsWhen; split <;> rfl
@[simp] theorem flagsWhen_fault (a : ArchState) (on : Bool) (r : Word) : (a.flagsWhen on r).fault = a.fault := by
  unfold flagsWhen; split <;> rfl
@[simp] theorem flagsWhen_code (a : ArchState) (on : Bool) (r : Word) : (a.flagsWhen on r).code = a.code := by
  unfold flagsWhen; split <;> rfl
@[simp] theorem flagsWhen_params (a : ArchState) (on : Bool) (r : Word) : (a.flagsWhen on r).params = a.params := by
  unfold flagsWhen; split <;> rfl

theorem put_x_other (a : ArchState) {r : Int} {k : Fin 16} (v : Word) (h : a.params.regIndex? r ≠ some k) :
    (a.put r v).x.get k = a.x.get k := by
  unfold put
  split
  next j hj =>
    have differ : j.val ≠ k.val := fun e => h (hj.trans (congrArg some (Fin.ext e)))
    simp only [Vector.get_eq_getElem]
    exact Vector.getElem_set_ne _ _ differ
  next => rfl

theorem get_put_same (a : ArchState) {r : Int} (v : Word) (h : (a.params.regIndex? r).isSome = true) :
    (a.put r v).get r = v := by
  obtain ⟨k, hk⟩ := Option.isSome_iff_exists.1 h
  simp [get, put, hk, Vector.get_eq_getElem]

theorem get_put_other (a : ArchState) {r q : Int} (v : Word) (h : q ≠ r) : (a.put r v).get q = a.get q := by
  unfold get
  rw [put_params]
  split
  next k hk => exact put_x_other a v fun hr => h (regIndex?_inj hk hr)
  next => rfl

/-! ### What one instruction does -/

/-- R184: the data address of a load or a store. -/
def address? (a : ArchState) : Instr → Option Word
  | .load _ rs1 imm => some (effectiveAddress a.params (a.get rs1) imm)
  | .loadp _ rs1 imm => some (effectiveAddress a.params (a.get rs1) imm)
  | .store _ rs2 imm => some (effectiveAddress a.params (a.get rs2) imm)
  | .storep _ rs2 imm => some (effectiveAddress a.params (a.get rs2) imm)
  | _ => none

/-- What every instruction leaves when it raises nothing. -/
structure Completes (a b : ArchState) (i : Instr) : Prop where
  x : ∀ k, (∀ r ∈ i.operands.dests, a.params.regIndex? r ≠ some k) → b.x.get k = a.x.get k
  retired : b.retired = a.retired + 1
  halted : b.halted = (a.halted || decide (i = .halt))
  fault : b.fault = a.fault
  code : b.code = a.code
  params : b.params = a.params

theorem load_cases (a : ArchState) (ea : Word) (k : Word → ArchState) :
    (∃ n, a.dataIndex? ea = some n ∧ a.load ea k = (k (a.dmem.read n)).advance) ∨
    (a.dataIndex? ea = none ∧ a.load ea k = a.raise (.memoryAddressOutOfRange a.spc ea)) := by
  unfold load
  cases h : a.dataIndex? ea with
  | some n => exact .inl ⟨n, rfl, rfl⟩
  | none => exact .inr ⟨rfl, rfl⟩

theorem store_cases (a : ArchState) (ea v : Word) (k : ArchState → ArchState) :
    (∃ n, a.dataIndex? ea = some n ∧ a.store ea v k = (k { a with dmem := a.dmem.write n v }).advance) ∨
    (a.dataIndex? ea = none ∧ a.store ea v k = a.raise (.memoryAddressOutOfRange a.spc ea)) := by
  unfold store
  cases h : a.dataIndex? ea with
  | some n => exact .inl ⟨n, rfl, rfl⟩
  | none => exact .inr ⟨rfl, rfl⟩

/-- R134: an instruction but `DIV` completes, or its data address raises. -/
theorem effect_cases (a : ArchState) {i : Instr} (hi : i.opcode ≠ .div) :
    a.Completes (a.effect i) i ∨
    ∃ ea, a.address? i = some ea ∧ a.dataIndex? ea = none ∧
      a.effect i = a.raise (.memoryAddressOutOfRange a.spc ea) := by
  have put_x : ∀ {r : Int} {k : Fin 16} (v : Word), a.params.regIndex? r ≠ some k → (a.put r v).x.get k = a.x.get k :=
    fun v h => a.put_x_other v h
  cases i
  case div => exact absurd rfl hi
  case load rd rs1 imm =>
    rcases a.load_cases (effectiveAddress a.params (a.get rs1) imm) (fun v => a.put rd v) with ⟨n, -, e⟩ | ⟨h, e⟩
    · refine .inl ?_
      rw [effect, e]
      constructor <;> simp +contextual [advance, goTo, Instr.operands, put_x]
    · exact .inr ⟨_, rfl, h, e⟩
  case loadp rd rs1 imm =>
    rcases a.load_cases (effectiveAddress a.params (a.get rs1) imm)
      (fun v => (a.put rs1 (a.pointer (a.get rs1))).put rd v) with ⟨n, -, e⟩ | ⟨h, e⟩
    · refine .inl ?_
      rw [effect, e]
      constructor <;> simp +contextual [advance, goTo, Instr.operands, put_x, put_x_other]
    · exact .inr ⟨_, rfl, h, e⟩
  case store rs1 rs2 imm =>
    rcases a.store_cases (effectiveAddress a.params (a.get rs2) imm) (a.get rs1) id with ⟨n, -, e⟩ | ⟨h, e⟩
    · refine .inl ?_
      rw [effect, e]
      constructor <;> simp [advance, goTo]
    · exact .inr ⟨_, rfl, h, e⟩
  case storep rs1 rs2 imm =>
    rcases a.store_cases (effectiveAddress a.params (a.get rs2) imm) (a.get rs1)
      (fun b => b.put rs2 (a.pointer (a.get rs2))) with ⟨n, -, e⟩ | ⟨h, e⟩
    · refine .inl ?_
      rw [effect, e]
      constructor <;> simp +contextual [advance, goTo, Instr.operands, put_x_other]
    · exact .inr ⟨_, rfl, h, e⟩
  all_goals
    refine .inl ?_
    constructor <;> simp +contextual [effect, result, compare, branch, advance, goTo, Instr.operands, put_x]

/-- The program and the parameters are as they were, whatever the instruction does. -/
theorem effect_launch (a : ArchState) (i : Instr) : (a.effect i).code = a.code ∧ (a.effect i).params = a.params := by
  by_cases hi : i.opcode = .div
  · cases i <;> simp [Instr.opcode, Instr.record] at hi
    exact ⟨rfl, rfl⟩
  · rcases a.effect_cases hi with c | ⟨ea, -, -, e⟩
    · exact ⟨c.code, c.params⟩
    · rw [e]; exact ⟨rfl, rfl⟩

theorem step_launch (a : ArchState) : a.step.code = a.code ∧ a.step.params = a.params := by
  unfold step
  split
  · exact ⟨rfl, rfl⟩
  · split
    · exact a.effect_launch _
    · exact ⟨rfl, rfl⟩

theorem iterate_launch (a : ArchState) (n : ℕ) : (step^[n] a).code = a.code ∧ (step^[n] a).params = a.params := by
  induction n with
  | zero => exact ⟨rfl, rfl⟩
  | succ n ih =>
    rw [Function.iterate_succ_apply']
    exact ⟨(step_launch _).1.trans ih.1, (step_launch _).2.trans ih.2⟩

/-- R118: registers that are no destination are as they were. -/
theorem effect_x_other (a : ArchState) (i : Instr) {k : Fin 16}
    (h : ∀ r ∈ i.operands.dests, a.params.regIndex? r ≠ some k) : (a.effect i).x.get k = a.x.get k := by
  by_cases hi : i.opcode = .div
  · cases i <;> simp [Instr.opcode, Instr.record] at hi
    rfl
  · rcases a.effect_cases hi with c | ⟨ea, -, -, e⟩
    · exact c.x k h
    · rw [e]; rfl

theorem effect_get_other (a : ArchState) (i : Instr) {r : Int} (h : r ∉ i.operands.dests) :
    (a.effect i).get r = a.get r := by
  unfold get
  rw [(a.effect_launch i).2]
  split
  next k hk => exact a.effect_x_other i fun q hq e => h (regIndex?_inj hk e ▸ hq)
  next => rfl

/-- What `fetched` lets through is no `DIV`, and its operand fields name registers. -/
theorem passesDecode_of_fetched {t : Word} {i : Instr} (h : a.fetched t = .ok i) : i.passesDecode a.params := by
  unfold fetched at h
  repeat' split at h
  all_goals cases h
  exact ⟨by simp_all, ‹_›⟩

theorem opcode_ne_div_of_passesDecode {p : Params} {i : Instr} (h : i.passesDecode p) : i.opcode ≠ .div := by
  intro hd
  cases i <;> simp [Instr.opcode, Instr.record] at hd
  exact absurd h.1 (by simp [Instr.refusedByDecode])

/-- R215: what `fetched` can answer instead of an instruction. -/
theorem fetched_error_cases {t : Word} {k : Fault} (h : a.fetched t = .error k) :
    k = .codeAddressInvalid t ∨ (∃ o, k = .invalidOpcode t o) ∨ ∃ f, k = .registerIndexOutOfRange t f := by
  unfold fetched at h
  repeat' split at h
  all_goals cases h
  · exact .inl rfl
  · exact .inr (.inl ⟨_, rfl⟩)
  · exact .inr (.inl ⟨_, rfl⟩)
  · exact .inr (.inr ⟨_, rfl⟩)

/-! ### The next address -/

/-- The address after the one at which the machine stands, where it has stopped: so of a `HALT`, and of a load or store
whose address raises; the one at which it stands otherwise. It is what the core fetches next in program order. -/
def nextAddress (a : ArchState) : Word := if a.stopped then a.after else a.spc

theorem nextAddress_of_running (h : a.stopped = false) : a.nextAddress = a.spc := by simp [nextAddress, h]

theorem nextAddress_of_stopped (h : a.stopped = true) : a.nextAddress = a.after := by simp [nextAddress, h]

end ArchState

/-! ### What a latch holds of the sequential machine -/

/-- The sequential machine past the instruction in a latch, if there is one. -/
def ArchState.past (a : ArchState) (l : Latch) : ArchState := if l.valid then a.step else a

/-- The latch holds the instruction at which the running sequential machine stands, with the operand values it has there. -/
structure ArchState.Feeds (a : ArchState) (l : Latch) (i : Instr) : Prop where
  running : a.stopped = false
  instr : l.instr? = some i
  pc : l.pc = a.spc
  fetched : a.fetched a.spc = .ok i
  src1 : ∀ r, i.operands.src1 = some r → l.rs1Value = a.get r
  src2 : ∀ r, i.operands.src2 = some r → l.rs2Value = a.get r

namespace ArchState

variable {a : ArchState} {l m : Latch} {i : Instr}

theorem past_of_bubble (h : l.valid = false) : a.past l = a := by simp [past, h]

theorem past_of_valid (h : l.valid = true) : a.past l = a.step := by simp [past, h]

theorem past_launch (a : ArchState) (l : Latch) : (a.past l).code = a.code ∧ (a.past l).params = a.params := by
  unfold past
  split
  · exact a.step_launch
  · exact ⟨rfl, rfl⟩

/-- The machine past a latch is the machine after some more steps. -/
theorem exists_iterate_past (a : ArchState) (l : Latch) : ∃ n, a.past l = step^[n] a := by
  unfold past
  split
  · exact ⟨1, rfl⟩
  · exact ⟨0, rfl⟩

theorem Feeds.passes (f : a.Feeds l i) : i.passesDecode a.params := passesDecode_of_fetched f.fetched

theorem Feeds.notDiv (f : a.Feeds l i) : i.opcode ≠ .div := opcode_ne_div_of_passesDecode f.passes

theorem Feeds.step (f : a.Feeds l i) : a.step = a.effect i := step_of_running f.running f.fetched

theorem Feeds.past (f : a.Feeds l i) (h : l.valid = true) : a.past l = a.effect i := (past_of_valid h).trans f.step

/-- R118: the places of the destinations. -/
theorem Feeds.dest (f : a.Feeds l i) {r : Int} (h : r ∈ i.operands.dests) : (a.params.regIndex? r).isSome = true :=
  isSome_of_mem_dests f.passes.2 h

/-- R24: an instruction passed on keeps its operand fields. -/
theorem Feeds.congr (f : a.Feeds l i) (instr : m.instr? = l.instr? := by rfl) (pc : m.pc = l.pc := by rfl)
    (rs1Value : m.rs1Value = l.rs1Value := by rfl) (rs2Value : m.rs2Value = l.rs2Value := by rfl) : a.Feeds m i :=
  ⟨f.running, instr.trans f.instr, pc.trans f.pc, f.fetched, fun r h => rs1Value.trans (f.src1 r h),
    fun r h => rs2Value.trans (f.src2 r h)⟩

end ArchState

/-! ### Execute, Memory and Writeback against the effect of the instruction -/

/-- After Execute of `i`, of which `ML` holds what it computed, the flags are the sequential ones, the driven pairs have the
sequential register values, and `ML` has the data address or the result. -/
structure ExecuteAgrees (a : ArchState) (i : Instr) (s u : State) : Prop where
  cc : u.cc = (a.effect i).cc
  exbus : ∃ ps, u.exbus = s.exbus ++ ps ∧ ((a.effect i).fault = none → ∀ p ∈ ps, p.value = (a.effect i).get p.reg)
  address : ∀ ea, a.address? i = some ea → u.ml.memAddr = ea
  result : a.address? i = none → ∀ r ∈ i.operands.dests, u.ml.result = (a.effect i).get r

namespace ArchState

@[simp] theorem get_advance (a : ArchState) (r : Int) : a.advance.get r = a.get r := rfl
@[simp] theorem get_goTo (a : ArchState) (t : Word) (r : Int) : (a.goTo t).get r = a.get r := rfl
@[simp] theorem get_flagsWhen (a : ArchState) (on : Bool) (v : Word) (r : Int) : (a.flagsWhen on v).get r = a.get r :=
  get_congr (by simp) (by simp) r
@[simp] theorem raise_fault (a : ArchState) (k : Fault) : (a.raise k).fault = some k := rfl

theorem get_result (a : ArchState) {rd : Int} (r : Word) (on : Bool) (h : (a.params.regIndex? rd).isSome = true) :
    (a.result rd r on).get rd = r := by
  simp [result, a.get_put_same r h]

theorem load_cc (a : ArchState) (ea : Word) {k : Word → ArchState} (h : ∀ v, (k v).cc = a.cc) : (a.load ea k).cc = a.cc := by
  rcases a.load_cases ea k with ⟨n, -, e⟩ | ⟨-, e⟩ <;> rw [e]
  · exact h _
  · rfl

theorem store_cc (a : ArchState) (ea v : Word) {k : ArchState → ArchState} (h : ∀ b, (k b).cc = b.cc) :
    (a.store ea v k).cc = a.cc := by
  rcases a.store_cases ea v k with ⟨n, -, e⟩ | ⟨-, e⟩ <;> rw [e]
  · exact h _
  · rfl

/-- R134: a load that raises nothing has read its word. -/
theorem load_of_noFault {a : ArchState} {ea : Word} {k : Word → ArchState} (h : (a.load ea k).fault = none) :
    ∃ n, a.dataIndex? ea = some n ∧ a.load ea k = (k (a.dmem.read n)).advance := by
  rcases a.load_cases ea k with ok | ⟨-, e⟩
  · exact ok
  · simp [e] at h

/-- R134: a store that raises nothing has written its word. -/
theorem store_of_noFault {a : ArchState} {ea v : Word} {k : ArchState → ArchState} (h : (a.store ea v k).fault = none) :
    ∃ n, a.dataIndex? ea = some n ∧ a.store ea v k = (k { a with dmem := a.dmem.write n v }).advance := by
  rcases a.store_cases ea v k with ok | ⟨-, e⟩
  · exact ok
  · simp [e] at h

/-- R181: the base register of an auto-increment load, which is not its `rd`. -/
theorem get_effect_loadp_base {a : ArchState} {rd rs1 : Int} {imm : Word} (differ : rd ≠ rs1)
    (dest : (a.params.regIndex? rs1).isSome = true) (h : (a.effect (.loadp rd rs1 imm)).fault = none) :
    (a.effect (.loadp rd rs1 imm)).get rs1 = a.pointer (a.get rs1) := by
  obtain ⟨n, -, e⟩ := load_of_noFault h
  rw [effect, e, get_advance, get_put_other _ _ (Ne.symm differ), get_put_same _ _ dest]

/-- R183: the base register of an auto-increment store. -/
theorem get_effect_storep_base {a : ArchState} {rs1 rs2 : Int} {imm : Word}
    (dest : (a.params.regIndex? rs2).isSome = true) (h : (a.effect (.storep rs1 rs2 imm)).fault = none) :
    (a.effect (.storep rs1 rs2 imm)).get rs2 = a.pointer (a.get rs2) := by
  obtain ⟨n, -, e⟩ := store_of_noFault h
  rw [effect, e]
  exact get_put_same _ _ dest

end ArchState

/-- R24: the increment is the sequential one. -/
theorem State.pointer_eq {a : ArchState} {s : State} (params : s.params = a.params) (base : Word) :
    s.pointer base = a.pointer base := by
  rw [State.pointer, ArchState.pointer, params]

section
variable {a : ArchState} {i : Instr} {s u : State}

/-- R125: an instruction with a result. -/
theorem executeResult_agrees {rd : Int} {r : Word} {on : Bool} (cc : s.cc = a.cc)
    (dest : (a.params.regIndex? rd).isSome = true) (effect : a.effect i = a.result rd r on)
    (dests : i.operands.dests = [rd]) (noAddress : a.address? i = none) (e : executeResult rd r on s = .next u) :
    ExecuteAgrees a i s u := by
  cases e
  have value := a.get_result r on dest
  constructor
  · simp [effect, ArchState.result, ArchState.advance, ArchState.goTo, ArchState.flagsWhen_cc, State.flagsWhen_cc, cc]
  · exact ⟨[⟨rd, r⟩], by simp, by simp [effect, value]⟩
  · simp [noAddress]
  · simp [dests, effect, value]

/-- R169, R170: a compare. -/
theorem executeCompare_agrees {v w : Word} (params : s.params = a.params) (effect : a.effect i = a.compare v w)
    (dests : i.operands.dests = []) (noAddress : a.address? i = none) (e : executeCompare v w s = .next u) :
    ExecuteAgrees a i s u := by
  cases e
  constructor
  · simp [effect, ArchState.compare, ArchState.advance, ArchState.goTo, params]
  · exact ⟨[], by simp, by simp⟩
  · simp [noAddress]
  · simp [dests]

/-- R196: a conditional branch, which writes no flag and no register. -/
theorem executeBranch_agrees {taken : Bool} {imm : Word} (cc : s.cc = a.cc)
    (effect : a.effect i = a.branch taken imm) (dests : i.operands.dests = []) (noAddress : a.address? i = none)
    (e : executeBranch taken imm s = .next u) : ExecuteAgrees a i s u := by
  have kept : u.cc = s.cc ∧ u.exbus = s.exbus := by
    unfold executeBranch at e
    split at e <;> cases e <;> exact ⟨rfl, rfl⟩
  constructor
  · rw [effect]; exact kept.1.trans cc
  · exact ⟨[], by simp [kept.2], by simp⟩
  · simp [noAddress]
  · simp [dests]

/-- R125, R184: a load or a store: the data address, and for an auto-increment form the pointer. -/
theorem executeAddress_agrees {base imm ea : Word} {ps : List BusPair} (cc : (a.effect i).cc = s.cc)
    (address : a.address? i = some ea) (same : effectiveAddress s.params base imm = ea)
    (pointer : (a.effect i).fault = none → ∀ p ∈ ps, p.value = (a.effect i).get p.reg)
    (e : executeAddress base imm ps s = .next u) : ExecuteAgrees a i s u := by
  cases e
  constructor
  · exact cc.symm
  · exact ⟨ps, rfl, pointer⟩
  · intro ea' h
    exact same.trans (Option.some_inj.1 (address.symm.trans h))
  · simp [address]

/-- R123 to R125: Execute of the instruction that `XL` holds of the sequential machine. -/
theorem exec_execute_agrees (f : a.Feeds s.xl i) (cc : s.cc = a.cc) (params : s.params = a.params)
    (stage : s.stage = .execute) (e : exec i s = .next u) : ExecuteAgrees a i s u := by
  have rs1 := f.src1
  have rs2 := f.src2
  have dest := @f.dest
  have pc := f.pc
  cases i <;>
    simp only [exec, stage, execAdd, execSub, execMul, execDiv, execAnd, execOr, execXor, execMovc, execLoad, execStore,
      execBz, execBnz, execHalt, execAddl, execSubl, execLoadp, execStorep, execCmp, execCml, execBp, execBnp, execJump,
      execJalr] at e <;>
    simp only [Instr.operands, Option.some_inj, forall_eq', List.mem_cons, List.not_mem_nil, or_false, forall_eq]
      at rs1 rs2 dest
  case add | sub | mul | and | or | xor | movc | addl | subl =>
    refine executeResult_agrees cc dest ?_ rfl rfl e
    simp [ArchState.effect, rs1, rs2, params]
  case cmp | cml =>
    refine executeCompare_agrees params ?_ rfl rfl e
    simp [ArchState.effect, rs1, rs2]
  case bz | bnz | bp | bnp =>
    refine executeBranch_agrees cc ?_ rfl rfl e
    simp [ArchState.effect, cc]
  case load =>
    refine executeAddress_agrees ?_ rfl ?_ ?_ e
    · exact (a.load_cc _ fun _ => by simp).trans cc.symm
    · rw [params, rs1]
    · simp
  case store =>
    refine executeAddress_agrees ?_ rfl ?_ ?_ e
    · exact (a.store_cc _ _ fun _ => by simp).trans cc.symm
    · rw [params, rs2]
    · simp
  case loadp =>
    have differ := by simpa [Instr.refusedByDecode] using f.passes.1
    refine executeAddress_agrees ?_ rfl ?_ ?_ e
    · exact (a.load_cc _ fun _ => by simp).trans cc.symm
    · rw [params, rs1]
    · intro noFault
      simp [ArchState.get_effect_loadp_base differ (dest (.inr rfl)) noFault, State.pointer_eq params, rs1]
  case storep =>
    refine executeAddress_agrees ?_ rfl ?_ ?_ e
    · exact (a.store_cc _ _ fun _ => by simp).trans cc.symm
    · rw [params, rs2]
    · intro noFault
      simp [ArchState.get_effect_storep_base dest noFault, State.pointer_eq params, rs2]
  case jalr =>
    cases e
    have link : s.fallThrough = a.after := by rw [State.fallThrough, ArchState.after, params, pc]
    have value := a.get_put_same s.fallThrough dest
    constructor
    · simp [ArchState.effect, ArchState.goTo, cc]
    · exact ⟨_, rfl, by simp [ArchState.effect, ← link, value]⟩
    · exact nofun
    · simp [ArchState.effect, Instr.operands, ← link, value]
  case jump | halt =>
    cases e
    constructor
    · exact cc
    · exact ⟨[], by simp, by simp⟩
    · exact nofun
    · simp [Instr.operands]
  case div => cases e

end

/-- After Memory of `i` nothing has been raised: data memory is the sequential one, and so are the values of the driven pairs
and of the register writes that `WL` now holds. -/
structure MemoryAgrees (a : ArchState) (i : Instr) (s u : State) : Prop where
  noFault : (a.effect i).fault = none
  dmem : u.dmem = (a.effect i).dmem
  membus : ∃ ps, u.membus = s.membus ++ ps ∧ ∀ p ∈ ps, p.value = (a.effect i).get p.reg
  writes : ∀ p ∈ i.writes u, p.value = (a.effect i).get p.reg

/-- `ML` holds what Execute computed for the instruction: the data address of a load or store, the result of any other. -/
structure ArchState.Computed (a : ArchState) (l : Latch) (i : Instr) : Prop extends a.Feeds l i where
  address : ∀ ea, a.address? i = some ea → l.memAddr = ea
  result : a.address? i = none → ∀ r ∈ i.operands.dests, l.result = (a.effect i).get r

/-- R63: both machines have the same data addresses. -/
theorem dataIndex?_eq {a : ArchState} {s : State} (params : s.params = a.params) (ea : Word) :
    s.dataIndex? ea = a.dataIndex? ea := by
  rw [State.dataIndex?, ArchState.dataIndex?, params]

/-- An instruction without a data address raises nothing. -/
theorem ArchState.Feeds.completes {a : ArchState} {l : Latch} {i : Instr} (f : a.Feeds l i)
    (noAddress : a.address? i = none) : a.Completes (a.effect i) i := by
  rcases a.effect_cases f.notDiv with c | ⟨ea, address, -⟩
  · exact c
  · simp [noAddress] at address

section
variable {a : ArchState} {i : Instr} {s u : State} {k : Fault}

/-- R128: an instruction with no data access. -/
theorem memoryPass_agrees {ps : List BusPair} (c : a.Computed s.ml i) (noAddress : a.address? i = none)
    (same : (a.effect i).dmem = a.dmem) (dmem : s.dmem = a.dmem)
    (pairs : ps = i.operands.dests.map fun r => ⟨r, s.ml.result⟩)
    (writes : i.writes u = i.operands.dests.map fun r => ⟨r, u.wl.result⟩) (e : memoryPass ps s = .next u) :
    MemoryAgrees a i s u := by
  have value : ∀ p ∈ i.operands.dests.map fun r => (⟨r, s.ml.result⟩ : BusPair), p.value = (a.effect i).get p.reg := by
    intro p hp
    obtain ⟨r, hr, rfl⟩ := List.mem_map.1 hp
    exact c.result noAddress r hr
  cases e
  refine ⟨?_, dmem.trans same.symm, ⟨ps, rfl, pairs ▸ value⟩, writes ▸ value⟩
  exact (c.completes noAddress).fault.trans (ArchState.stopped_eq_false.1 c.running).2

/-- R128: a load. -/
theorem memoryLoad_agrees {ea : Word} {next : Word → ArchState} {ps : Word → List BusPair} (c : a.Computed s.ml i)
    (address : a.address? i = some ea) (effect : a.effect i = a.load ea next) (dmem : s.dmem = a.dmem)
    (params : s.params = a.params) (kept : ∀ v, (next v).dmem = a.dmem ∧ (next v).fault = a.fault)
    (pairs : ∀ v, ∀ p ∈ ps v, p.value = (next v).get p.reg)
    (writes : ∀ v, u.wl = { s.ml with result := v } → u.params = s.params → ∀ p ∈ i.writes u, p.value = (next v).get p.reg)
    (e : memoryLoad ps s = .next u) : MemoryAgrees a i s u := by
  rcases memoryLoad_cases ps s with ⟨v, hv, e'⟩ | ⟨-, e'⟩ <;> rw [e'] at e <;> cases e
  obtain ⟨n, hn, rfl⟩ := Option.map_eq_some_iff.1 hv
  rw [c.address ea address, dataIndex?_eq params] at hn
  have done : a.effect i = (next (a.dmem.read n)).advance := by rw [effect, ArchState.load, hn]
  constructor
  · rw [done]
    exact (kept _).2.trans (ArchState.stopped_eq_false.1 c.running).2
  · rw [done]
    exact dmem.trans (kept _).1.symm
  · refine ⟨_, rfl, fun p hp => ?_⟩
    rw [done, ArchState.get_advance, ← dmem]
    exact pairs _ p hp
  · intro p hp
    rw [done, ArchState.get_advance, ← dmem]
    exact writes _ rfl rfl p hp

/-- R128: a store. -/
theorem memoryStore_agrees {ea v : Word} {next : ArchState → ArchState} {ps : List BusPair} (c : a.Computed s.ml i)
    (address : a.address? i = some ea) (effect : a.effect i = a.store ea v next) (dmem : s.dmem = a.dmem)
    (params : s.params = a.params) (stored : s.ml.rs1Value = v)
    (kept : ∀ b, (next b).dmem = b.dmem ∧ (next b).fault = b.fault)
    (pairs : (a.effect i).fault = none → ∀ p ∈ ps, p.value = (a.effect i).get p.reg)
    (writes : (a.effect i).fault = none → u.wl = s.ml → u.params = s.params →
      ∀ p ∈ i.writes u, p.value = (a.effect i).get p.reg)
    (e : memoryStore ps s = .next u) : MemoryAgrees a i s u := by
  rcases memoryStore_cases ps s with ⟨n, hn, e'⟩ | ⟨-, e'⟩ <;> rw [e'] at e <;> cases e
  rw [c.address ea address, dataIndex?_eq params] at hn
  have done : a.effect i = (next { a with dmem := a.dmem.write n v }).advance := by rw [effect, ArchState.store, hn]
  have noFault : (a.effect i).fault = none := by
    rw [done]
    exact (kept _).2.trans (ArchState.stopped_eq_false.1 c.running).2
  refine ⟨noFault, ?_, ⟨_, rfl, pairs noFault⟩, writes noFault rfl rfl⟩
  rw [done]
  change s.dmem.write n s.ml.rs1Value = (next _).dmem
  rw [(kept _).1, dmem, stored]

/-- R128, R129: Memory of the instruction that `ML` holds of the sequential machine. -/
theorem exec_memory_agrees (c : a.Computed s.ml i) (dmem : s.dmem = a.dmem) (params : s.params = a.params)
    (stage : s.stage = .memory) (e : exec i s = .next u) : MemoryAgrees a i s u := by
  have rs1 := c.src1
  have rs2 := c.src2
  have dest := @c.dest
  cases i <;>
    simp only [exec, stage, execAdd, execSub, execMul, execDiv, execAnd, execOr, execXor, execMovc, execLoad, execStore,
      execBz, execBnz, execHalt, execAddl, execSubl, execLoadp, execStorep, execCmp, execCml, execBp, execBnp, execJump,
      execJalr] at e <;>
    simp only [Instr.operands, Option.some_inj, forall_eq', List.mem_cons, List.not_mem_nil, or_false, forall_eq]
      at rs1 rs2 dest
  case load =>
    refine memoryLoad_agrees c rfl rfl dmem params (fun v => by simp) ?_ ?_ e
    · simp [a.get_put_same _ dest]
    · rintro v wl -
      simp [Instr.writes, Instr.operands, wl, a.get_put_same _ dest]
  case loadp rd rs1' _ =>
    have differ : rs1' ≠ rd := by simpa [Instr.refusedByDecode, eq_comm] using c.passes.1
    have rdValue : ∀ v, ((a.put rs1' (a.pointer (a.get rs1'))).put rd v).get rd = v := fun v =>
      ArchState.get_put_same _ v (by simpa using dest (.inl rfl))
    have baseValue : ∀ v, ((a.put rs1' (a.pointer (a.get rs1'))).put rd v).get rs1' = a.pointer (a.get rs1') := fun v => by
      rw [ArchState.get_put_other _ v differ, ArchState.get_put_same _ _ (dest (.inr rfl))]
    refine memoryLoad_agrees c rfl rfl dmem params (fun v => by simp) ?_ ?_ e
    · simp [rdValue, baseValue, State.pointer_eq params, rs1]
    · intro v wl params'
      simp [Instr.writes, wl, rdValue, baseValue, State.pointer_eq (params'.trans params), rs1]
  case store =>
    refine memoryStore_agrees c rfl rfl dmem params rs1 (fun b => by simp) ?_ ?_ e
    · simp
    · intro _ _ _
      simp [Instr.writes, Instr.operands]
  case storep _ base _ =>
    refine memoryStore_agrees (next := fun b => b.put base (a.pointer (a.get base))) c rfl rfl dmem params rs1
      (fun b => by simp) ?_ ?_ e
    · intro noFault
      simp [ArchState.get_effect_storep_base dest noFault, State.pointer_eq params, rs2]
    · intro noFault wl params'
      simp [Instr.writes, wl, ArchState.get_effect_storep_base dest noFault, State.pointer_eq (params'.trans params), rs2]
  case div => cases e
  all_goals
    refine memoryPass_agrees c rfl ?_ dmem rfl rfl e
    simp [ArchState.effect, ArchState.result, ArchState.compare, ArchState.branch, ArchState.advance, ArchState.goTo]

/-- R128, R216: Memory raises only the condition of the sequential machine. -/
theorem exec_memory_raises (c : a.Computed s.ml i) (params : s.params = a.params) (stage : s.stage = .memory)
    (e : exec i s = .fault k) : (a.effect i).fault = some k := by
  have load : ∀ {ps ea next}, a.address? i = some ea → a.effect i = a.load ea next → memoryLoad ps s = .fault k →
      (a.effect i).fault = some k := by
    intro ps ea next address effect e
    rcases memoryLoad_cases ps s with ⟨v, -, e'⟩ | ⟨out, e'⟩ <;> rw [e'] at e <;> cases e
    rw [State.memRead?, Option.map_eq_none_iff, dataIndex?_eq params, c.address ea address] at out
    rw [effect, ArchState.load, out, c.pc, c.address ea address]
    rfl
  have store : ∀ {ps ea v next}, a.address? i = some ea → a.effect i = a.store ea v next → memoryStore ps s = .fault k →
      (a.effect i).fault = some k := by
    intro ps ea v next address effect e
    rcases memoryStore_cases ps s with ⟨n, -, e'⟩ | ⟨out, e'⟩ <;> rw [e'] at e <;> cases e
    rw [dataIndex?_eq params, c.address ea address] at out
    rw [effect, ArchState.store, out, c.pc, c.address ea address]
    rfl
  cases i <;>
    simp only [exec, stage, execAdd, execSub, execMul, execDiv, execAnd, execOr, execXor, execMovc, execLoad, execStore,
      execBz, execBnz, execHalt, execAddl, execSubl, execLoadp, execStorep, execCmp, execCml, execBp, execBnp, execJump,
      execJalr] at e
  case load | loadp => exact load rfl rfl e
  case store => exact store rfl rfl e
  case storep _ base _ => exact store (next := fun b => b.put base (a.pointer (a.get base))) rfl rfl e
  case div => exact absurd rfl c.notDiv
  all_goals cases e

/-! ### Writeback -/

/-- R130: one place of the register file after the commits: if every pair for it has the value `v`, and there is one or it
had `v` before, it has `v`. -/
theorem commitAll_x_get {s : State} {ws : List BusPair} {j : Fin 16} {v : Word}
    (pairs : ∀ p ∈ ws, s.params.regIndex? p.reg = some j → p.value = v)
    (reached : (∃ p ∈ ws, s.params.regIndex? p.reg = some j) ∨ s.x.get j = v) : (s.commitAll ws).x.get j = v := by
  induction ws generalizing s with
  | nil => simpa [State.commitAll] using reached
  | cons p ps ih =>
    have place : (s.commit p.reg p.value).x.get j = if s.params.regIndex? p.reg = some j then p.value else s.x.get j := by
      simp only [State.commit, State.setBusy_x, State.writeReg]
      split
      next k hk =>
        by_cases same : k = j
        · simp [hk, same, Vector.get_eq_getElem]
        · have differ : k.val ≠ j.val := fun e => same (Fin.ext e)
          simp only [hk, Option.some_inj, same, if_false, Vector.get_eq_getElem]
          exact Vector.getElem_set_ne _ _ differ
      next hk => simp [hk]
    refine ih (fun q hq h => pairs q (by simp [hq]) (by simpa using h)) ?_
    by_cases here : s.params.regIndex? p.reg = some j
    · exact .inr (by rw [place, if_pos here]; exact pairs p (by simp) here)
    · rcases reached with ⟨q, hq, h⟩ | before
      · rcases List.mem_cons.1 hq with rfl | hq
        · exact absurd h here
        · exact .inl ⟨q, hq, by simpa using h⟩
      · exact .inr (by rw [place, if_neg here]; exact before)

/-- R130: the register writes of an instruction, which have the sequential values, make the register file the sequential
one. -/
theorem commitAll_writes_x (params : s.params = a.params) (x : s.x = a.x)
    (writes : ∀ p ∈ i.writes s, p.value = (a.effect i).get p.reg) : (s.commitAll (i.writes s)).x = (a.effect i).x := by
  have places : ∀ j : Fin 16, (s.commitAll (i.writes s)).x.get j = (a.effect i).x.get j := by
    intro j
    refine commitAll_x_get (fun p hp place => ?_) ?_
    · rw [writes p hp, ArchState.get, (a.effect_launch i).2, ← params, place]
    · by_cases written : ∃ r ∈ i.operands.dests, a.params.regIndex? r = some j
      · obtain ⟨r, hr, place⟩ := written
        obtain ⟨p, hp, rfl⟩ := List.mem_map.1 ((Instr.mem_writes s i r).2 hr)
        exact .inl ⟨p, hp, params ▸ place⟩
      · exact .inr (by rw [x, a.effect_x_other i fun r hr place => written ⟨r, hr, place⟩])
  refine Vector.ext fun j hj => ?_
  simpa [Vector.get_eq_getElem] using places ⟨j, hj⟩

end

/-! ### The next address against the effect of the instruction (R127, R196) -/

namespace ArchState

variable {a b : ArchState}

theorem nextAddress_goTo (h : a.stopped = false) (t : Word) : (a.goTo t).nextAddress = t := by
  have running : (a.goTo t).stopped = false := h
  rw [nextAddress_of_running running]
  rfl

theorem nextAddress_advance (h : b.stopped = false) (spc : b.spc = a.spc) (params : b.params = a.params) :
    b.advance.nextAddress = a.after := by
  rw [advance, nextAddress_goTo h, after, after, spc, params]

theorem nextAddress_raise (a : ArchState) (k : Fault) : (a.raise k).nextAddress = a.after :=
  nextAddress_of_stopped (by simp [stopped])

theorem nextAddress_load {ea : Word} {k : Word → ArchState} (h : a.stopped = false)
    (kept : ∀ v, (k v).stopped = a.stopped ∧ (k v).spc = a.spc ∧ (k v).params = a.params) :
    (a.load ea k).nextAddress = a.after := by
  rcases a.load_cases ea k with ⟨n, -, e⟩ | ⟨-, e⟩ <;> rw [e]
  · obtain ⟨stopped, spc, params⟩ := kept (a.dmem.read n)
    exact nextAddress_advance (stopped.trans h) spc params
  · exact a.nextAddress_raise _

theorem nextAddress_store {ea v : Word} {k : ArchState → ArchState} (h : a.stopped = false)
    (kept : ∀ b, (k b).stopped = b.stopped ∧ (k b).spc = b.spc ∧ (k b).params = b.params) :
    (a.store ea v k).nextAddress = a.after := by
  rcases a.store_cases ea v k with ⟨n, -, e⟩ | ⟨-, e⟩ <;> rw [e]
  · obtain ⟨stopped, spc, params⟩ := kept { a with dmem := a.dmem.write n v }
    exact nextAddress_advance (stopped.trans h) spc params
  · exact a.nextAddress_raise _

end ArchState

section
variable {a : ArchState} {s : State} {i : Instr} (f : a.Feeds s.xl i) (cc : s.cc = a.cc) (params : s.params = a.params)
include f cc params

/-- R127: a flush goes to the sequential next address. -/
theorem nextAddress_of_flush {t : Word} (h : s.flushOf i = some t) : (a.effect i).nextAddress = t := by
  have rs1 := f.src1
  have branch : ∀ {taken : Bool} {imm : Word}, s.misprediction? taken imm = some t →
      (a.branch taken imm).nextAddress = t := by
    intro taken imm h
    obtain ⟨-, rfl⟩ := State.misprediction?_eq_some h
    rw [ArchState.branch, ArchState.nextAddress_goTo f.running, State.branchTarget, State.fallThrough, ArchState.after,
      params, f.pc]
  cases i <;> simp only [State.flushOf, reduceCtorEq] at h
  case bz | bnz | bp | bnp => exact branch (cc ▸ h)
  case jump =>
    refine (ArchState.nextAddress_goTo f.running _).trans ?_
    rw [effectiveAddress, ← rs1 _ rfl, ← params]
    exact Option.some_inj.1 h
  case jalr =>
    refine (ArchState.nextAddress_goTo (by simpa [ArchState.stopped] using f.running) _).trans ?_
    rw [effectiveAddress, ← rs1 _ rfl, ← params]
    exact Option.some_inj.1 h

/-- R196: where Execute does not flush, the sequential next address is the one Fetch took: the taken-target after a hit, the
address after the instruction otherwise. -/
theorem nextAddress_of_noFlush (hit : s.xl.btbHit = true → i.family?.isSome = true) (h : s.flushOf i = none) :
    (a.effect i).nextAddress = s.params.s32 (s.xl.pc.toInt + if s.xl.btbHit then s.xl.imm.toInt else 4) := by
  have running := ArchState.stopped_eq_false.1 f.running
  have imm := Latch.imm_of_branch f.instr
  have branch : ∀ {taken : Bool}, i.family?.isSome = true → s.misprediction? taken i.record.imm = none →
      (a.branch taken i.record.imm).nextAddress =
        s.params.s32 (s.xl.pc.toInt + if s.xl.btbHit then s.xl.imm.toInt else 4) := by
    intro taken family h
    rw [ArchState.branch, ArchState.nextAddress_goTo f.running, State.misprediction?_eq_none.1 h, imm family,
      ArchState.after, ← params, ← f.pc]
    split <;> rfl
  have straight : i.family? = none → a.after =
      s.params.s32 (s.xl.pc.toInt + if s.xl.btbHit then s.xl.imm.toInt else 4) := by
    intro family
    have noHit : s.xl.btbHit = false := Bool.eq_false_iff.2 fun h => by simp [family] at hit; simp [hit] at h
    rw [noHit, ArchState.after, ← params, ← f.pc]
    rfl
  cases i <;> simp only [State.flushOf, reduceCtorEq] at h
  case bz | bnz | bp | bnp => exact branch rfl (by simpa [Instr.record, cc] using h)
  all_goals refine Eq.trans ?_ (straight rfl)
  case load | loadp => exact ArchState.nextAddress_load f.running fun v => by simp [ArchState.stopped]
  case store | storep => exact ArchState.nextAddress_store f.running fun b => by simp [ArchState.stopped]
  case div => exact a.nextAddress_raise _
  case halt => exact ArchState.nextAddress_of_stopped rfl
  case cmp | cml => exact ArchState.nextAddress_advance f.running rfl rfl
  all_goals exact ArchState.nextAddress_advance (by simp [ArchState.stopped, running]) (by simp) (by simp)

end

/-! ### What Decode finds at the address in `DL` -/

/-- R117, R134: what `ArchState.fetched` answers at the address of a latch that holds the program's record. -/
theorem fetched_eq_ok {a : ArchState} {s : State} {l : Latch} {i : Instr} (code : s.code = a.code)
    (holds : s.holdsProgram l) (hi : l.instr? = some i) (passes : i.passesDecode a.params) : a.fetched l.pc = .ok i := by
  obtain ⟨r, read, instr, -⟩ := holds.record hi
  have read' : a.codeRead l.pc = some r := by rw [← read, State.codeRead, ArchState.codeRead, code]
  simp [ArchState.fetched, read', instr, passes.1, passes.2]

/-- R117, R216: what Decode raises is what `ArchState.fetched` answers. -/
theorem decodeStage_fault {a : ArchState} {s : State} {k : Fault} (code : s.code = a.code) (params : s.params = a.params)
    (holds : s.dl.valid = true → s.holdsProgram s.dl) (e : decodeStage s = .fault k) :
    s.dl.valid = true ∧ a.fetched s.dl.pc = .error k := by
  unfold decodeStage runStage at e
  split at e
  next hv =>
    refine ⟨hv, ?_⟩
    split at e
    next i hi =>
      obtain ⟨r, read, instr, -⟩ := (holds hv).record hi
      have read' : a.codeRead s.dl.pc = some r := by rw [← read, State.codeRead, ArchState.codeRead, code]
      rw [exec_decode i (s := s.at .decode) rfl] at e
      split at e
      next refused =>
        cases e
        simp [ArchState.fetched, read', instr, refused]
      next accepted =>
        split at e
        · cases e
        · rcases decodeOperands_cases i.operands (s.at .decode) with ⟨f, bad, e'⟩ | ⟨-, e', -⟩ | ⟨_, _, -, -, -, -, e'⟩ <;>
            rw [e'] at e <;> cases e
          have bad' : i.operands.badField? a.params = some f := params ▸ bad
          simp [ArchState.fetched, read', instr, accepted, bad']
    next noInstr =>
      cases e
      have holds := holds hv
      have same : a.codeRead s.dl.pc = s.codeRead s.dl.pc := by rw [State.codeRead, ArchState.codeRead, code]
      rw [State.holdsProgram] at holds
      cases read : s.codeRead s.dl.pc with
      | none =>
        rw [read] at holds same
        simp [ArchState.fetched, same, Latch.unsupported, holds]
      | some r =>
        rw [read] at holds same
        obtain ⟨opcode, rd, rs1, rs2, imm⟩ := holds
        rw [Latch.instr?, opcode, rd, rs1, rs2, imm] at noInstr
        have noInstr' : r.instr? = none := noInstr
        simp [ArchState.fetched, same, Latch.unsupported, opcode, noInstr']
  next => cases e

/-! ### What Fetch took for the next address (R113, R115, R116) -/

/-- A `HALT` in the latch. -/
def Latch.HoldsHalt (l : Latch) : Prop := l.valid = true ∧ l.instr? = some .halt

/-- A `HALT` is in the pipeline behind Fetch, or has retired. -/
def State.HaltAhead (s : State) : Prop :=
  s.dl.HoldsHalt ∨ s.xl.HoldsHalt ∨ s.ml.HoldsHalt ∨ s.wl.HoldsHalt ∨ s.halted = true

/-- What Fetch has done about the instruction in `DL`, and about itself: `pc` is where the prediction says, only a conditional
branch is predicted taken, and Fetch is off only behind a `HALT`. -/
structure State.Predicts (s : State) : Prop where
  next : s.dl.valid = true → s.pc = s.params.s32 (s.dl.pc.toInt + if s.dl.btbHit then s.dl.imm.toInt else 4)
  hit : s.dl.valid = true → s.dl.btbHit = true → ∃ i, s.dl.instr? = some i ∧ i.family?.isSome = true
  off : s.fl.valid = false → s.HaltAhead

/-- What Decode does to the state when it issues instruction `i`, of whatever kind: the latches move on, the resolved values
are in `XL`, and nothing that the sequential machine has is touched. -/
structure DecodeIssued (s u : State) (i : Instr) : Prop where
  x : u.x = s.x
  pc : u.pc = s.pc
  cc : u.cc = s.cc
  ml : u.ml = s.ml
  wl : u.wl = s.wl
  exbus : u.exbus = s.exbus
  membus : u.membus = s.membus
  retired : u.retired = s.retired
  halted : u.halted = s.halted
  fault : u.fault = s.fault
  dmem : u.dmem = s.dmem
  code : u.code = s.code
  params : u.params = s.params
  fl : u.fl = { s.fl with stalled := false }
  dl : u.dl.valid = false
  xl : ∃ v w f, u.xl = { s.dl with rs1Value := v, rs2Value := w, family := f, stalled := false }
  src1 : ∀ r, i.operands.src1 = some r → s.resolve r = some u.xl.rs1Value
  src2 : ∀ r, i.operands.src2 = some r → s.resolve r = some u.xl.rs2Value

/-- R117 to R122: what the Decode stage can do when it does not raise: nothing, hold its instruction, or issue it. -/
theorem decodeStage_done {s u : State} (e : decodeStage s = .next u) :
    (s.dl.valid = false ∧ u = s) ∨
    (s.dl.valid = true ∧ ∃ i, s.dl.instr? = some i ∧ i.passesDecode s.params ∧
      (u = (s.at .decode).stall ∧ (s.operand i.operands.src1 s.dl.rs1Value = none ∨
          s.operand i.operands.src2 s.dl.rs2Value = none ∨ ∃ d ∈ i.operands.dests, s.isBusy d = true) ∨
        DecodeIssued s u i)) := by
  rcases decodeStage_cases e with ⟨hv, rfl⟩ | ⟨hv, i, hi, passes, stall | ⟨f, hf, rfl⟩ | ⟨a, b, -, ha, hb, -, rfl⟩⟩
  · exact .inl ⟨hv, rfl⟩
  · exact .inr ⟨hv, i, hi, passes, .inl stall⟩
  · refine .inr ⟨hv, i, hi, passes, .inr ?_⟩
    have noSource : i.operands.src1 = none ∧ i.operands.src2 = none := by
      cases i <;> simp [Instr.family?] at hf <;> exact ⟨rfl, rfl⟩
    constructor <;> simp [noSource]
  · refine .inr ⟨hv, i, hi, passes, .inr ?_⟩
    constructor <;> simp
    case src1 => intro r hr; simpa [State.operand, hr] using ha
    case src2 => intro r hr; simpa [State.operand, hr] using hb

/-- R116: on a predictive hit Fetch goes on at the taken-target of the branch it has read. -/
theorem FetchDone.predicts {s u : State} (program : s.ProgramInv) (f : FetchDone s u) (enabled : s.fl.valid = true) :
    u.Predicts where
  next _ := by
    rw [f.pc, f.dl, f.params]
    cases hit : btbLookup s.btb s.pc with
    | none => rfl
    | some e =>
      obtain ⟨mem, hits⟩ := btbLookup_eq_some hit
      obtain ⟨addr, -, counted, -⟩ := BtbEntry.hits_iff.1 hits
      obtain ⟨r, i, read, -, -, target⟩ := program.entries e mem
      rw [addr] at read target
      simpa [fetchedLatch, read] using target (Nat.one_le_iff_ne_zero.2 counted)
  hit _ := by
    rw [f.dl]
    intro hit
    obtain ⟨e, hit⟩ := Option.isSome_iff_exists.1 (show (btbLookup s.btb s.pc).isSome = true from hit)
    obtain ⟨mem, hits⟩ := btbLookup_eq_some hit
    obtain ⟨addr, -⟩ := BtbEntry.hits_iff.1 hits
    obtain ⟨r, i, read, instr, branch, -⟩ := program.entries e mem
    rw [addr] at read
    exact ⟨i, by simpa [fetchedLatch, read, Latch.instr?] using instr, branch⟩
  off off := by
    rw [f.fl, decide_eq_false_iff_not, not_not] at off
    exact .inl ⟨by rw [f.dl]; exact enabled, off⟩

section
variable {s u : State} (h : s.Predicts)
include h

theorem State.Predicts.congr (pc : u.pc = s.pc) (dl : u.dl = s.dl) (fl : u.fl = s.fl) (params : u.params = s.params)
    (ahead : s.HaltAhead → u.HaltAhead) : u.Predicts where
  next := by rw [pc, dl, params]; exact h.next
  hit := by rw [dl]; exact h.hit
  off := by rw [fl]; exact ahead ∘ h.off

/-- R130: a `HALT` in `WL` retires. -/
theorem WritebackDone.keepsPredicts (f : WritebackDone s u) : u.Predicts := by
  refine h.congr f.pc f.dl f.fl f.params fun ahead => ?_
  unfold State.HaltAhead
  rw [f.dl, f.xl, f.ml, f.halted]
  rcases ahead with dl | xl | ml | ⟨valid, halt⟩ | halted
  · exact .inl dl
  · exact .inr (.inl xl)
  · exact .inr (.inr (.inl ml))
  · exact .inr (.inr (.inr (.inr (by simp [valid, halt]))))
  · exact .inr (.inr (.inr (.inr (by simp [halted]))))

/-- R128: a `HALT` goes from `ML` to `WL`. -/
theorem MemoryDone.keepsPredicts (f : MemoryDone s u) (free : s.wl.valid = false) : u.Predicts := by
  refine h.congr f.pc f.dl f.fl f.params fun ahead => ?_
  unfold State.HaltAhead
  rw [f.dl, f.xl, f.halted]
  rcases ahead with dl | xl | ⟨valid, halt⟩ | ⟨valid, -⟩ | halted
  · exact .inl dl
  · exact .inr (.inl xl)
  · obtain ⟨v, wl⟩ := f.wlFilled valid
    exact .inr (.inr (.inr (.inl (by rw [wl]; exact ⟨valid, halt⟩))))
  · simp [free] at valid
  · exact .inr (.inr (.inr (.inr halted)))

/-- R123, R126: a `HALT` goes from `XL` to `ML`; a flush empties `DL` and enables Fetch. -/
theorem ExecuteDone.keepsPredicts (f : ExecuteDone s u) (free : s.ml.valid = false) : u.Predicts := by
  rcases f.front with ⟨pc, dl, fl, -⟩ | ⟨-, -, dl, fl, -⟩
  · refine h.congr pc dl fl f.params fun ahead => ?_
    unfold State.HaltAhead
    rw [dl, f.wl, f.halted]
    rcases ahead with dl | ⟨valid, halt⟩ | ⟨valid, -⟩ | wl | halted
    · exact .inl dl
    · obtain ⟨r, a, ml⟩ := f.mlFilled valid
      exact .inr (.inr (.inl (by rw [ml]; exact ⟨valid, halt⟩)))
    · simp [free] at valid
    · exact .inr (.inr (.inr (.inl wl)))
    · exact .inr (.inr (.inr (.inr halted)))
  · constructor <;> simp [dl, fl]

/-- R122: Decode issues to `XL` and leaves `DL` empty, or holds it. -/
theorem decodeStage_keepsPredicts (free : s.xl.valid = false) (e : decodeStage s = .next u) : u.Predicts := by
  rcases decodeStage_done e with ⟨-, rfl⟩ | ⟨hv, i, hi, -, ⟨rfl, -⟩ | f⟩
  · exact h
  · exact ⟨h.next, h.hit, h.off⟩
  · obtain ⟨v, w, g, xl⟩ := f.xl
    refine ⟨by simp [f.dl], by simp [f.dl], fun off => ?_⟩
    rw [f.fl] at off
    unfold State.HaltAhead
    rw [f.ml, f.wl, f.halted]
    rcases h.off off with ⟨valid, halt⟩ | ⟨valid, -⟩ | behind
    · exact .inr (.inl (by rw [xl]; exact ⟨valid, halt⟩))
    · simp [free] at valid
    · exact .inr (.inr behind)

theorem fetchStage_keepsPredicts (program : s.ProgramInv) (e : fetchStage s = .next u) : u.Predicts := by
  rcases fetchStage_cases e with ⟨-, rfl⟩ | ⟨-, -, rfl⟩ | ⟨-, -, -, rfl⟩ | ⟨enabled, -, -, f⟩
  · exact h
  · exact ⟨h.next, h.hit, h.off⟩
  · exact ⟨h.next, h.hit, h.off⟩
  · exact f.predicts program enabled

end

/-! ### The refinement relation (R134) -/

/-- The invariants of the core alone, within a cycle. -/
structure State.Sound (s : State) : Prop where
  inv : s.MidCycleInv
  halt : s.HaltInv
  program : s.ProgramInv
  predicts : s.Predicts

/-- Where the sequential machine stands when the instruction in `ML` begins, if it is at `a` when that in `WL` does. -/
def ArchState.atMemory (a : ArchState) (s : State) : ArchState := a.past s.wl

/-- Where it stands when the instruction in `XL` begins. -/
def ArchState.atExecute (a : ArchState) (s : State) : ArchState := (a.atMemory s).past s.ml

/-- Where it stands when the instruction in `DL` begins. -/
def ArchState.atDecode (a : ArchState) (s : State) : ArchState := (a.atExecute s).past s.xl

section
variable (a : ArchState) {s u : State} (wl : u.wl = s.wl) (ml : u.ml = s.ml) (xl : u.xl = s.xl)
include wl

theorem ArchState.atMemory_congr : a.atMemory u = a.atMemory s := by rw [ArchState.atMemory, wl]; rfl

include ml

theorem ArchState.atExecute_congr : a.atExecute u = a.atExecute s := by
  rw [ArchState.atExecute, a.atMemory_congr wl, ml]; rfl

include xl

theorem ArchState.atDecode_congr : a.atDecode u = a.atDecode s := by
  rw [ArchState.atDecode, a.atExecute_congr wl ml, xl]; rfl

end

/-- The address of the instruction that Decode is to take next. -/
def State.decodeAddress (s : State) : Word := if s.dl.valid then s.dl.pc else s.pc

/-- The parts of the state that only Writeback changes are those of `a`, and no fatal condition is recorded. -/
structure State.Settled (s : State) (a : ArchState) : Prop where
  x : s.x = a.x
  retired : s.retired = a.retired
  halted : s.halted = a.halted
  code : s.code = a.code
  params : s.params = a.params
  noFault : s.fault = none ∧ a.fault = none

theorem State.Settled.congr {s u : State} {a : ArchState} (h : s.Settled a) (x : u.x = s.x) (retired : u.retired = s.retired)
    (halted : u.halted = s.halted) (code : u.code = s.code) (params : u.params = s.params) (fault : u.fault = s.fault) :
    u.Settled a :=
  ⟨x.trans h.x, retired.trans h.retired, halted.trans h.halted, code.trans h.code, params.trans h.params,
    fault.trans h.noFault.1, h.noFault.2⟩

/-- R134: the core, at a cycle boundary or between two stages, is at `a`, the state of the sequential machine before the
instruction in `WL`. A part of the state that an instruction writes in one stage is that of the sequential machine past the
instructions that have gone through this stage; a latch holds the instruction at which the sequential machine stands, with
what the stages so far have computed of it.

Two exceptions are in the clauses. An instruction whose data address raises does so in `ML`; what has entered `XL` behind it
does not count, since the next cycle raises. And where the instruction in `XL` flushes, what is in `DL` does not count. -/
structure State.Tracks (s : State) (a : ArchState) : Prop extends s.Settled a where
  dmem : s.dmem = (a.atMemory s).dmem
  cc : s.cc = (a.atExecute s).cc
  inWriteback : s.wl.valid = true → ∃ i, a.Feeds s.wl i ∧ (a.effect i).fault = none ∧
    ∀ p ∈ i.writes s, p.value = (a.effect i).get p.reg
  inMemory : s.ml.valid = true → ∃ i, (a.atMemory s).Computed s.ml i
  inExecute : s.xl.valid = true → (a.atExecute s).fault = none → ∃ i, (a.atExecute s).Feeds s.xl i
  membus : ∀ p ∈ s.membus, s.wl.valid = true ∧ p.reg ∈ s.wl.dests ∧ p.value = (a.atMemory s).get p.reg
  exbus : (a.atExecute s).fault = none → ∀ p ∈ s.exbus, p.value = (a.atExecute s).get p.reg
  front : (s.xl.valid = true → (a.atExecute s).fault = none) → s.flushTarget? = none →
    s.decodeAddress = (a.atDecode s).nextAddress

/-! ### The machine past a latch -/

namespace ArchState

variable {a : ArchState} {l : Latch} {i : Instr}

/-- R134: an instruction of the machine that raises nothing completes. -/
theorem Feeds.completes_of_noFault (f : a.Feeds l i) (noFault : (a.effect i).fault = none) :
    a.Completes (a.effect i) i := by
  rcases a.effect_cases f.notDiv with c | ⟨ea, -, -, e⟩
  · exact c
  · rw [e] at noFault
    cases noFault

/-- R134: the one condition an instruction that has passed Decode can raise is that of its data address. -/
theorem Feeds.fault_cases (f : a.Feeds l i) :
    (a.effect i).fault = none ∨ ∃ ea, a.effect i = a.raise (.memoryAddressOutOfRange a.spc ea) := by
  rcases a.effect_cases f.notDiv with c | ⟨ea, -, -, e⟩
  · exact .inl (c.fault.trans (stopped_eq_false.1 f.running).2)
  · exact .inr ⟨ea, e⟩

theorem past_get_other {r : Int} (f : l.valid = true → ∃ i, a.Feeds l i) (h : l.valid = true → r ∉ l.dests) :
    (a.past l).get r = a.get r := by
  cases hv : l.valid with
  | false => rw [past_of_bubble hv]
  | true =>
    obtain ⟨i, f⟩ := f hv
    rw [f.past hv]
    exact a.effect_get_other i (Latch.dests_of_instr? f.instr ▸ h hv)

/-- R200: only a `HALT` halts the machine. -/
theorem halted_of_past (f : l.valid = true → ∃ i, a.Feeds l i) (h : (a.past l).halted = true) :
    a.halted = true ∨ l.HoldsHalt := by
  cases hv : l.valid with
  | false =>
    rw [past_of_bubble hv] at h
    exact .inl h
  | true =>
    obtain ⟨i, f⟩ := f hv
    rw [f.past hv] at h
    rcases a.effect_cases f.notDiv with c | ⟨ea, -, -, e⟩
    · rw [c.halted, Bool.or_eq_true, decide_eq_true_eq] at h
      rcases h with h | rfl
      · exact .inl h
      · exact .inr ⟨hv, f.instr⟩
    · rw [e] at h
      exact .inl h

end ArchState

/-- R10: both machines read a register alike. -/
theorem readReg?_eq_get {a : ArchState} {s : State} {r : Int} {v : Word} (x : s.x = a.x) (params : s.params = a.params)
    (h : s.readReg? r = some v) : v = a.get r := by
  obtain ⟨k, hk, rfl⟩ := Option.map_eq_some_iff.1 h
  rw [ArchState.get, ← params, hk, x]

/-! ### The relation through the stages -/

section
variable {s u : State} {a : ArchState}

namespace State.Tracks

theorem atMemory_launch (h : s.Tracks a) : s.code = (a.atMemory s).code ∧ s.params = (a.atMemory s).params :=
  ⟨h.code.trans (a.past_launch s.wl).1.symm, h.params.trans (a.past_launch s.wl).2.symm⟩

theorem atExecute_launch (h : s.Tracks a) : s.code = (a.atExecute s).code ∧ s.params = (a.atExecute s).params :=
  ⟨h.atMemory_launch.1.trans ((a.atMemory s).past_launch s.ml).1.symm,
    h.atMemory_launch.2.trans ((a.atMemory s).past_launch s.ml).2.symm⟩

/-- What has gone through Memory has raised nothing. -/
theorem atMemory_noFault (h : s.Tracks a) : (a.atMemory s).fault = none := by
  cases hv : s.wl.valid with
  | false => rw [ArchState.atMemory, ArchState.past_of_bubble hv]; exact h.noFault.2
  | true =>
    obtain ⟨i, f, noFault, -⟩ := h.inWriteback hv
    rw [ArchState.atMemory, f.past hv]
    exact noFault

/-- What `WL` is to write is settled by `WL` and the parameters. -/
theorem writesKept (h : s.Tracks a) (wl : u.wl = s.wl) (params : u.params = s.params) (hv : u.wl.valid = true) :
    ∃ i, a.Feeds u.wl i ∧ (a.effect i).fault = none ∧ ∀ p ∈ i.writes u, p.value = (a.effect i).get p.reg := by
  have writes : ∀ i : Instr, i.writes u = i.writes s := fun i => by
    cases i <;> simp [Instr.writes, State.pointer, wl, params]
  simpa only [wl, writes] using h.inWriteback (wl ▸ hv)

/-- R130: Writeback brings the registers, the retirements and `halted` to where the other parts of the state are. -/
theorem writeback (h : s.Tracks a) (exbus : s.exbus = []) (membus : s.membus = []) (e : writebackStage s = .next u) :
    u.Tracks (a.atMemory s) := by
  have f := writebackStage_done e
  have atMemory : (a.atMemory s).atMemory u = a.atMemory s := ArchState.past_of_bubble (by rw [f.wl])
  have atExecute : (a.atMemory s).atExecute u = a.atExecute s := by
    rw [ArchState.atExecute, atMemory, f.ml]; rfl
  have atDecode : (a.atMemory s).atDecode u = a.atDecode s := by
    rw [ArchState.atDecode, atExecute, f.xl]; rfl
  have written : u.x = (a.atMemory s).x ∧ u.retired = (a.atMemory s).retired ∧ u.halted = (a.atMemory s).halted := by
    rw [f.retired, f.halted, ArchState.atMemory]
    cases hv : s.wl.valid with
    | false =>
      rw [ArchState.past_of_bubble hv]
      rw [writebackStage, runStage_bubble s hv] at e
      cases e
      exact ⟨h.x, h.retired, by simpa using h.halted⟩
    | true =>
      obtain ⟨i, feeds, noFault, writes⟩ := h.inWriteback hv
      have completes := feeds.completes_of_noFault noFault
      rw [feeds.past hv, completes.retired, completes.halted, h.retired, h.halted, feeds.instr]
      refine ⟨?_, rfl, by simp⟩
      rw [writebackStage, runStage_instr s hv feeds.instr, exec_writeback i rfl feeds.notDiv] at e
      split at e
      next halt =>
        subst halt
        cases e
        exact h.x
      next =>
        cases e
        exact commitAll_writes_x (s := s.at .writeback) h.params h.x writes
  obtain ⟨x, retired, halted⟩ := written
  constructor
  case toSettled => exact ⟨x, retired, halted, f.code.trans h.atMemory_launch.1, f.params.trans h.atMemory_launch.2,
    f.fault.trans h.noFault.1, h.atMemory_noFault⟩
  case dmem => rw [atMemory, f.dmem, h.dmem]
  case cc => rw [atExecute, f.cc, h.cc]
  case inWriteback => rw [f.wl]; exact nofun
  case inMemory => rw [atMemory, f.ml]; exact h.inMemory
  case inExecute => rw [atExecute, f.xl]; exact h.inExecute
  case membus => rw [f.membus, membus]; exact nofun
  case exbus => rw [f.exbus, exbus]; exact fun _ => nofun
  case front =>
    rw [atExecute, atDecode, f.xl, flushTarget?_congr f.xl f.cc f.params, decodeAddress, f.dl, f.pc]
    exact h.front

theorem writeback_next (h : s.Tracks a) : ∃ u, writebackStage s = .next u := by
  cases hv : s.wl.valid with
  | false => exact ⟨s, runStage_bubble s hv⟩
  | true =>
    obtain ⟨i, f, -⟩ := h.inWriteback hv
    exact ⟨_, (runStage_instr s hv f.instr).trans (exec_writeback i rfl f.notDiv)⟩

/-- With `WL` empty, `ML` holds the instruction at which the sequential machine stands at `a`. -/
theorem computed_of_wlEmpty (h : s.Tracks a) (free : s.wl.valid = false) (hv : s.ml.valid = true) :
    ∃ i, a.Computed s.ml i ∧ a.atExecute s = a.effect i ∧ s.dmem = a.dmem := by
  have here : a.atMemory s = a := ArchState.past_of_bubble free
  obtain ⟨i, c⟩ := h.inMemory hv
  rw [here] at c
  exact ⟨i, c, by rw [ArchState.atExecute, here]; exact c.past hv, h.dmem.trans (congrArg ArchState.dmem here)⟩

/-- R128, R216: Memory raises what the sequential machine does. -/
theorem memory_fault {k : Fault} (h : s.Tracks a) (free : s.wl.valid = false) (e : memoryStage s = .fault k) :
    (a.atExecute s).fault = some k := by
  cases hv : s.ml.valid with
  | false => cases (runStage_bubble s hv).symm.trans e
  | true =>
    obtain ⟨i, c, past, -⟩ := h.computed_of_wlEmpty free hv
    rw [memoryStage, runStage_instr s hv c.instr] at e
    exact past ▸ exec_memory_raises (s := s.at .memory) c h.params rfl e

/-- R128: Memory brings data memory along. -/
theorem memory_next (h : s.Tracks a) (free : s.wl.valid = false) (exbus : s.exbus = []) (membus : s.membus = [])
    (e : memoryStage s = .next u) : u.Tracks a := by
  cases hv : s.ml.valid with
  | false => cases (runStage_bubble s hv).symm.trans e; exact h
  | true =>
    obtain ⟨i, c, past, dmem⟩ := h.computed_of_wlEmpty free hv
    have f := memoryStage_done e
    rw [memoryStage, runStage_instr s hv c.instr] at e
    have agrees := exec_memory_agrees (s := s.at .memory) c dmem h.params rfl e
    obtain ⟨v, wl⟩ := f.wlFilled hv
    have atMemory : a.atMemory u = a.atExecute s := by
      rw [past, ArchState.atMemory, wl]; exact c.past hv
    have atExecute : a.atExecute u = a.atExecute s := by
      rw [ArchState.atExecute, atMemory, ArchState.past_of_bubble f.ml]
    have atDecode : a.atDecode u = a.atDecode s := by rw [ArchState.atDecode, atExecute, f.xl]; rfl
    constructor
    case toSettled => exact h.toSettled.congr f.x f.retired f.halted f.code f.params f.fault
    case dmem => rw [atMemory, past]; exact agrees.dmem
    case cc => rw [atExecute, f.cc, h.cc]
    case inWriteback => exact fun _ => ⟨i, c.congr (by rw [wl]; rfl) (by rw [wl]) (by rw [wl]) (by rw [wl]),
      agrees.noFault, agrees.writes⟩
    case inMemory => rw [f.ml]; exact nofun
    case inExecute => rw [atExecute, f.xl]; exact h.inExecute
    case membus =>
      intro p hp
      obtain ⟨ps, driven, dests⟩ := f.membus
      obtain ⟨qs, driven', values⟩ := agrees.membus
      have own : u.membus = ps := by rw [driven, membus, List.nil_append]
      have own' : u.membus = qs := by rw [driven', State.at_membus, membus, List.nil_append]
      have same : u.wl.dests = s.ml.dests := Latch.dests_congr (by rw [wl]; rfl)
      rw [atMemory, past, same]
      exact ⟨by rw [wl]; exact hv, (dests p (own ▸ hp)).2, values p (own' ▸ hp)⟩
    case exbus => rw [f.exbus, exbus]; exact fun _ => nofun
    case front =>
      rw [atExecute, atDecode, f.xl, flushTarget?_congr f.xl f.cc f.params, decodeAddress, f.dl, f.pc]
      exact h.front

/-- With `ML` empty, `XL` holds the instruction at which the sequential machine stands behind Memory. -/
theorem feeds_of_mlEmpty (h : s.Tracks a) (free : s.ml.valid = false) (hv : s.xl.valid = true) :
    ∃ i, (a.atExecute s).Feeds s.xl i ∧ a.atDecode s = (a.atExecute s).effect i := by
  have here : a.atExecute s = a.atMemory s := ArchState.past_of_bubble free
  obtain ⟨i, feeds⟩ := h.inExecute hv (here ▸ h.atMemory_noFault)
  exact ⟨i, feeds, feeds.past hv⟩

/-- R126, R196: after Execute, by its flush or by the prediction, the sequential next address is next for Decode. -/
theorem front_of_execute (h : s.Tracks a) (free : s.ml.valid = false) (e : executeStage s = .next u) :
    u.decodeAddress = (a.atDecode s).nextAddress := by
  have here : a.atExecute s = a.atMemory s := ArchState.past_of_bubble free
  cases flush : s.flushTarget? with
  | none =>
    have kept := executeStage_noFlush flush e
    rw [decodeAddress, kept.dl, kept.pc]
    exact h.front (fun _ => here ▸ h.atMemory_noFault) flush
  | some t =>
    have flushed := executeStage_flush flush e
    obtain ⟨hv, j, hj, flushOf⟩ := flushTarget?_eq_some flush
    obtain ⟨i, feeds, past⟩ := h.feeds_of_mlEmpty free hv
    obtain rfl := Option.some_inj.1 (feeds.instr.symm.trans hj)
    rw [decodeAddress, flushed.dl, flushed.pc, past]
    exact (nextAddress_of_flush feeds h.cc h.atExecute_launch.2 flushOf).symm

/-- R123: Execute brings the flags and, where it flushes, the fetch address along. -/
theorem execute (h : s.Tracks a) (free : s.ml.valid = false) (exbus : s.exbus = []) :
    ∃ u, executeStage s = .next u ∧ u.Tracks a := by
  cases hv : s.xl.valid with
  | false => exact ⟨s, runStage_bubble s hv, h⟩
  | true =>
    have here : a.atExecute s = a.atMemory s := ArchState.past_of_bubble free
    obtain ⟨i, feeds, past⟩ := h.feeds_of_mlEmpty free hv
    obtain ⟨w, e, -⟩ := exec_execute i (s := s.at .execute) rfl feeds.notDiv
    have e' := (runStage_instr s hv feeds.instr).trans e
    refine ⟨_, e', ?_⟩
    generalize w.advanceExecute = u at e e'
    have f := executeStage_done e'
    have agrees := exec_execute_agrees (s := s.at .execute) feeds h.cc h.atExecute_launch.2 rfl e
    obtain ⟨r, m, ml⟩ := f.mlFilled hv
    have atMemory := a.atMemory_congr f.wl
    have atExecute : a.atExecute u = a.atDecode s := by
      rw [ArchState.atExecute, atMemory, past, ← here, ml]; exact feeds.past hv
    have atDecode : a.atDecode u = a.atDecode s := by
      rw [ArchState.atDecode, atExecute, ArchState.past_of_bubble f.xl]
    constructor
    case toSettled => exact h.toSettled.congr f.x f.retired f.halted f.code f.params f.fault
    case dmem => rw [atMemory, f.dmem, h.dmem]
    case cc => rw [atExecute, past]; exact agrees.cc
    case inWriteback => exact h.writesKept f.wl f.params
    case inMemory =>
      rw [atMemory, ← here]
      exact fun _ => ⟨i, feeds.congr (by rw [ml]; rfl) (by rw [ml]) (by rw [ml]) (by rw [ml]), agrees.address,
        agrees.result⟩
    case inExecute => rw [f.xl]; exact nofun
    case membus => rw [f.membus, f.wl, atMemory]; exact h.membus
    case exbus =>
      obtain ⟨ps, driven, values⟩ := agrees.exbus
      have own : u.exbus = ps := by rw [driven, State.at_exbus, exbus, List.nil_append]
      rw [atExecute, past, own]
      exact values
    case front => rw [atDecode]; exact fun _ _ => h.front_of_execute free e'

/-- R131: behind a `HALT` at which the sequential machine has stopped, `DL` is empty. -/
theorem dl_empty_of_halted (h : s.Tracks a) (halt : s.HaltInv) (halted : (a.atExecute s).halted = true) :
    s.dl.valid = false := by
  have inMemory : s.ml.valid = true → ∃ i, (a.atMemory s).Feeds s.ml i := fun hv =>
    (h.inMemory hv).imp fun _ c => c.toFeeds
  have inWriteback : s.wl.valid = true → ∃ i, a.Feeds s.wl i := fun hv => (h.inWriteback hv).imp fun _ c => c.1
  rcases ArchState.halted_of_past inMemory halted with halted | ⟨valid, instr⟩
  · rcases ArchState.halted_of_past inWriteback halted with halted | ⟨valid, instr⟩
    · exact (halt.afterHalt (h.halted.trans halted)).2.2.2.1
    · exact (halt.inWriteback valid instr).2.2.1
  · exact (halt.inMemory valid instr).2.1

/-- R119: a source that Decode resolves has its sequential value: `EXBUS` has what the instruction in `ML` writes, `MEMBUS`
what the one in `WL` writes and that in `ML` does not, and a register that is not busy is written by neither. -/
theorem resolve_eq_get (h : s.Tracks a) (inv : s.MidCycleInv) (noFault : (a.atExecute s).fault = none) {r : Int}
    {v : Word} (e : s.resolve r = some v) : v = (a.atExecute s).get r := by
  obtain ⟨busyExact, oneWriter, -⟩ := s.carries_carried_iff.1 inv.carries
  have inMemory : s.ml.valid = true → ∃ i, (a.atMemory s).Feeds s.ml i := fun hv =>
    (h.inMemory hv).imp fun _ c => c.toFeeds
  have inWriteback : s.wl.valid = true → ∃ i, a.Feeds s.wl i := fun hv => (h.inWriteback hv).imp fun _ c => c.1
  unfold resolve at e
  split at e
  next w found =>
    cases e
    obtain ⟨p, hp, rfl⟩ := Option.map_eq_some_iff.1 found
    have reg : p.reg = r := by simpa using List.find?_some hp
    exact reg ▸ h.exbus noFault p (List.mem_of_find?_eq_some hp)
  next =>
    split at e
    next w found =>
      cases e
      obtain ⟨p, hp, rfl⟩ := Option.map_eq_some_iff.1 found
      have reg : p.reg = r := by simpa using List.find?_some hp
      obtain ⟨valid, dest, value⟩ := h.membus p (List.mem_of_find?_eq_some hp)
      rw [reg] at dest value
      have separate : s.ml.valid = true → s.wl.valid = true → ∀ q ∈ s.ml.dests, q ∉ s.wl.dests := by
        have pairs := List.pairwise_filter.1 oneWriter
        simp only [List.pairwise_cons, List.mem_singleton, forall_eq] at pairs
        exact pairs.2.1
      have notWritten : s.ml.valid = true → r ∉ s.ml.dests := fun hv hr => separate hv valid r hr dest
      rw [value, ArchState.atExecute, ArchState.past_get_other inMemory notWritten]
    next =>
      split at e
      · cases e
      next free =>
        have notWritten : ∀ l ∈ s.inFlight, r ∉ l.dests := fun l hl hr => free ((busyExact r).2 ⟨l, hl, hr⟩)
        rw [ArchState.atExecute, ArchState.past_get_other inMemory fun hv => notWritten _ (by simp [inFlight, hv]),
          ArchState.atMemory, ArchState.past_get_other inWriteback fun hv => notWritten _ (by simp [inFlight, hv])]
        exact readReg?_eq_get h.x h.params e

/-- With `XL` empty, the instruction in `DL` is at the address where the sequential machine goes on. -/
theorem dl_pc_of_xlEmpty (h : s.Tracks a) (free : s.xl.valid = false) (hv : s.dl.valid = true) :
    s.dl.pc = (a.atExecute s).nextAddress := by
  have front := h.front (by simp [free]) (by simp [flushTarget?, free])
  rwa [decodeAddress, if_pos hv, ArchState.atDecode, ArchState.past_of_bubble free] at front

/-- R122, R134: what Decode issues is the instruction at which the sequential machine stands, with the operand values it has
there. -/
theorem feeds_of_issue {i : Instr} (h : s.Tracks a) (sound : s.Sound) (free : s.xl.valid = false)
    (hv : s.dl.valid = true) (hi : s.dl.instr? = some i) (passes : i.passesDecode s.params) (f : DecodeIssued s u i)
    (noFault : (a.atExecute s).fault = none) : (a.atExecute s).Feeds u.xl i := by
  have running : (a.atExecute s).stopped = false := by
    refine ArchState.stopped_eq_false.2 ⟨Bool.eq_false_iff.2 fun halted => ?_, noFault⟩
    simp [h.dl_empty_of_halted sound.halt halted] at hv
  have front := h.dl_pc_of_xlEmpty free hv
  rw [ArchState.nextAddress_of_running running] at front
  obtain ⟨v, w, g, xl⟩ := f.xl
  constructor
  case running => exact running
  case instr => rw [xl]; exact hi
  case pc => rw [xl]; exact front
  case fetched =>
    rw [← front]
    exact fetched_eq_ok h.atExecute_launch.1 (sound.program.inDecode hv) hi (h.atExecute_launch.2 ▸ passes)
  case src1 => exact fun r hr => h.resolve_eq_get sound.inv noFault (f.src1 r hr)
  case src2 => exact fun r hr => h.resolve_eq_get sound.inv noFault (f.src2 r hr)

/-- R121, R122: Decode holds the instruction at which the sequential machine stands, or issues it with its operand values. -/
theorem decode_next (h : s.Tracks a) (sound : s.Sound) (free : s.xl.valid = false) (e : decodeStage s = .next u) :
    u.Tracks a := by
  rcases decodeStage_done e with ⟨-, rfl⟩ | ⟨hv, i, hi, passes, ⟨rfl, -⟩ | f⟩
  · exact h
  · exact { h with inWriteback := h.writesKept rfl rfl }
  · obtain ⟨v, w, g, xl⟩ := f.xl
    have atMemory := a.atMemory_congr f.wl
    have atExecute := a.atExecute_congr f.wl f.ml
    have feeds := h.feeds_of_issue sound free hv hi passes f
    have valid : u.xl.valid = true := by rw [xl]; exact hv
    constructor
    case toSettled => exact h.toSettled.congr f.x f.retired f.halted f.code f.params f.fault
    case dmem => rw [atMemory, f.dmem, h.dmem]
    case cc => rw [atExecute, f.cc, h.cc]
    case inWriteback => exact h.writesKept f.wl f.params
    case inMemory => rw [atMemory, f.ml]; exact h.inMemory
    case inExecute => rw [atExecute]; exact fun _ noFault => ⟨i, feeds noFault⟩
    case membus => rw [f.membus, f.wl, atMemory]; exact h.membus
    case exbus => rw [f.exbus, atExecute]; exact h.exbus
    case front =>
      rw [atExecute]
      intro counts noFlush
      have feeds := feeds (counts valid)
      have flushOf : u.flushOf i = none := by simpa [flushTarget?, valid, feeds.instr] using noFlush
      have hit : u.xl.btbHit = true → i.family?.isSome = true := by
        rw [xl]
        intro hit
        obtain ⟨j, hj, branch⟩ := sound.predicts.hit hv hit
        exact Option.some_inj.1 (hi.symm.trans hj) ▸ branch
      rw [ArchState.atDecode, atExecute, feeds.past valid, nextAddress_of_noFlush feeds (f.cc.trans h.cc)
        (f.params.trans h.atExecute_launch.2) hit flushOf, decodeAddress, f.dl, f.pc, f.params, xl]
      exact sound.predicts.next hv

/-- R113: Fetch brings the instruction at the address that is next for Decode. -/
theorem fetch (h : s.Tracks a) (empty : s.dl.valid = true → s.fl.stalled = true) (e : fetchStage s = .next u) :
    u.Tracks a := by
  rcases fetchStage_cases e with ⟨-, rfl⟩ | ⟨-, -, rfl⟩ | ⟨-, -, -, rfl⟩ | ⟨enabled, -, free, f⟩
  · exact h
  · exact { h with inWriteback := h.writesKept rfl rfl }
  · exact { h with inWriteback := h.writesKept rfl rfl }
  · have dl : s.dl.valid = false := Bool.eq_false_iff.2 fun hv => by simp [empty hv] at free
    have atMemory := a.atMemory_congr f.wl
    have atExecute := a.atExecute_congr f.wl f.ml
    have atDecode := a.atDecode_congr f.wl f.ml f.xl
    constructor
    case toSettled => exact h.toSettled.congr f.x f.retired f.halted f.code f.params f.fault
    case dmem => rw [atMemory, f.dmem, h.dmem]
    case cc => rw [atExecute, f.cc, h.cc]
    case inWriteback => exact h.writesKept f.wl f.params
    case inMemory => rw [atMemory, f.ml]; exact h.inMemory
    case inExecute => rw [atExecute, f.xl]; exact h.inExecute
    case membus => rw [f.membus, f.wl, atMemory]; exact h.membus
    case exbus => rw [f.exbus, atExecute]; exact h.exbus
    case front =>
      have before := h.front
      rw [decodeAddress, dl] at before
      rw [atExecute, atDecode, f.xl, flushTarget?_congr f.xl f.cc f.params, decodeAddress, f.dl]
      simpa [fetchedLatch, enabled] using before

end State.Tracks

end

/-! ### The condition a cycle raises (R215, R216) -/

/-- R215: `k` is the fatal condition of the run of the sequential machine from `a`, or the run ends at a load or store whose
address raises and `k` is what Decode raises for the instruction after it. -/
def ArchState.Raises (a : ArchState) (k : Fault) : Prop :=
  ∃ n, (ArchState.step^[n] a).fault = some k ∨
    ∃ pc addr, (ArchState.step^[n] a).fault = some (.memoryAddressOutOfRange pc addr) ∧
      (ArchState.step^[n] a).fetched (a.params.s32 (pc.toInt + 4)) = .error k

namespace ArchState

variable {a : ArchState} {k : Fault}

theorem Raises.of_iterate {m : ℕ} (h : (step^[m] a).Raises k) : a.Raises k := by
  obtain ⟨n, h⟩ := h
  rw [← Function.iterate_add_apply, (a.iterate_launch m).2] at h
  exact ⟨n + m, h⟩

/-- Where the core is in the run of the sequential machine. -/
theorem exists_iterate_atExecute (a : ArchState) (s : State) : ∃ n, a.atExecute s = step^[n] a := by
  obtain ⟨m, hm⟩ := a.exists_iterate_past s.wl
  obtain ⟨n, hn⟩ := (a.atMemory s).exists_iterate_past s.ml
  exact ⟨n + m, by rw [Function.iterate_add_apply, ← hm]; exact hn⟩

end ArchState

namespace State.Tracks

variable {s : State} {a : ArchState} {k : Fault}

theorem memory_raises (h : (a.atExecute s).fault = some k) : a.Raises k := by
  obtain ⟨n, past⟩ := a.exists_iterate_atExecute s
  exact ⟨n, .inl (past ▸ h)⟩

/-- R215: Decode raises for the instruction at which the sequential machine stands, or for the one behind a load or store
whose address raises. -/
theorem decode_raises (h : s.Tracks a) (sound : s.Sound) (free : s.xl.valid = false) (e : decodeStage s = .fault k) :
    a.Raises k := by
  obtain ⟨hv, fetched⟩ := decodeStage_fault h.atExecute_launch.1 h.atExecute_launch.2 sound.program.inDecode e
  have front := h.dl_pc_of_xlEmpty free hv
  have notHalted : (a.atExecute s).halted = false := Bool.eq_false_iff.2 fun halted => by
    simp [h.dl_empty_of_halted sound.halt halted] at hv
  obtain ⟨n, past⟩ := a.exists_iterate_atExecute s
  cases noFault : (a.atExecute s).fault with
  | none =>
    rw [front, ArchState.nextAddress_of_running (ArchState.stopped_eq_false.2 ⟨notHalted, noFault⟩)] at fetched
    refine ⟨n + 1, .inl ?_⟩
    rw [Function.iterate_succ_apply', ← past, ArchState.step_of_error notHalted noFault fetched]
    rfl
  | some j =>
    have filled : s.ml.valid = true := by
      by_contra hm
      rw [ArchState.atExecute, ArchState.past_of_bubble (Bool.eq_false_iff.2 hm), h.atMemory_noFault] at noFault
      cases noFault
    obtain ⟨i, c⟩ := h.inMemory filled
    have effect : a.atExecute s = (a.atMemory s).effect i := c.past filled
    rcases c.fault_cases with fine | ⟨ea, raised⟩
    · rw [effect, fine] at noFault
      cases noFault
    · refine ⟨n, .inr ⟨(a.atMemory s).spc, ea, ?_, ?_⟩⟩
      · rw [← past, effect, raised]; rfl
      · rw [← past]
        rw [front, ArchState.nextAddress_of_stopped (by simp [ArchState.stopped, noFault])] at fetched
        rw [← h.params, h.atMemory_launch.2]
        rw [← fetched, effect, raised]
        rfl

end State.Tracks

/-! ### One cycle of the core -/

/-- R134: at a cycle boundary, the core with its invariants is at `a`. -/
structure State.Refines (s : State) (a : ArchState) : Prop where
  inv : s.Inv
  halt : s.HaltInv
  program : s.ProgramInv
  predicts : s.Predicts
  tracks : s.Tracks a

section
variable {s t : State} {a : ArchState}

theorem State.Refines.clearBuses (h : s.Refines a) : s.clearBuses.Sound ∧ s.clearBuses.Tracks a :=
  ⟨⟨h.inv.clearBuses, { h.halt with }, { h.program with }, ⟨h.predicts.next, h.predicts.hit, h.predicts.off⟩⟩,
    { h.tracks with inWriteback := h.tracks.writesKept rfl rfl, exbus := fun _ => nofun, membus := nofun }⟩

theorem State.Sound.closeCycle (sound : s.Sound) (tracks : s.Tracks a) (noRedirect : s.redirectPending = false) :
    s.closeCycle.Refines a :=
  ⟨sound.inv.closeCycle noRedirect, { sound.halt with }, { sound.program with },
    ⟨sound.predicts.next, sound.predicts.hit, sound.predicts.off⟩,
    { tracks with inWriteback := tracks.writesKept rfl rfl, exbus := fun _ => nofun, membus := nofun }⟩

/-- R121: what Decode leaves in `DL` it holds together with Fetch. -/
theorem decodeStage_holds {s u : State} (e : decodeStage s = .next u) : u.dl.valid = true → u.fl.stalled = true := by
  rcases decodeStage_done e with ⟨hv, rfl⟩ | ⟨-, i, -, -, ⟨rfl, -⟩ | f⟩
  · simp [hv]
  · exact fun _ => rfl
  · simp [f.dl]

/-- R113: Fetch never raises. -/
theorem fetchStage_next (s : State) : ∃ t, fetchStage s = .next t := by
  unfold fetchStage
  split
  · exact ⟨_, rfl⟩
  · split
    · exact ⟨_, rfl⟩
    · split
      · exact ⟨_, rfl⟩
      · exact ⟨_, fetchDeliver_eq _⟩

/-- R134: a cycle brings the core past the instruction in `WL`, or raises the condition of the sequential machine. -/
theorem State.Refines.cycle (h : s.Refines a) :
    (∃ t, cycleStages s = .next t ∧ t.closeCycle.Refines (a.atMemory s)) ∨
    ∃ k, cycleStages s = .fault k ∧ a.Raises k := by
  obtain ⟨sound, tracks⟩ := h.clearBuses
  obtain ⟨m, atMemory⟩ := a.exists_iterate_past s.wl
  have later : ∀ {k}, (a.atMemory s).Raises k → a.Raises k := fun {k} r =>
    ArchState.Raises.of_iterate (m := m) (by rwa [← atMemory])
  obtain ⟨u, hu⟩ := tracks.writeback_next
  have uTracks : u.Tracks (a.atMemory s) := tracks.writeback rfl rfl hu
  have writeback := writebackStage_done hu
  have uSound : u.Sound := ⟨writeback.keepsInv sound.inv, writeback.keepsHalt sound.halt,
    writeback.keepsProgram sound.program, writeback.keepsPredicts sound.predicts⟩
  have wlFree : u.wl.valid = false := by rw [writeback.wl]
  have exbus : u.exbus = [] := writeback.exbus
  cases hv : memoryStage u with
  | refused r => exact absurd hv (runStage_ne_refused _ _ _ _)
  | fault k =>
    exact .inr ⟨k, by simp [cycleStages, backEnd, hu, hv],
      later (State.Tracks.memory_raises (uTracks.memory_fault wlFree hv))⟩
  | next v =>
    have vTracks := uTracks.memory_next wlFree exbus writeback.membus hv
    have memory := memoryStage_done hv
    have vSound : v.Sound := ⟨memory.keepsInv uSound.inv wlFree, memory.keepsHalt uSound.halt,
      memory.keepsProgram uSound.program, memory.keepsPredicts uSound.predicts wlFree⟩
    obtain ⟨w, hw, wTracks⟩ := vTracks.execute memory.ml (memory.exbus.trans exbus)
    have execute := executeStage_done hw
    have wSound : w.Sound := ⟨execute.keepsInv vSound.inv memory.ml, execute.keepsHalt vSound.halt,
      execute.keepsProgram vSound.program, execute.keepsPredicts vSound.predicts memory.ml⟩
    cases hd : decodeStage w with
    | refused r => exact absurd hd (runStage_ne_refused _ _ _ _)
    | fault k =>
      exact .inr ⟨k, by simp [cycleStages, backEnd, hu, hv, hw, hd],
        later (wTracks.decode_raises wSound execute.xl hd)⟩
    | next d =>
      have dTracks := wTracks.decode_next wSound execute.xl hd
      have dSound : d.Sound := ⟨decodeStage_keepsInv wSound.inv execute.xl hd, decodeStage_keepsHalt wSound.halt hd,
        decodeStage_keepsProgram wSound.program hd, decodeStage_keepsPredicts wSound.predicts execute.xl hd⟩
      obtain ⟨t, ht⟩ := fetchStage_next d
      have tTracks := dTracks.fetch (decodeStage_holds hd) ht
      obtain ⟨inv, noRedirect⟩ := fetchStage_keepsInv dSound.inv ht
      have tSound : t.Sound := ⟨inv, fetchStage_keepsHalt dSound.halt ht, fetchStage_keepsProgram dSound.program ht,
        fetchStage_keepsPredicts dSound.predicts dSound.program ht⟩
      exact .inl ⟨t, cycleStages_eq_next.2 ⟨u, v, w, d, hu, hv, hw, hd, ht⟩, tSound.closeCycle tTracks noRedirect⟩

end

/-! ### Every cycle makes progress -/

/-- How far the oldest instruction behind Fetch has come: 4 in `WL`, 0 where there is none. -/
def State.headway (s : State) : ℕ :=
  if s.wl.valid then 4 else if s.ml.valid then 3 else if s.xl.valid then 2 else if s.dl.valid then 1 else 0

theorem State.headway_le (s : State) : s.headway ≤ 4 := by
  unfold State.headway
  repeat' split
  all_goals decide

section
variable {s t : State}

/-- Decode leaves what is behind it in place. -/
theorem decodeStage_behind {s u : State} (e : decodeStage s = .next u) : u.ml = s.ml ∧ u.wl = s.wl := by
  rcases decodeStage_done e with ⟨-, rfl⟩ | ⟨-, i, -, -, ⟨rfl, -⟩ | f⟩
  · exact ⟨rfl, rfl⟩
  · exact ⟨rfl, rfl⟩
  · exact ⟨f.ml, f.wl⟩

/-- Fetch leaves what is behind Decode in place. -/
theorem fetchStage_behind {s u : State} (e : fetchStage s = .next u) : u.xl = s.xl ∧ u.ml = s.ml ∧ u.wl = s.wl := by
  rcases fetchStage_cases e with ⟨-, rfl⟩ | ⟨-, -, rfl⟩ | ⟨-, -, -, rfl⟩ | ⟨-, -, -, f⟩
  · exact ⟨rfl, rfl, rfl⟩
  · exact ⟨rfl, rfl, rfl⟩
  · exact ⟨rfl, rfl, rfl⟩
  · exact ⟨f.xl, f.ml, f.wl⟩

/-- R111: what is in `ML` goes to `WL`, and what is in `XL` to `ML`. -/
theorem cycleStages_advance (e : cycleStages s = .next t) :
    (s.ml.valid = true → t.wl.valid = true) ∧ (s.xl.valid = true → t.ml.valid = true) := by
  obtain ⟨u, v, w, d, hu, hv, hw, hd, ht⟩ := cycleStages_eq_next.1 e
  have writeback := writebackStage_done hu
  have memory := memoryStage_done hv
  have execute := executeStage_done hw
  have decode := decodeStage_behind hd
  have fetch := fetchStage_behind ht
  rw [fetch.2.2, decode.2, execute.wl, fetch.2.1, decode.1]
  constructor
  · intro valid
    obtain ⟨r, wl⟩ := memory.wlFilled (writeback.ml ▸ valid)
    rw [wl, writeback.ml]
    exact valid
  · intro valid
    have xl : v.xl = s.xl := memory.xl.trans writeback.xl
    obtain ⟨r, a, ml⟩ := execute.mlFilled (xl ▸ valid)
    rw [ml, xl]
    exact valid

/-- R119: a register that is not busy resolves. -/
theorem resolve_isSome {r : Int} (free : s.isBusy r = false) (reg : (s.params.regIndex? r).isSome = true) :
    s.resolve r ≠ none := by
  unfold State.resolve
  split
  · simp
  · split
    · simp
    · rw [free, ← Option.isSome_iff_ne_none]
      simpa [readReg?_isSome] using reg

/-- R122: with no busy register Decode issues what is in `DL`. -/
theorem decodeStage_issues {u : State} (free : ∀ r, s.isBusy r = false) (hv : s.dl.valid = true)
    (e : decodeStage s = .next u) : u.xl.valid = true := by
  rcases decodeStage_done e with ⟨empty, -⟩ | ⟨-, i, -, passes, ⟨-, stalls⟩ | f⟩
  · simp [hv] at empty
  · have resolves : ∀ (src : Option Int) (old : Word), (∀ r ∈ src, r ∈ i.operands.fields) → s.operand src old ≠ none := by
      intro src old fields
      cases src with
      | none => simp [State.operand]
      | some r => exact resolve_isSome (free r) (badField?_eq_none passes.2 r (fields r rfl))
    rcases stalls with first | second | ⟨d, -, busy⟩
    · exact absurd first (resolves _ _ fun r hr => by simp_all [Operands.fields])
    · exact absurd second (resolves _ _ fun r hr => by simp_all [Operands.fields])
    · simp [free d] at busy
  · obtain ⟨v, w, g, xl⟩ := f.xl
    rw [xl]
    exact hv

/-- With nothing in flight, a cycle moves what is in `DL` to `XL`, or fetches. -/
theorem cycleStages_of_nothingInFlight (inv : s.Inv) (predicts : s.Predicts) (notHalted : s.halted = false)
    (wl : s.wl.valid = false) (ml : s.ml.valid = false) (xl : s.xl.valid = false) (e : cycleStages s = .next t) :
    (s.dl.valid = true → t.xl.valid = true) ∧ (s.dl.valid = false → t.dl.valid = true) := by
  obtain ⟨u, v, w, d, hu, hv, hw, hd, ht⟩ := cycleStages_eq_next.1 e
  cases (runStage_bubble s.clearBuses wl).symm.trans hu
  cases (runStage_bubble s.clearBuses ml).symm.trans hv
  cases (runStage_bubble s.clearBuses xl).symm.trans hw
  constructor
  · intro valid
    have free : ∀ r, s.clearBuses.isBusy r = false := fun r => Bool.eq_false_iff.2 fun busy => by
      obtain ⟨l, hl, -⟩ := (inv.busyExact r).1 busy
      simp [State.inFlight, xl, ml, wl] at hl
    rw [(fetchStage_behind ht).1]
    exact decodeStage_issues free valid hd
  · intro empty
    cases (runStage_bubble s.clearBuses empty).symm.trans hd
    have enabled : s.fl.valid = true := by
      by_contra off
      have ahead := predicts.off (Bool.eq_false_iff.2 off)
      simp [State.HaltAhead, Latch.HoldsHalt, empty, xl, ml, wl, notHalted] at ahead
    rcases fetchStage_cases ht with ⟨off, -⟩ | ⟨-, redirect, -⟩ | ⟨-, -, held, -⟩ | ⟨-, -, -, f⟩
    · exact absurd enabled (by simpa using off)
    · exact absurd inv.noRedirect (by simpa using redirect)
    · exact absurd (inv.holdNeedsStall empty) (by simpa using held)
    · rw [f.dl]; exact enabled

/-- Every cycle retires an instruction, or brings the oldest one a stage further. -/
theorem cycleStages_progress (inv : s.Inv) (predicts : s.Predicts) (notHalted : s.halted = false)
    (e : cycleStages s = .next t) : 5 * s.retired + s.headway < 5 * t.retired + t.headway := by
  obtain ⟨-, -, retired⟩ := cycleStages_counts e
  obtain ⟨toWriteback, toMemory⟩ := cycleStages_advance e
  have bound := s.headway_le
  rw [retired]
  cases wl : s.wl.valid with
  | true => simp only [if_true]; omega
  | false =>
    simp only [Bool.false_eq_true, if_false, Nat.add_zero, Nat.add_lt_add_iff_left]
    cases ml : s.ml.valid with
    | true => simp [State.headway, wl, ml, toWriteback ml]
    | false =>
      cases xl : s.xl.valid with
      | true =>
        simp only [State.headway, wl, ml, xl, toMemory xl, Bool.false_eq_true, if_false, if_true]
        split <;> decide
      | false =>
        obtain ⟨toExecute, toDecode⟩ := cycleStages_of_nothingInFlight inv predicts notHalted wl ml xl e
        cases dl : s.dl.valid with
        | true =>
          simp only [State.headway, wl, ml, xl, dl, toExecute dl, Bool.false_eq_true, if_false, if_true]
          repeat' split
          all_goals decide
        | false =>
          simp only [State.headway, wl, ml, xl, dl, toDecode dl, Bool.false_eq_true, if_false, if_true]
          repeat' split
          all_goals decide

end

/-! ### Runs (R134) -/

/-- The sequential machine after `n` steps: it has not both halted and raised, and has retired at most `n` instructions. -/
structure ArchState.Regular (n : ℕ) (a : ArchState) : Prop where
  exclusive : a.halted = true → a.fault = none
  retired : a.retired ≤ n

theorem ArchState.Regular.step {n : ℕ} {a : ArchState} (h : a.Regular n) : a.step.Regular (n + 1) := by
  cases running : a.stopped with
  | true =>
    rw [ArchState.step_of_stopped running]
    exact ⟨h.exclusive, h.retired.trans (Nat.le_succ n)⟩
  | false =>
    obtain ⟨notHalted, noFault⟩ := ArchState.stopped_eq_false.1 running
    have raise : ∀ k, (a.raise k).Regular (n + 1) := fun k =>
      ⟨fun halted => by simp [ArchState.raise, notHalted] at halted, h.retired.trans (Nat.le_succ n)⟩
    cases fetched : a.fetched a.spc with
    | error k => rw [ArchState.step_of_error notHalted noFault fetched]; exact raise k
    | ok i =>
      rw [ArchState.step_of_running running fetched]
      have notDiv := ArchState.opcode_ne_div_of_passesDecode (ArchState.passesDecode_of_fetched fetched)
      rcases a.effect_cases notDiv with c | ⟨ea, -, -, e⟩
      · exact ⟨fun _ => c.fault.trans noFault, c.retired.le.trans (Nat.succ_le_succ h.retired)⟩
      · rw [e]; exact raise _

/-- Right after reset the core is at the reset state of the sequential machine. -/
theorem State.refines_archReset {code : List Record} {params : Params} {init : List (Nat × Word)} {s : State}
    (h : State.initialize code params init = .ok s) : s.Refines s.archReset := by
  obtain ⟨inv, halt, program, -⟩ := resetHasTheInvariants.2 code params init s h
  rw [State.eq_resetWith_of_initialize h] at *
  refine ⟨inv, halt, program, ⟨nofun, nofun, nofun⟩, ?_⟩
  exact ⟨⟨rfl, rfl, rfl, rfl, rfl, rfl, rfl⟩, rfl, rfl, nofun, nofun, nofun, nofun, fun _ => nofun, fun _ _ => rfl⟩

theorem State.archReset_regular {code : List Record} {params : Params} {init : List (Nat × Word)} {s : State}
    (h : State.initialize code params init = .ok s) : s.archReset.Regular 0 := by
  rw [State.eq_resetWith_of_initialize h]
  exact ⟨fun _ => rfl, Nat.le_refl 0⟩

/-- R134: a state of the run of the core that belongs to the run of the sequential machine from `a`: it is at one of its
states, or has stopped with its condition. -/
def State.Follows (s : State) (a : ArchState) : Prop :=
  (∃ n, s.Refines (ArchState.step^[n] a)) ∨ (s.halted = false ∧ ∃ k, s.fault = some k ∧ a.Raises k)

theorem core_run_succ {s t : State} (e : step s = .next t) (n : ℕ) :
    Sys2Proof.core.run (n + 1) s = Sys2Proof.core.run n t := by
  have e' : Sys2Proof.core.step s = .next t := e
  simp only [Host.Core.run, e']

section
variable {s t : State} {a : ArchState}

/-- A running core at a state of the sequential machine: its step is a cycle, after which it is at a state of the sequential
machine again and has made progress, or it records the condition of the sequential machine. -/
theorem State.Refines.step {n : ℕ} (h : s.Refines (ArchState.step^[n] a)) (notHalted : s.halted = false) :
    (∃ t, Machine.step s = .next t ∧ (∃ m, t.Refines (ArchState.step^[m] a)) ∧
      5 * s.retired + s.headway < 5 * t.retired + t.headway) ∨
    ∃ k, Machine.step s = .next (s.takeFatal k) ∧ a.Raises k := by
  have running : (s.halted || s.fault.isSome) = false := by simp [notHalted, h.tracks.noFault.1]
  rcases h.cycle with ⟨t, cycle, refines⟩ | ⟨k, cycle, raised⟩
  · obtain ⟨m, past⟩ := (ArchState.step^[n] a).exists_iterate_past s.wl
    have progress := cycleStages_progress h.inv h.predicts notHalted cycle
    refine .inl ⟨t.closeCycle, by simp [Machine.step, stepCycle, running, cycle], ⟨m + n, ?_⟩, progress⟩
    rw [Function.iterate_add_apply, ← past]
    exact refines
  · exact .inr ⟨k, by simp [Machine.step, stepCycle, running, cycle], raised.of_iterate⟩

theorem State.Follows.step (h : s.Follows a) : ∃ t, Machine.step s = .next t ∧ t.Follows a := by
  cases running : s.halted || s.fault.isSome with
  | true => exact ⟨s, step_of_stopped running, h⟩
  | false =>
    obtain ⟨notHalted, noFault⟩ := Bool.or_eq_false_iff.1 running
    rcases h with ⟨n, refines⟩ | ⟨-, k, fault, -⟩
    · rcases refines.step notHalted with ⟨t, e, refines, -⟩ | ⟨k, e, raised⟩
      · exact ⟨t, e, .inl refines⟩
      · exact ⟨s.takeFatal k, e, .inr ⟨notHalted, k, rfl, raised⟩⟩
    · simp [fault] at noFault

theorem State.Follows.run (h : s.Follows a) {n : ℕ} (e : Sys2Proof.core.run n s = .next t) : t.Follows a := by
  induction n generalizing s with
  | zero => cases e; exact h
  | succ n ih =>
    obtain ⟨u, e', follows⟩ := h.step
    rw [core_run_succ e'] at e
    exact ih follows e

/-- Where the states of the sequential machine have a bound on what they have retired, the core stops. -/
theorem State.Follows.stops {bound : ℕ} (retired : ∀ n, (ArchState.step^[n] a).retired ≤ bound) (h : s.Follows a) :
    ∃ (n : ℕ) (t : State), Sys2Proof.core.run n s = .next t ∧ t.Follows a ∧ (t.halted || t.fault.isSome) = true := by
  induction left : 5 * bound + 5 - (5 * s.retired + s.headway) using Nat.strong_induction_on generalizing s with
  | _ left ih =>
    cases running : s.halted || s.fault.isSome with
    | true => exact ⟨0, s, rfl, h, running⟩
    | false =>
      obtain ⟨notHalted, noFault⟩ := Bool.or_eq_false_iff.1 running
      rcases h with ⟨n, refines⟩ | ⟨-, k, fault, -⟩
      · rcases refines.step notHalted with ⟨t, e, refines', progress⟩ | ⟨k, e, raised⟩
        · have reached := refines.tracks.retired ▸ retired n
          have far := s.headway_le
          obtain ⟨m, u, run, done⟩ := ih _ (by omega) (.inl refines') rfl
          exact ⟨m + 1, u, (core_run_succ e m).trans run, done⟩
        · exact ⟨1, s.takeFatal k, core_run_succ e 0, .inr ⟨notHalted, k, rfl, raised⟩, by simp⟩
      · simp [fault] at noFault

end

namespace ArchState

variable {a : ArchState} {k : Fault} {n : ℕ}

theorem Regular.iterate (h : a.Regular 0) (n : ℕ) : (ArchState.step^[n] a).Regular n := by
  induction n with
  | zero => exact h
  | succ n ih => rw [Function.iterate_succ_apply']; exact ih.step

/-- What a run of the sequential machine has retired by the time it stops bounds what it retires. -/
theorem Regular.retired_le_of_stopped (h : a.Regular 0) (stopped : (ArchState.step^[n] a).stopped = true) (m : ℕ) :
    (ArchState.step^[m] a).retired ≤ n := by
  rcases Nat.le_total m n with early | late
  · exact (h.iterate m).retired.trans early
  · obtain ⟨l, rfl⟩ := Nat.exists_eq_add_of_le' late
    rw [Function.iterate_add_apply, Function.iterate_fixed (step_of_stopped stopped)]
    exact (h.iterate n).retired

theorem stopped_of_fault (h : a.fault = some k) : a.stopped = true := by simp [stopped, h]

theorem stopped_of_halted (h : a.halted = true) : a.stopped = true := by simp [stopped, h]

/-- A run of the sequential machine in which something is raised stops with a fatal condition. -/
theorem Raises.exists_fault (h : a.Raises k) : ∃ n j, (ArchState.step^[n] a).fault = some j := by
  obtain ⟨n, fault | ⟨pc, addr, fault, -⟩⟩ := h
  · exact ⟨n, k, fault⟩
  · exact ⟨n, _, fault⟩

/-- A run of the sequential machine that halts raises nothing. -/
theorem Regular.not_raises_of_halted (h : a.Regular 0) (halted : (ArchState.step^[n] a).halted = true) : ¬ a.Raises k := by
  intro raises
  obtain ⟨m, j, fault⟩ := raises.exists_fault
  have same := iterate_eq_of_stopped (stopped_of_fault fault) (stopped_of_halted halted)
  rw [same, (h.iterate n).exclusive halted] at fault
  cases fault

end ArchState

/-- R131: a halted core is empty, and `pc` is behind the `HALT`. -/
theorem State.Refines.halted_empty {s : State} {a : ArchState} (h : s.Refines a) (halted : s.halted = true) :
    s.pc = a.after ∧ (∀ r, s.isBusy r = false) ∧ s.fl.valid = false ∧ s.dl.valid = false ∧ s.xl.valid = false ∧
      s.ml.valid = false ∧ s.wl.valid = false := by
  obtain ⟨wl, ml, xl, dl, fl⟩ := h.halt.afterHalt halted
  have here : a.atDecode s = a := by
    rw [ArchState.atDecode, ArchState.atExecute, ArchState.atMemory, ArchState.past_of_bubble wl,
      ArchState.past_of_bubble ml, ArchState.past_of_bubble xl]
  have front := h.tracks.front (by simp [xl]) (by simp [State.flushTarget?, xl])
  rw [here, ArchState.nextAddress_of_stopped (ArchState.stopped_of_halted (h.tracks.halted ▸ halted)),
    State.decodeAddress, dl] at front
  refine ⟨front, fun r => Bool.eq_false_iff.2 fun busy => ?_, fl, dl, xl, ml, wl⟩
  obtain ⟨l, hl, -⟩ := (h.inv.busyExact r).1 busy
  simp [State.inFlight, xl, ml, wl] at hl

/-- Settles O48: the core stops, since every cycle makes progress and the sequential machine retires `n` instructions; it has
not raised anything, since the sequential machine has not; so it is at the halted state of the sequential machine. -/
theorem pipelineEndsInTheSequentialState : Obligations.PipelineEndsInTheSequentialState := by
  rintro code params init s n a h rfl halted retired
  have regular := State.archReset_regular h
  have stopped := ArchState.stopped_of_halted halted
  obtain ⟨k, t, run, ⟨m, refines⟩ | ⟨-, j, -, raises⟩, stops⟩ :=
    State.Follows.stops (regular.retired_le_of_stopped stopped) (.inl ⟨0, State.refines_archReset h⟩)
  · have noFault := refines.tracks.noFault.1
    have tHalted : t.halted = true := by simpa [noFault] using stops
    have same := ArchState.iterate_eq_of_stopped
      (ArchState.stopped_of_halted (refines.tracks.halted.symm.trans tHalted)) stopped
    rw [same] at refines
    obtain ⟨pc, busy, fl, dl, xl, ml, wl⟩ := refines.halted_empty tHalted
    have tracks := refines.tracks
    refine ⟨k, t, run, tHalted, noFault, tracks.retired.trans retired, tracks.x, ?_, ?_, pc, busy, fl, dl, xl, ml, wl⟩
    · rw [tracks.cc, ArchState.atExecute, ArchState.atMemory, ArchState.past_of_bubble wl, ArchState.past_of_bubble ml]
    · rw [tracks.dmem, ArchState.atMemory, ArchState.past_of_bubble wl]
  · exact absurd raises (regular.not_raises_of_halted halted)

/-- Settles O49: the core stops, and not halted, since the sequential machine is not; so it has raised the condition of the
sequential machine, or the one of the instruction after its load or store. -/
theorem pipelineFaultsWithTheSequentialMachine : Obligations.PipelineFaultsWithTheSequentialMachine := by
  rintro code params init s n a k h rfl fault
  have regular := State.archReset_regular h
  have stopped := ArchState.stopped_of_fault fault
  obtain ⟨m, t, run, ⟨l, refines⟩ | ⟨notHalted, j, tFault, l, raises⟩, stops⟩ :=
    State.Follows.stops (regular.retired_le_of_stopped stopped) (.inl ⟨0, State.refines_archReset h⟩)
  · have tHalted : t.halted = true := by simpa [refines.tracks.noFault.1] using stops
    have same := ArchState.iterate_eq_of_stopped
      (ArchState.stopped_of_halted (refines.tracks.halted.symm.trans tHalted)) stopped
    rw [same] at refines
    rw [refines.tracks.noFault.2] at fault
    cases fault
  · refine ⟨m, t, run, notHalted, ?_⟩
    rcases raises with same | ⟨pc, addr, raised, fetched⟩
    · rw [ArchState.iterate_eq_of_stopped (ArchState.stopped_of_fault same) stopped, fault] at same
      exact .inl (tFault.trans same.symm)
    · have same := ArchState.iterate_eq_of_stopped (ArchState.stopped_of_fault raised) stopped
      rw [same] at raised fetched
      have launch : s.archReset.params = params := by rw [State.eq_resetWith_of_initialize h]; rfl
      rw [launch] at fetched
      exact .inr ⟨pc, addr, _, j, Option.some_inj.1 (fault.symm.trans raised), rfl, tFault, fetched,
        ArchState.fetched_error_cases fetched⟩

/-- Settles O50: a core that follows a run of the sequential machine is halted or faulted only if that run is. -/
theorem pipelineRunsForEverWithTheSequentialMachine : Obligations.PipelineRunsForEverWithTheSequentialMachine := by
  intro code params init s h endless m t run
  have follows : s.Follows s.archReset := .inl ⟨0, State.refines_archReset h⟩
  rcases follows.run run with ⟨n, refines⟩ | ⟨-, k, -, raises⟩
  · exact ⟨refines.tracks.halted.trans (endless n).1, refines.tracks.noFault.1⟩
  · obtain ⟨n, j, fault⟩ := raises.exists_fault
    rw [(endless n).2] at fault
    cases fault

end Sys2Proof.Machine

/-! SUPPORT. Proofs for spec/42_alu.md: the instructions with a result (R160 to R168) and the compares (R169, R170) through
Decode, Execute, Memory and Writeback. -/

namespace Sys2Proof.Machine

/-! ### Decode (R117 to R122) -/

/-- R122: with its fields in range, its sources resolved and its destinations free, an instruction is issued. -/
theorem decodeOperands_of_ready {o : Operands} {s : State} {a b : Word}
    (inRange : ∀ r ∈ o.fields, s.params.hasRegister r = true) (first : s.operand o.src1 s.dl.rs1Value = some a)
    (second : s.operand o.src2 s.dl.rs2Value = some b) (free : ∀ d ∈ o.dests, s.isBusy d = false) :
    decodeOperands o s = .next (s.issue a b o.dests) := by
  have noBadField : o.badField? s.params = none := List.find?_eq_none.2 fun r hr => by simp [inRange r hr]
  have noneBusy : o.dests.any s.isBusy = false := by simpa using free
  simp [decodeOperands, noBadField, first, second, noneBusy]

/-- R122: what the issue leaves. -/
theorem issued_issue (s : State) (a b : Word) {ds : List Int} (inRange : ∀ r ∈ ds, s.params.hasRegister r = true) :
    Issued a b ds s ((s.at .decode).issue a b ds) where
  xl := by simp
  dl := by simp
  busy q := isBusy_issue (s.at .decode) a b q fun r hr => (regIndex?_isSome s.params r).trans (inRange r hr)
  flags := by simp

/-! ### Writeback (R130) -/

/-- R122, R130: registers and busy bits once the destinations, marked busy by Decode, are committed. -/
theorem frame_commitAll_retire {s t u : State} {a b : Word} {ds : List Int} {ws : List BusPair}
    (issued : Issued a b ds s t) (dests : ws.map BusPair.reg = ds) (x : u.x = s.x) (busy : u.busy = t.busy)
    (params : u.params = t.params) (launch : t.params = s.params) (cycles : u.cycles = s.cycles)
    (fault : u.fault = s.fault) (code : u.code = s.code) : Frame ds s (u.commitAll ws).retire where
  registers q hq := by
    rw [readReg?_congr (State.retire_x _), readReg?_commitAll_other _ _ _ (dests ▸ hq),
      readReg?_congr x q (params.trans launch)]
  busyBits q hq := by
    rw [isBusy_congr (State.retire_busy _), isBusy_commitAll, dests, if_neg hq, isBusy_congr busy q params, issued.busy]
    simp [hq]
  cycles := by simpa using cycles
  fault := by simpa using fault
  code := by simpa using code
  params := by simpa using params.trans launch

/-! ### Instructions with a result (R160 to R168) -/

/-- R160 to R168: the lines of an instruction that reads the sources `src1` and `src2` and has a result for `rd`: `result`
of the operand values, with the flags written when `on`. -/
structure DeliversResult (i : Instr) (src1 src2 : Option Int) (rd : Int)
    (result : Config.Params → Word → Word → Word) (on : Config.Params → Bool) : Prop where
  decode : ∀ s : State, exec i (s.at .decode) = decodeOperands ⟨src1, src2, [rd]⟩ (s.at .decode)
  execute : ∀ s : State, exec i (s.at .execute) =
    executeResult rd (result s.params s.xl.rs1Value s.xl.rs2Value) (on s.params) (s.at .execute)
  memory : ∀ s : State, exec i (s.at .memory) = memoryPass [⟨rd, s.ml.result⟩] (s.at .memory)
  writeback : ∀ s : State, exec i (s.at .writeback) = writebackCommit [⟨rd, s.wl.result⟩] (s.at .writeback)

/-- R125, R129, R130: the result goes from Execute over both buses into `rd`. -/
theorem resultDelivered_of_stages {s t2 t3 t4 : State} {a b r : Word} {rd : Int} {on : Bool}
    (named : s.params.hasRegister rd = true)
    (execute : executeResult rd r on (((s.at .decode).issue a b [rd]).at .execute) = .next t2)
    (memory : memoryPass [⟨rd, t2.ml.result⟩] (t2.at .memory) = .next t3)
    (writeback : writebackCommit [⟨rd, t3.wl.result⟩] (t3.at .writeback) = .next t4) :
    ResultDelivered rd r on s ((s.at .decode).issue a b [rd]) t2 t3 t4 := by
  have issued := issued_issue s a b (ds := [rd]) (by simpa using named)
  cases execute
  cases memory
  cases writeback
  constructor
  case register =>
    rw [readReg?_congr (State.retire_x _), State.commitAll, State.commitAll, readReg?_commit, if_pos]
    · simp
    · exact ⟨rfl, by simpa [regIndex?_isSome] using named⟩
  case free => rw [isBusy_congr (State.retire_busy _), isBusy_commitAll, if_pos (by simp)]
  case frame => apply frame_commitAll_retire issued <;> simp
  case quiet => constructor <;> simp
  case executeFlags => simp [State.flagsWhen_cc]
  all_goals simp

/-- R160 to R168: an instruction with a result completes. -/
theorem DeliversResult.completes {i : Instr} {s : State} {src1 src2 : Option Int} {rd : Int}
    {result : Config.Params → Word → Word → Word} {on : Config.Params → Bool} {a b : Word}
    (h : DeliversResult i src1 src2 rd result on)
    (inRange : ∀ r ∈ Operands.fields ⟨src1, src2, [rd]⟩, s.params.hasRegister r = true)
    (first : s.operand src1 s.dl.rs1Value = some a) (second : s.operand src2 s.dl.rs2Value = some b)
    (free : s.isBusy rd = false) :
    ∃ t1 t2 t3 t4, exec i (s.at .decode) = .next t1 ∧ exec i (t1.at .execute) = .next t2 ∧
      exec i (t2.at .memory) = .next t3 ∧ exec i (t3.at .writeback) = .next t4 ∧
      Issued a b [rd] s t1 ∧ ResultDelivered rd (result s.params a b) (on s.params) s t1 t2 t3 t4 := by
  have named : s.params.hasRegister rd = true := inRange rd (by simp [Operands.fields])
  have decoded : exec i (s.at .decode) = .next ((s.at .decode).issue a b [rd]) :=
    (h.decode s).trans (decodeOperands_of_ready inRange first second (List.forall_mem_singleton.2 free))
  have executed := h.execute ((s.at .decode).issue a b [rd])
  simp only [State.issue_xl, State.issue_params, State.at_params] at executed
  exact ⟨_, _, _, _, decoded, executed, h.memory _, h.writeback _, issued_issue s a b (by simpa using named),
    resultDelivered_of_stages named rfl rfl rfl⟩

section
variable (rd rs1 rs2 : Int) (imm : Word)

theorem add_deliversResult : DeliversResult (.add rd rs1 rs2) (some rs1) (some rs2) rd
    (fun p a b => p.s32 (a.toInt + b.toInt)) fun _ => true :=
  ⟨fun _ => rfl, fun _ => rfl, fun _ => rfl, fun _ => rfl⟩

theorem sub_deliversResult : DeliversResult (.sub rd rs1 rs2) (some rs1) (some rs2) rd
    (fun p a b => p.s32 (a.toInt - b.toInt)) fun _ => true :=
  ⟨fun _ => rfl, fun _ => rfl, fun _ => rfl, fun _ => rfl⟩

theorem mul_deliversResult : DeliversResult (.mul rd rs1 rs2) (some rs1) (some rs2) rd
    (fun p a b => p.s32 (a.toInt * b.toInt)) fun _ => true :=
  ⟨fun _ => rfl, fun _ => rfl, fun _ => rfl, fun _ => rfl⟩

theorem and_deliversResult : DeliversResult (.and rd rs1 rs2) (some rs1) (some rs2) rd
    (fun _ a b => a &&& b) Config.Params.flagsOnLogical :=
  ⟨fun _ => rfl, fun _ => rfl, fun _ => rfl, fun _ => rfl⟩

theorem or_deliversResult : DeliversResult (.or rd rs1 rs2) (some rs1) (some rs2) rd
    (fun _ a b => a ||| b) Config.Params.flagsOnLogical :=
  ⟨fun _ => rfl, fun _ => rfl, fun _ => rfl, fun _ => rfl⟩

theorem xor_deliversResult : DeliversResult (.xor rd rs1 rs2) (some rs1) (some rs2) rd
    (fun _ a b => a ^^^ b) Config.Params.flagsOnLogical :=
  ⟨fun _ => rfl, fun _ => rfl, fun _ => rfl, fun _ => rfl⟩

theorem addl_deliversResult : DeliversResult (.addl rd rs1 imm) (some rs1) none rd
    (fun p a _ => p.s32 (a.toInt + imm.toInt)) fun _ => true :=
  ⟨fun _ => rfl, fun _ => rfl, fun _ => rfl, fun _ => rfl⟩

theorem subl_deliversResult : DeliversResult (.subl rd rs1 imm) (some rs1) none rd
    (fun p a _ => p.s32 (a.toInt - imm.toInt)) fun _ => true :=
  ⟨fun _ => rfl, fun _ => rfl, fun _ => rfl, fun _ => rfl⟩

theorem movc_deliversResult : DeliversResult (.movc rd imm) none none rd (fun _ _ _ => imm) Config.Params.flagsOnMovc :=
  ⟨fun _ => rfl, fun _ => rfl, fun _ => rfl, fun _ => rfl⟩

end

/-- Settles O24: each of the six has a result of its two source values, so it completes. -/
theorem threeRegisterInstructionsComplete : Obligations.ThreeRegisterInstructionsComplete := by
  intro s rd rs1 rs2 a b hrd hrs1 hrs2 first second free
  have inRange : ∀ r ∈ Operands.fields ⟨some rs1, some rs2, [rd]⟩, s.params.hasRegister r = true := by
    simp [Operands.fields, hrd, hrs1, hrs2]
  simp only [List.forall_mem_cons, List.not_mem_nil, false_implies, implies_true, and_true]
  exact ⟨(add_deliversResult rd rs1 rs2).completes inRange first second free,
    (sub_deliversResult rd rs1 rs2).completes inRange first second free,
    (mul_deliversResult rd rs1 rs2).completes inRange first second free,
    (and_deliversResult rd rs1 rs2).completes inRange first second free,
    (or_deliversResult rd rs1 rs2).completes inRange first second free,
    (xor_deliversResult rd rs1 rs2).completes inRange first second free⟩

/-- Settles O25: as O24, with one source; `DL.rs2_value` stays as it was. -/
theorem registerLiteralInstructionsComplete : Obligations.RegisterLiteralInstructionsComplete := by
  intro s rd rs1 imm a hrd hrs1 first free
  have inRange : ∀ r ∈ Operands.fields ⟨some rs1, none, [rd]⟩, s.params.hasRegister r = true := by
    simp [Operands.fields, hrd, hrs1]
  simp only [List.forall_mem_cons, List.not_mem_nil, false_implies, implies_true, and_true]
  exact ⟨(addl_deliversResult rd rs1 imm).completes inRange first rfl free,
    (subl_deliversResult rd rs1 imm).completes inRange first rfl free⟩

/-- Settles O26: as O24, without a source. -/
theorem moveConstantCompletes : Obligations.MoveConstantCompletes := by
  intro s rd imm hrd free
  have inRange : ∀ r ∈ Operands.fields ⟨none, none, [rd]⟩, s.params.hasRegister r = true := by
    simp [Operands.fields, hrd]
  exact (movc_deliversResult rd imm).completes inRange rfl rfl free

/-! ### Compares (R169, R170) -/

/-- R169, R170: the lines of a compare of `rs1` with `second` of the value in `rs2_value`, for which `src2` is the source. -/
structure Compares (i : Instr) (rs1 : Int) (src2 : Option Int) (second : Word → Word) : Prop where
  decode : ∀ s : State, exec i (s.at .decode) = decodeOperands ⟨some rs1, src2, []⟩ (s.at .decode)
  execute : ∀ s : State,
    exec i (s.at .execute) = executeCompare s.xl.rs1Value (second s.xl.rs2Value) (s.at .execute)
  memory : ∀ s : State, exec i (s.at .memory) = memoryPass [] (s.at .memory)
  writeback : ∀ s : State, exec i (s.at .writeback) = writebackCommit [] (s.at .writeback)

theorem cmp_compares (rs1 rs2 : Int) : Compares (.cmp rs1 rs2) rs1 (some rs2) id :=
  ⟨fun _ => rfl, fun _ => rfl, fun _ => rfl, fun _ => rfl⟩

theorem cml_compares (rs1 : Int) (imm : Word) : Compares (.cml rs1 imm) rs1 none fun _ => imm :=
  ⟨fun _ => rfl, fun _ => rfl, fun _ => rfl, fun _ => rfl⟩

/-- R169: without `CMP_EXACT`, the flags of the wrapped difference. -/
theorem flagsCompare_wrapped {p : Config.Params} (h : p.cmpExact = false) (a b : Word) :
    flagsCompare p a b = flagsOf (p.s32 (a.toInt - b.toInt)) := by
  simp [flagsCompare, h]

/-- R169: with it, those of the signed comparison. -/
theorem flagsCompare_exact {p : Config.Params} (h : p.cmpExact = true) (a b : Word) :
    flagsCompare p a b = flagsExact a b := by
  simp [flagsCompare, h]

/-- R169, R170: a compare leaves its flags and nothing else. -/
theorem compared_of_stages {s t2 t3 t4 : State} {a b v : Word}
    (execute : executeCompare a v (((s.at .decode).issue a b []).at .execute) = .next t2)
    (memory : memoryPass [] (t2.at .memory) = .next t3)
    (writeback : writebackCommit [] (t3.at .writeback) = .next t4) :
    Compared a v s ((s.at .decode).issue a b []) t2 t3 t4 := by
  have issued := issued_issue s a b (ds := []) nofun
  cases execute
  cases memory
  cases writeback
  constructor
  case wrapped => intro h; simp [flagsCompare_wrapped h]
  case exact => intro h; simp [flagsCompare_exact h, flagsExact]
  case frame => apply frame_commitAll_retire issued <;> simp
  case quiet => constructor <;> simp
  all_goals simp

theorem Compares.completes {i : Instr} {s : State} {rs1 : Int} {src2 : Option Int} {second : Word → Word} {a b : Word}
    (h : Compares i rs1 src2 second)
    (inRange : ∀ r ∈ Operands.fields ⟨some rs1, src2, []⟩, s.params.hasRegister r = true)
    (first : s.resolve rs1 = some a) (operand : s.operand src2 s.dl.rs2Value = some b) :
    ∃ t1 t2 t3 t4, exec i (s.at .decode) = .next t1 ∧ exec i (t1.at .execute) = .next t2 ∧
      exec i (t2.at .memory) = .next t3 ∧ exec i (t3.at .writeback) = .next t4 ∧
      Issued a b [] s t1 ∧ Compared a (second b) s t1 t2 t3 t4 := by
  have decoded : exec i (s.at .decode) = .next ((s.at .decode).issue a b []) :=
    (h.decode s).trans (decodeOperands_of_ready inRange first operand nofun)
  have executed := h.execute ((s.at .decode).issue a b [])
  simp only [State.issue_xl] at executed
  exact ⟨_, _, _, _, decoded, executed, h.memory _, h.writeback _, issued_issue s a b nofun,
    compared_of_stages rfl rfl rfl⟩

/-- Settles O27: `CMP` compares with its second source, `CML` with its immediate. -/
theorem compareInstructionsComplete : Obligations.CompareInstructionsComplete := by
  intro s rs1 a hrs1 first
  refine ⟨fun rs2 b hrs2 second => ?_, fun imm => ?_⟩
  · exact (cmp_compares rs1 rs2).completes (by simp [Operands.fields, hrs1, hrs2]) first second
  · exact (cml_compares rs1 imm).completes (by simp [Operands.fields, hrs1]) first rfl

end Sys2Proof.Machine

/-! SUPPORT. Proofs for spec/43_load_store.md: the loads (R180, R181) and the stores (R182, R183) with their address in data
memory (R184), through Decode, Execute, Memory and Writeback. The auto-increment forms differ from the plain ones by one
more register write; so a load or a store is taken with the list of base registers it increments, `[]` or one register. -/

namespace Sys2Proof.Machine

/-! ### The order of destinations -/

/-- R122: in what order the destinations are listed is no matter. -/
theorem Issued.perm {a b : Word} {ds ds' : List Int} {s t : State} (h : Issued a b ds s t) (order : ds.Perm ds') :
    Issued a b ds' s t :=
  { h with busy := fun q => by simp [h.busy, order.mem_iff] }

theorem Frame.perm {ds ds' : List Int} {s t : State} (h : Frame ds s t) (order : ds.Perm ds') : Frame ds' s t :=
  { h with
    registers := fun q hq => h.registers q (mt order.mem_iff.1 hq)
    busyBits := fun q hq => h.busyBits q (mt order.mem_iff.1 hq) }

/-! ### Execute and Memory (R63, R125, R128) -/

/-- R63, R125: the address Execute leaves in `ML` is in data memory exactly where it is in the state at Decode. -/
theorem dataIndex?_of_execute {s t : State} {a b base imm : Word} {ds : List Int} {ps : List BusPair}
    (execute : executeAddress base imm ps (((s.at .decode).issue a b ds).at .execute) = .next t) :
    (t.at .memory).dataIndex? (t.at .memory).ml.memAddr = s.dataIndex? (effectiveAddress s.params base imm) := by
  cases execute
  simp [State.dataIndex?]

theorem dataIndex?_of_inside {s : State} {ea : Word} (low : 0 ≤ ea.toInt) (high : ea.toInt < s.params.dmemWords) :
    s.dataIndex? ea = some ea.toInt.toNat :=
  if_pos ⟨low, high⟩

theorem memoryLoad_of_inside {s : State} {k : Nat} (ps : Word → List BusPair) (inside : s.dataIndex? s.ml.memAddr = some k) :
    memoryLoad ps s = .next ((s.setLoaded (s.dmem.read k)).driveMembus (ps (s.dmem.read k))).advanceMemory := by
  simp [memoryLoad, State.memRead?, inside]

theorem memoryStore_of_inside {s : State} {k : Nat} (ps : List BusPair) (inside : s.dataIndex? s.ml.memAddr = some k) :
    memoryStore ps s =
      .next (({ s with dmem := s.dmem.write k s.ml.rs1Value } : State).driveMembus ps).advanceMemory := by
  simp [memoryStore, State.memWrite?, inside]

/-! ### Writeback (R130) -/

/-- R130: a register that is committed with one value only has that value. -/
theorem readReg?_commitAll_of_mem {s : State} {ws : List BusPair} {r : Int} {v : Word}
    (named : s.params.hasRegister r = true) (written : ⟨r, v⟩ ∈ ws) (only : ∀ p ∈ ws, p.reg = r → p.value = v) :
    (s.commitAll ws).readReg? r = some v := by
  obtain ⟨j, place⟩ := Option.isSome_iff_exists.1 ((regIndex?_isSome s.params r).trans named)
  have value : (s.commitAll ws).x.get j = v :=
    commitAll_x_get (fun p hp hj => only p hp (regIndex?_inj hj place)) (.inl ⟨_, written, place⟩)
  simp [State.readReg?, place, value]

/-- R181: Writeback of a load: the base registers, then `rd`. -/
theorem readReg?_commitAll_load {s : State} {rd : Int} {incremented : List Int} (v p : Word)
    (named : ∀ r ∈ rd :: incremented, s.params.hasRegister r = true) (differ : rd ∉ incremented) :
    (s.commitAll ((incremented.map fun r => ⟨r, p⟩) ++ [⟨rd, v⟩])).readReg? rd = some v ∧
      ∀ r ∈ incremented, (s.commitAll ((incremented.map fun r => ⟨r, p⟩) ++ [⟨rd, v⟩])).readReg? r = some p := by
  obtain ⟨rdNamed, basesNamed⟩ := List.forall_mem_cons.1 named
  constructor
  · refine readReg?_commitAll_of_mem rdNamed (by simp)
      (List.forall_mem_append.2 ⟨List.forall_mem_map.2 fun r hr (e : r = rd) => absurd (e ▸ hr) differ, by simp⟩)
  · intro r hr
    refine readReg?_commitAll_of_mem (basesNamed r hr) (by simp [hr]) (List.forall_mem_append.2
      ⟨List.forall_mem_map.2 fun _ _ _ => rfl, List.forall_mem_singleton.2 fun e : rd = r => absurd (e ▸ hr) differ⟩)

/-! ### Loads (R180, R181) -/

/-- R180, R181: the lines of a load into `rd` from base `rs1`, which increments the base registers `incremented`. -/
structure Loads (i : Instr) (rd rs1 : Int) (imm : Word) (incremented : List Int) : Prop where
  decode : ∀ s : State, exec i (s.at .decode) = decodeOperands ⟨some rs1, none, rd :: incremented⟩ (s.at .decode)
  execute : ∀ s : State, exec i (s.at .execute) =
    executeAddress s.xl.rs1Value imm (incremented.map fun r => ⟨r, s.pointer s.xl.rs1Value⟩) (s.at .execute)
  memory : ∀ s : State, exec i (s.at .memory) =
    memoryLoad (fun v => ⟨rd, v⟩ :: incremented.map fun r => ⟨r, s.pointer s.ml.rs1Value⟩) (s.at .memory)
  writeback : ∀ s : State, exec i (s.at .writeback) =
    writebackCommit ((incremented.map fun r => ⟨r, s.pointer s.wl.rs1Value⟩) ++ [⟨rd, s.wl.result⟩]) (s.at .writeback)

theorem load_loads (rd rs1 : Int) (imm : Word) : Loads (.load rd rs1 imm) rd rs1 imm [] :=
  ⟨fun _ => rfl, fun _ => rfl, fun _ => rfl, fun _ => rfl⟩

theorem loadp_loads {rd rs1 : Int} (imm : Word) (differ : rd ≠ rs1) : Loads (.loadp rd rs1 imm) rd rs1 imm [rs1] :=
  ⟨fun _ => if_neg differ, fun _ => rfl, fun _ => rfl, fun _ => rfl⟩

/-- R180, R181: the load of the word `v` at `ea` into `rd` has gone through Execute (`t2`), Memory (`t3`) and Writeback
(`t4`), with `p` in the incremented base registers. -/
structure Loaded (rd : Int) (incremented : List Int) (ea v p : Word) (s t2 t3 t4 : State) : Prop where
  address : t2.ml.memAddr = ea
  executeBus : t2.exbus = s.exbus ++ incremented.map fun r => ⟨r, p⟩
  memoryBus : t3.membus = s.membus ++ ⟨rd, v⟩ :: incremented.map fun r => ⟨r, p⟩
  register : t4.readReg? rd = some v
  base : ∀ r ∈ incremented, t4.readReg? r = some p
  free : ∀ r ∈ rd :: incremented, t4.isBusy r = false
  retired : t4.retired = s.retired + 1
  flags : t4.cc = s.cc
  frame : Frame (rd :: incremented) s t4
  quiet : QuietBesideRegisters s t4

/-- R125, R128, R129, R130: what the lines of a load leave, from its issue with base value `a`. -/
theorem loaded_of_stages {s t2 t3 t4 : State} {a b imm : Word} {rd : Int} {incremented : List Int} {k : Nat}
    (named : ∀ r ∈ rd :: incremented, s.params.hasRegister r = true) (differ : rd ∉ incremented)
    (execute : executeAddress a imm (incremented.map fun r => ⟨r, s.pointer a⟩)
      (((s.at .decode).issue a b (rd :: incremented)).at .execute) = .next t2)
    (memory : (((t2.at .memory).setLoaded (t2.dmem.read k)).driveMembus
      (⟨rd, t2.dmem.read k⟩ :: incremented.map fun r => ⟨r, t2.pointer t2.ml.rs1Value⟩)).advanceMemory = t3)
    (writeback : writebackCommit ((incremented.map fun r => ⟨r, t3.pointer t3.wl.rs1Value⟩) ++ [⟨rd, t3.wl.result⟩])
      (t3.at .writeback) = .next t4) :
    Loaded rd incremented (effectiveAddress s.params a imm) (s.dmem.read k) (s.pointer a) s t2 t3 t4 := by
  have issued := (issued_issue s a b named).perm (List.perm_append_singleton rd incremented).symm
  cases execute
  subst memory
  cases writeback
  constructor
  case register =>
    rw [readReg?_congr (State.retire_x _), (readReg?_commitAll_load _ _ (by simpa using named) differ).1]
    simp
  case base =>
    intro r hr
    rw [readReg?_congr (State.retire_x _), (readReg?_commitAll_load _ _ (by simpa using named) differ).2 r hr]
    simp [State.pointer]
  case free =>
    intro r hr
    rw [isBusy_congr (State.retire_busy _), isBusy_commitAll, if_pos]
    simpa [Function.comp_def, or_comm] using hr
  case frame =>
    refine Frame.perm ?_ (List.perm_append_singleton rd incremented)
    apply frame_commitAll_retire issued <;> simp [Function.comp_def]
  case quiet => constructor <;> simp
  all_goals simp [State.pointer]

/-- R180, R181, R184: a load with its address in data memory completes. -/
theorem Loads.completes {i : Instr} {s : State} {rd rs1 : Int} {imm a : Word} {incremented : List Int} {k : Nat}
    (h : Loads i rd rs1 imm incremented) (named : ∀ r ∈ rd :: incremented, s.params.hasRegister r = true)
    (baseNamed : s.params.hasRegister rs1 = true) (differ : rd ∉ incremented) (first : s.resolve rs1 = some a)
    (free : ∀ r ∈ rd :: incremented, s.isBusy r = false)
    (inside : s.dataIndex? (effectiveAddress s.params a imm) = some k) :
    ∃ t1 t2 t3 t4, exec i (s.at .decode) = .next t1 ∧ exec i (t1.at .execute) = .next t2 ∧
      exec i (t2.at .memory) = .next t3 ∧ exec i (t3.at .writeback) = .next t4 ∧
      Issued a s.dl.rs2Value (rd :: incremented) s t1 ∧
      Loaded rd incremented (effectiveAddress s.params a imm) (s.dmem.read k) (s.pointer a) s t2 t3 t4 := by
  have inRange : ∀ r ∈ Operands.fields ⟨some rs1, none, rd :: incremented⟩, s.params.hasRegister r = true := by
    simpa [Operands.fields, baseNamed] using named
  have decoded : exec i (s.at .decode) = .next ((s.at .decode).issue a s.dl.rs2Value (rd :: incremented)) :=
    (h.decode s).trans (decodeOperands_of_ready inRange first rfl free)
  obtain ⟨t2, addressed⟩ : ∃ t2, executeAddress a imm (incremented.map fun r => ⟨r, s.pointer a⟩)
      (((s.at .decode).issue a s.dl.rs2Value (rd :: incremented)).at .execute) = .next t2 := ⟨_, rfl⟩
  have executed : exec i (((s.at .decode).issue a s.dl.rs2Value (rd :: incremented)).at .execute) = .next t2 := by
    simpa [h.execute, State.pointer] using addressed
  have loaded := (h.memory t2).trans (memoryLoad_of_inside _ ((dataIndex?_of_execute addressed).trans inside))
  exact ⟨_, t2, _, _, decoded, executed, loaded, h.writeback _, issued_issue s a _ named,
    loaded_of_stages named differ addressed rfl rfl⟩

/-- Settles O28: `LOAD` increments no base register, `LOADP` its own, which is not `rd`. -/
theorem loadInstructionsComplete : Obligations.LoadInstructionsComplete := by
  rintro s rd rs1 imm a _ _ rdNamed baseNamed first free rfl low high rfl
  have inside := dataIndex?_of_inside low high
  refine ⟨?_, fun differ baseFree => ?_⟩
  · obtain ⟨t1, t2, t3, t4, decoded, executed, loaded, committed, issued, done⟩ :=
      (load_loads rd rs1 imm).completes (by simpa using rdNamed) baseNamed (by simp) first (by simpa using free) inside
    exact ⟨t1, t2, t3, t4, decoded, executed, loaded, committed, issued, done.address, by simpa using done.executeBus,
      done.memoryBus, done.register, done.free rd (by simp), done.retired, done.flags, done.frame, done.quiet⟩
  · obtain ⟨t1, t2, t3, t4, decoded, executed, loaded, committed, issued, done⟩ :=
      (loadp_loads imm differ).completes (by simp [rdNamed, baseNamed]) baseNamed (by simpa using differ) first
        (by simp [free, baseFree]) inside
    exact ⟨t1, t2, t3, t4, decoded, executed, loaded, committed, issued, done.address, done.executeBus, done.memoryBus,
      done.register, done.base rs1 (by simp), done.free rd (by simp), done.free rs1 (by simp), done.retired, done.flags,
      done.frame, done.quiet⟩

/-! ### Stores (R182, R183) -/

/-- R182, R183: the lines of a store of `rs1` with base `rs2`, which increments the base registers `incremented`. -/
structure Stores (i : Instr) (rs1 rs2 : Int) (imm : Word) (incremented : List Int) : Prop where
  decode : ∀ s : State, exec i (s.at .decode) = decodeOperands ⟨some rs1, some rs2, incremented⟩ (s.at .decode)
  execute : ∀ s : State, exec i (s.at .execute) =
    executeAddress s.xl.rs2Value imm (incremented.map fun r => ⟨r, s.pointer s.xl.rs2Value⟩) (s.at .execute)
  memory : ∀ s : State, exec i (s.at .memory) =
    memoryStore (incremented.map fun r => ⟨r, s.pointer s.ml.rs2Value⟩) (s.at .memory)
  writeback : ∀ s : State, exec i (s.at .writeback) =
    writebackCommit (incremented.map fun r => ⟨r, s.pointer s.wl.rs2Value⟩) (s.at .writeback)

theorem store_stores (rs1 rs2 : Int) (imm : Word) : Stores (.store rs1 rs2 imm) rs1 rs2 imm [] :=
  ⟨fun _ => rfl, fun _ => rfl, fun _ => rfl, fun _ => rfl⟩

theorem storep_stores (rs1 rs2 : Int) (imm : Word) : Stores (.storep rs1 rs2 imm) rs1 rs2 imm [rs2] :=
  ⟨fun _ => rfl, fun _ => rfl, fun _ => rfl, fun _ => rfl⟩

/-- R182, R183: the store of `v` in word `k` of data memory, at address `ea`, has gone through Execute (`t2`), Memory (`t3`)
and Writeback (`t4`), with `p` in the incremented base registers. -/
structure Stored (incremented : List Int) (ea v p : Word) (k : Nat) (s t2 t3 t4 : State) : Prop where
  address : t2.ml.memAddr = ea
  executeBus : t2.exbus = s.exbus ++ incremented.map fun r => ⟨r, p⟩
  memoryBus : t3.membus = s.membus ++ incremented.map fun r => ⟨r, p⟩
  memory : t4.dmem = s.dmem.write k v
  base : ∀ r ∈ incremented, t4.readReg? r = some p
  free : ∀ r ∈ incremented, t4.isBusy r = false
  retired : t4.retired = s.retired + 1
  flags : t4.cc = s.cc
  frame : Frame incremented s t4
  btb : t4.btb = s.btb
  pc : t4.pc = s.pc
  redirect : t4.redirectPending = s.redirectPending
  halted : t4.halted = s.halted

/-- R55: what reading data memory gives after the store. -/
theorem Stored.words {incremented : List Int} {ea v p : Word} {k : Nat} {s t2 t3 t4 : State}
    (h : Stored incremented ea v p k s t2 t3 t4) (canonical : s.dmem.wf = true) :
    t4.dmem.read k = v ∧ (∀ j, j ≠ k → t4.dmem.read j = s.dmem.read j) ∧ t4.dmem.wf = true := by
  rw [h.memory]
  exact ⟨Memory.read_write_same canonical k v, fun _ other => Memory.read_write_other canonical v other,
    Memory.wf_write canonical k v⟩

/-- R125, R128, R129, R130: what the lines of a store leave, from its issue with value `a` and base value `b`. -/
theorem stored_of_stages {s t2 t3 t4 : State} {a b imm : Word} {incremented : List Int} {k : Nat}
    (named : ∀ r ∈ incremented, s.params.hasRegister r = true)
    (execute : executeAddress b imm (incremented.map fun r => ⟨r, s.pointer b⟩)
      (((s.at .decode).issue a b incremented).at .execute) = .next t2)
    (memory : (({ t2.at .memory with dmem := t2.dmem.write k t2.ml.rs1Value } : State).driveMembus
      (incremented.map fun r => ⟨r, t2.pointer t2.ml.rs2Value⟩)).advanceMemory = t3)
    (writeback : writebackCommit (incremented.map fun r => ⟨r, t3.pointer t3.wl.rs2Value⟩) (t3.at .writeback) =
      .next t4) :
    Stored incremented (effectiveAddress s.params b imm) a (s.pointer b) k s t2 t3 t4 := by
  have issued := issued_issue s a b named
  cases execute
  subst memory
  cases writeback
  constructor
  case base =>
    intro r hr
    rw [readReg?_congr (State.retire_x _)]
    exact readReg?_commitAll_of_mem (by simpa using named r hr) (by simp [hr, State.pointer]) (by simp [State.pointer])
  case free =>
    intro r hr
    rw [isBusy_congr (State.retire_busy _), isBusy_commitAll, if_pos]
    simpa [Function.comp_def] using hr
  case frame => apply frame_commitAll_retire issued <;> simp [Function.comp_def]
  all_goals simp [State.pointer]

/-- R182, R183, R184: a store with its address in data memory completes. -/
theorem Stores.completes {i : Instr} {s : State} {rs1 rs2 : Int} {imm a b : Word} {incremented : List Int} {k : Nat}
    (h : Stores i rs1 rs2 imm incremented) (named : ∀ r ∈ incremented, s.params.hasRegister r = true)
    (valueNamed : s.params.hasRegister rs1 = true) (baseNamed : s.params.hasRegister rs2 = true)
    (first : s.resolve rs1 = some a) (second : s.resolve rs2 = some b) (free : ∀ r ∈ incremented, s.isBusy r = false)
    (inside : s.dataIndex? (effectiveAddress s.params b imm) = some k) :
    ∃ t1 t2 t3 t4, exec i (s.at .decode) = .next t1 ∧ exec i (t1.at .execute) = .next t2 ∧
      exec i (t2.at .memory) = .next t3 ∧ exec i (t3.at .writeback) = .next t4 ∧
      Issued a b incremented s t1 ∧
      Stored incremented (effectiveAddress s.params b imm) a (s.pointer b) k s t2 t3 t4 := by
  have inRange : ∀ r ∈ Operands.fields ⟨some rs1, some rs2, incremented⟩, s.params.hasRegister r = true := by
    simpa [Operands.fields, valueNamed, baseNamed] using named
  have decoded : exec i (s.at .decode) = .next ((s.at .decode).issue a b incremented) :=
    (h.decode s).trans (decodeOperands_of_ready inRange first second free)
  obtain ⟨t2, addressed⟩ : ∃ t2, executeAddress b imm (incremented.map fun r => ⟨r, s.pointer b⟩)
      (((s.at .decode).issue a b incremented).at .execute) = .next t2 := ⟨_, rfl⟩
  have executed : exec i (((s.at .decode).issue a b incremented).at .execute) = .next t2 := by
    simpa [h.execute, State.pointer] using addressed
  have stored := (h.memory t2).trans (memoryStore_of_inside _ ((dataIndex?_of_execute addressed).trans inside))
  exact ⟨_, t2, _, _, decoded, executed, stored, h.writeback _, issued_issue s a b named,
    stored_of_stages named addressed rfl rfl⟩

/-- Settles O29: `STORE` increments no base register, `STOREP` its own; of data memory, both write the one word (R55). -/
theorem storeInstructionsComplete : Obligations.StoreInstructionsComplete := by
  rintro s rs1 rs2 imm a b _ _ canonical valueNamed baseNamed first second rfl low high rfl
  have inside := dataIndex?_of_inside low high
  refine ⟨?_, fun baseFree => ?_⟩
  · obtain ⟨t1, t2, t3, t4, decoded, executed, stored, committed, issued, done⟩ :=
      (store_stores rs1 rs2 imm).completes (by simp) valueNamed baseNamed first second (by simp) inside
    obtain ⟨word, others, wf⟩ := done.words canonical
    exact ⟨t1, t2, t3, t4, decoded, executed, stored, committed, issued, done.address, by simpa using done.executeBus,
      by simpa using done.memoryBus, word, others, wf, done.retired, done.flags, done.frame, done.btb, done.pc,
      done.redirect, done.halted⟩
  · obtain ⟨t1, t2, t3, t4, decoded, executed, stored, committed, issued, done⟩ :=
      (storep_stores rs1 rs2 imm).completes (by simpa using baseNamed) valueNamed baseNamed first second
        (by simpa using baseFree) inside
    obtain ⟨word, others, wf⟩ := done.words canonical
    exact ⟨t1, t2, t3, t4, decoded, executed, stored, committed, issued, done.address, done.executeBus, done.memoryBus,
      word, others, wf, done.base rs2 (by simp), done.free rs2 (by simp), done.retired, done.flags, done.frame,
      done.btb, done.pc, done.redirect, done.halted⟩

end Sys2Proof.Machine

/-! SUPPORT. Proofs for spec/44_control_transfer.md: the conditional branches (R190 to R193, R196) and the jumps (R194, R195)
through Decode, Execute, Memory and Writeback. `JALR` differs from `JUMP` by one register write; so a jump is taken with the
list of registers it links, `[]` or one register. -/

namespace Sys2Proof.Machine

/-! ### Conditional branches (R190 to R193, R196) -/

/-- R196: the lines of a conditional branch of family `f`, taken when `taken` says so of the flags. -/
structure Branches (i : Instr) (imm : Word) (f : Family) (taken : CondCodes → Bool) : Prop where
  decode : ∀ s : State, exec i (s.at .decode) = decodeBranch f (s.at .decode)
  execute : ∀ s : State, exec i (s.at .execute) = executeBranch (taken s.cc) imm (s.at .execute)
  memory : ∀ s : State, exec i (s.at .memory) = memoryPass [] (s.at .memory)
  writeback : ∀ s : State, exec i (s.at .writeback) = writebackCommit [] (s.at .writeback)

section
variable (imm : Word)

theorem bz_branches : Branches (.bz imm) imm .B fun c => c.z :=
  ⟨fun _ => rfl, fun _ => rfl, fun _ => rfl, fun _ => rfl⟩

theorem bnz_branches : Branches (.bnz imm) imm .A fun c => !c.z :=
  ⟨fun _ => rfl, fun _ => rfl, fun _ => rfl, fun _ => rfl⟩

theorem bp_branches : Branches (.bp imm) imm .A fun c => c.p :=
  ⟨fun _ => rfl, fun _ => rfl, fun _ => rfl, fun _ => rfl⟩

theorem bnp_branches : Branches (.bnp imm) imm .B fun c => !c.p :=
  ⟨fun _ => rfl, fun _ => rfl, fun _ => rfl, fun _ => rfl⟩

/-- R190 to R193: each row of the table of branches has the lines of a branch of its family and condition. -/
theorem branches_of_mem {c : CondCodes} {e : Instr × Family × Bool}
    (row : e ∈ [(Instr.bz imm, Family.B, c.z), (.bnz imm, .A, !c.z), (.bp imm, .A, c.p), (.bnp imm, .B, !c.p)]) :
    ∃ taken, Branches e.1 imm e.2.1 taken ∧ taken c = e.2.2 := by
  simp only [List.mem_cons, List.not_mem_nil, or_false] at row
  rcases row with rfl | rfl | rfl | rfl
  · exact ⟨_, bz_branches imm, rfl⟩
  · exact ⟨_, bnz_branches imm, rfl⟩
  · exact ⟨_, bp_branches imm, rfl⟩
  · exact ⟨_, bnp_branches imm, rfl⟩

end

/-- R196: Execute resolved the branch in `XL`: the BTB update, the flush exactly on a misprediction, and nothing else but the
latches changed. -/
structure BranchResolved (taken : Bool) (imm : Word) (s u : State) : Prop where
  btb : u.btb = btbUpdate s.btb s.xl.pc taken (s.branchTarget imm)
  predicted : taken = s.xl.btbHit → s.FrontKept u
  mispredicted : taken ≠ s.xl.btbHit → s.Flushed u (if taken then s.branchTarget imm else s.fallThrough)
  x : u.x = s.x
  busy : u.busy = s.busy
  cc : u.cc = s.cc
  exbus : u.exbus = s.exbus
  membus : u.membus = s.membus
  retired : u.retired = s.retired
  cycles : u.cycles = s.cycles
  halted : u.halted = s.halted
  fault : u.fault = s.fault
  dmem : u.dmem = s.dmem
  code : u.code = s.code
  params : u.params = s.params

/-- R196: the two ways a branch resolves, by whether its outcome is what Fetch did. -/
theorem executeBranch_resolves (taken : Bool) (imm : Word) (s : State) :
    ∃ u, executeBranch taken imm s = .next u ∧ BranchResolved taken imm s u := by
  by_cases outcome : taken = s.xl.btbHit
  · refine ⟨_, executeBranch_of_predicted (State.misprediction?_eq_none.2 outcome), ?_⟩
    constructor
    case predicted => intro _; constructor <;> simp
    case mispredicted => exact absurd outcome
    all_goals simp
  · refine ⟨_, if_pos (bne_iff_ne.2 outcome), ?_⟩
    constructor
    case predicted => exact fun h => absurd h outcome
    case mispredicted => intro _; constructor <;> simp
    all_goals simp

/-- R190 to R193, R196: the branch with family `f` and outcome `taken` has gone through Decode (`t1`), Execute (`t2`), Memory
(`t3`) and Writeback (`t4`). -/
structure Branched (f : Family) (taken : Bool) (imm : Word) (s t1 t2 t3 t4 : State) : Prop where
  xl : t1.xl = { s.dl with family := some f, stalled := false }
  dl : t1.dl.valid = false
  inserted : t1.btb = btbInsert s.btb s.dl.btbHit s.dl.pc f
  unmarked : t1.busy = s.busy
  resolved : t2.btb = btbUpdate t1.btb s.dl.pc taken (s.params.s32 (s.dl.pc.toInt + imm.toInt))
  predicted : taken = s.dl.btbHit → t2.pc = s.pc ∧ t2.redirectPending = s.redirectPending ∧
    t2.fl = { s.fl with stalled := false }
  mispredicted : taken ≠ s.dl.btbHit → t2.redirectPending = true ∧ t2.dl.valid = false ∧
    t2.fl = { s.fl with valid := true, stalled := false }
  target : taken ≠ s.dl.btbHit → t2.pc = s.params.s32 (s.dl.pc.toInt + if taken then imm.toInt else 4)
  executeBus : t2.exbus = s.exbus
  memoryBus : t3.membus = s.membus
  registers : t4.x = s.x
  busy : t4.busy = s.busy
  flags : t4.cc = s.cc
  memory : t4.dmem = s.dmem
  pc : t4.pc = t2.pc
  btb : t4.btb = t2.btb
  retired : t4.retired = s.retired + 1
  halted : t4.halted = s.halted
  frame : Frame [] s t4

/-- R122, R128, R130, R196: what the lines of a branch leave, given its resolution. -/
theorem branched_of_stages {f : Family} {taken : Bool} {imm : Word} {s t2 t3 t4 : State}
    (execute : BranchResolved taken imm ((((s.at .decode).insertBranch f).unstall).advanceDecode.at .execute) t2)
    (memory : memoryPass [] (t2.at .memory) = .next t3) (writeback : writebackCommit [] (t3.at .writeback) = .next t4) :
    Branched f taken imm s ((((s.at .decode).insertBranch f).unstall).advanceDecode) t2 t3 t4 := by
  cases memory
  cases writeback
  constructor
  case resolved => simpa [State.branchTarget] using execute.btb
  case predicted =>
    intro outcome
    have kept := execute.predicted (by simpa using outcome)
    simp [kept.pc, kept.redirectPending, kept.fl]
  case mispredicted =>
    intro outcome
    have flushed := execute.mispredicted (by simpa using outcome)
    simp [flushed.redirectPending, flushed.dl, flushed.fl]
  case target =>
    intro outcome
    rw [(execute.mispredicted (by simpa using outcome)).pc]
    cases taken <;> simp [State.branchTarget, State.fallThrough, Config.ilen]
  case frame =>
    constructor
    case registers => intro q _; apply readReg?_congr <;> simp [State.commitAll, execute.x, execute.params]
    case busyBits => intro q _; apply isBusy_congr <;> simp [State.commitAll, execute.busy, execute.params]
    all_goals simp [execute.cycles, execute.fault, execute.code, execute.params]
  all_goals simp [State.commitAll, execute.x, execute.busy, execute.cc, execute.exbus, execute.membus, execute.retired,
    execute.halted, execute.dmem]

/-- R190 to R193, R196: a conditional branch completes. -/
theorem Branches.completes {i : Instr} {imm : Word} {f : Family} {taken : CondCodes → Bool} (h : Branches i imm f taken)
    (s : State) : ∃ t1 t2 t3 t4, exec i (s.at .decode) = .next t1 ∧ exec i (t1.at .execute) = .next t2 ∧
      exec i (t2.at .memory) = .next t3 ∧ exec i (t3.at .writeback) = .next t4 ∧
      Branched f (taken s.cc) imm s t1 t2 t3 t4 := by
  obtain ⟨t2, executed, resolved⟩ := executeBranch_resolves (taken s.cc) imm
    ((((s.at .decode).insertBranch f).unstall).advanceDecode.at .execute)
  exact ⟨_, t2, _, _, h.decode s, (h.execute _).trans executed, h.memory _, h.writeback _,
    branched_of_stages resolved rfl rfl⟩

/-- Settles O32: each of the four has the lines of a branch, so it completes; its two targets are those of its outcomes. -/
theorem conditionalBranchesComplete : Obligations.ConditionalBranchesComplete := by
  intro s imm e row
  obtain ⟨taken, lines, outcome⟩ := branches_of_mem imm row
  obtain ⟨t1, t2, t3, t4, decoded, executed, passed, committed, done⟩ := lines.completes s
  rw [outcome] at done
  exact ⟨t1, t2, t3, t4, decoded, executed, passed, committed, done.xl, done.dl, done.inserted, done.unmarked,
    done.resolved, done.predicted, fun isTaken notHit => by simpa [isTaken] using done.target (by simp [isTaken, notHit]),
    fun notTaken hit => by simpa [notTaken] using done.target (by simp [notTaken, hit]), done.mispredicted,
    done.executeBus, done.memoryBus, done.registers, done.busy, done.flags, done.memory, done.pc, done.btb,
    done.retired, done.halted, done.frame⟩

/-! ### Jumps (R194, R195) -/

/-- R194, R195: the lines of a jump to base `rs1` plus `imm` that links the registers `linked`; `result` is what Execute
leaves in the result field of `XL`. -/
structure Jumps (i : Instr) (rs1 : Int) (imm : Word) (linked : List Int) (result : Config.Params → Latch → Word) :
    Prop where
  decode : ∀ s : State, exec i (s.at .decode) = decodeOperands ⟨some rs1, none, linked⟩ (s.at .decode)
  execute : ∀ s : State, exec i (s.at .execute) =
    .next ((((s.at .execute).setResult (result s.params s.xl)).driveExbus
      (linked.map fun r => ⟨r, result s.params s.xl⟩)).flush (s.jumpTarget imm)).advanceExecute
  memory : ∀ s : State, exec i (s.at .memory) = memoryPass (linked.map fun r => ⟨r, s.ml.result⟩) (s.at .memory)
  writeback : ∀ s : State, exec i (s.at .writeback) =
    writebackCommit (linked.map fun r => ⟨r, s.wl.result⟩) (s.at .writeback)

theorem State.driveExbus_nil (s : State) : s.driveExbus [] = s := by
  simp [State.driveExbus]

/-- R194: `JUMP` drives no pair and leaves the result field as it was. -/
theorem jump_jumps (rs1 : Int) (imm : Word) : Jumps (.jump rs1 imm) rs1 imm [] fun _ l => l.result where
  decode _ := rfl
  execute s := by rw [List.map_nil, State.driveExbus_nil]; rfl
  memory _ := rfl
  writeback _ := rfl

theorem jalr_jumps (rd rs1 : Int) (imm : Word) : Jumps (.jalr rd rs1 imm) rs1 imm [rd]
    fun p l => p.s32 (l.pc.toInt + Config.ilen) :=
  ⟨fun _ => rfl, fun _ => rfl, fun _ => rfl, fun _ => rfl⟩

/-- R194, R195: the jump to `target` has gone through Execute (`t2`), Memory (`t3`) and Writeback (`t4`), with `v` in the
linked registers. -/
structure Jumped (linked : List Int) (target v : Word) (s t2 t3 t4 : State) : Prop where
  target : t2.pc = target
  redirect : t2.redirectPending = true
  dl : t2.dl.valid = false
  fl : t2.fl = { s.fl with valid := true, stalled := false }
  executeBus : t2.exbus = s.exbus ++ linked.map fun r => ⟨r, v⟩
  memoryBus : t3.membus = s.membus ++ linked.map fun r => ⟨r, v⟩
  link : ∀ r ∈ linked, t4.readReg? r = some v
  free : ∀ r ∈ linked, t4.isBusy r = false
  noLink : linked = [] → t4.x = s.x ∧ t4.busy = s.busy
  flags : t4.cc = s.cc
  memory : t4.dmem = s.dmem
  btb : t4.btb = s.btb
  pc : t4.pc = t2.pc
  retired : t4.retired = s.retired + 1
  halted : t4.halted = s.halted
  frame : Frame linked s t4

/-- R125, R126, R129, R130: what the lines of a jump leave, from its issue with base value `a`. -/
theorem jumped_of_stages {s t2 t3 t4 : State} {a b target v : Word} {linked : List Int}
    (named : ∀ r ∈ linked, s.params.hasRegister r = true)
    (execute : ((((((s.at .decode).issue a b linked).at .execute).setResult v).driveExbus
      (linked.map fun r => ⟨r, v⟩)).flush target).advanceExecute = t2)
    (memory : memoryPass (linked.map fun r => ⟨r, t2.ml.result⟩) (t2.at .memory) = .next t3)
    (writeback : writebackCommit (linked.map fun r => ⟨r, t3.wl.result⟩) (t3.at .writeback) = .next t4) :
    Jumped linked target v s t2 t3 t4 := by
  have issued := issued_issue s a b named
  subst execute
  cases memory
  cases writeback
  constructor
  case link =>
    intro r hr
    rw [readReg?_congr (State.retire_x _)]
    exact readReg?_commitAll_of_mem (by simpa using named r hr) (by simp [hr]) (by simp)
  case free =>
    intro r hr
    rw [isBusy_congr (State.retire_busy _), isBusy_commitAll, if_pos]
    simpa [Function.comp_def] using hr
  case noLink =>
    rintro rfl
    exact ⟨by simp [State.commitAll], by simp [State.commitAll, State.issue, State.markBusy]⟩
  case frame => apply frame_commitAll_retire issued <;> simp [Function.comp_def]
  all_goals simp

/-- R194, R195: a jump with its base resolved completes. -/
theorem Jumps.completes {i : Instr} {s : State} {rs1 : Int} {imm a : Word} {linked : List Int}
    {result : Config.Params → Latch → Word} (h : Jumps i rs1 imm linked result)
    (named : ∀ r ∈ linked, s.params.hasRegister r = true) (baseNamed : s.params.hasRegister rs1 = true)
    (base : s.resolve rs1 = some a) (free : ∀ r ∈ linked, s.isBusy r = false) :
    ∃ t1 t2 t3 t4, exec i (s.at .decode) = .next t1 ∧ exec i (t1.at .execute) = .next t2 ∧
      exec i (t2.at .memory) = .next t3 ∧ exec i (t3.at .writeback) = .next t4 ∧
      Issued a s.dl.rs2Value linked s t1 ∧
      Jumped linked (effectiveAddress s.params a imm) (result s.params t1.xl) s t2 t3 t4 := by
  have inRange : ∀ r ∈ Operands.fields ⟨some rs1, none, linked⟩, s.params.hasRegister r = true := by
    simpa [Operands.fields, baseNamed] using named
  have decoded : exec i (s.at .decode) = .next ((s.at .decode).issue a s.dl.rs2Value linked) :=
    (h.decode s).trans (decodeOperands_of_ready inRange base rfl free)
  have baseValue : ((s.at .decode).issue a s.dl.rs2Value linked).xl.rs1Value = a := by simp
  have executed := h.execute ((s.at .decode).issue a s.dl.rs2Value linked)
  simp only [State.jumpTarget, baseValue, State.issue_params, State.at_params] at executed
  exact ⟨_, _, _, _, decoded, executed, h.memory _, h.writeback _, issued_issue s a _ named,
    jumped_of_stages named rfl rfl rfl⟩

/-- Settles O33: `JUMP` links no register, `JALR` its `rd`. -/
theorem jumpInstructionsComplete : Obligations.JumpInstructionsComplete := by
  intro s rd rs1 imm a baseNamed base
  refine ⟨?_, fun rdNamed rdFree => ?_⟩
  · obtain ⟨t1, t2, t3, t4, decoded, executed, passed, committed, issued, done⟩ :=
      (jump_jumps rs1 imm).completes (by simp) baseNamed base (by simp)
    obtain ⟨registers, busy⟩ := done.noLink rfl
    exact ⟨t1, t2, t3, t4, decoded, executed, passed, committed, issued, done.target, done.redirect, done.dl, done.fl,
      by simpa using done.executeBus, by simpa using done.memoryBus, registers, busy, done.flags, done.memory, done.btb,
      done.pc, done.retired, done.halted, done.frame⟩
  · obtain ⟨t1, t2, t3, t4, decoded, executed, passed, committed, issued, done⟩ :=
      (jalr_jumps rd rs1 imm).completes (by simpa using rdNamed) baseNamed base (by simpa using rdFree)
    simp only [issued.xl, Config.ilen] at done
    exact ⟨t1, t2, t3, t4, decoded, executed, passed, committed, issued, done.target, done.redirect, done.dl, done.fl,
      done.executeBus, done.memoryBus, done.link rd (by simp), done.free rd (by simp), done.flags, done.memory, done.btb,
      done.pc, done.retired, done.halted, done.frame⟩

end Sys2Proof.Machine

/-! SUPPORT. Proofs for spec/45_halt_and_reserved.md: what a stage raises on an opcode it has no row for (R202, R203), what
Decode refuses (R201, R212, R213), and `HALT` through its four stages (R200). -/

namespace Sys2Proof.Machine

/-! ### A stage and its latch (R111, R202, R203) -/

/-- R202, R203: a latch that holds no instruction stops its stage. -/
theorem runStage_noInstr {g : Stage} {l : Latch} (s : State) (filled : l.valid = true) (noInstr : l.instr? = none) :
    runStage g l s = .fault l.unsupported := by
  simp [runStage, filled, noInstr]

/-- R74: a record is no instruction exactly when its opcode has no number. -/
theorem Record.instr?_eq_none {r : Record} : r.instr? = none ↔ r.opcode.number? = none := by
  obtain ⟨o, rd, rs1, rs2, imm⟩ := r
  cases o <;> simp [Record.instr?, Opcode.number?]

/-- R202: what a stage raises on an opcode outside R74. -/
theorem runStage_noNumber {g : Stage} {l : Latch} {o : Opcode} (s : State) (filled : l.valid = true)
    (opcode : l.opcode = .op o) (noNumber : o.number? = none) :
    runStage g l s = .fault (.invalidOpcode l.pc o) := by
  have noInstr : l.instr? = none := by
    rw [Latch.instr?, opcode]
    exact Record.instr?_eq_none.2 noNumber
  rw [runStage_noInstr s filled noInstr, Latch.unsupported, opcode]

/-- R203: what a stage raises on a poisoned latch. -/
theorem runStage_poisoned {g : Stage} {l : Latch} (s : State) (filled : l.valid = true) (opcode : l.opcode = .badpc) :
    runStage g l s = .fault (.codeAddressInvalid l.pc) := by
  have noInstr : l.instr? = none := by rw [Latch.instr?, opcode]
  rw [runStage_noInstr s filled noInstr, Latch.unsupported, opcode]

/-- Settles O10: each of the four stages is `runStage` on its latch. -/
theorem stagesRunTheInstructionInTheirLatch : Obligations.StagesRunTheInstructionInTheirLatch := by
  intro u f g l row
  have runs : f u = runStage g l u := by
    simp only [List.mem_cons, List.not_mem_nil, or_false, Prod.mk.injEq] at row
    rcases row with ⟨rfl, rfl, rfl⟩ | ⟨rfl, rfl, rfl⟩ | ⟨rfl, rfl, rfl⟩ | ⟨rfl, rfl, rfl⟩ <;> rfl
  rw [runs]
  exact ⟨runStage_bubble u, fun _ => runStage_instr u, runStage_poisoned u,
    fun _ filled opcode => runStage_noNumber u filled opcode rfl, fun filled opcode => runStage_noNumber u filled opcode rfl⟩

/-! ### What Decode refuses (R201, R212, R213) -/

theorem exec_decode_refused {i : Instr} {s : State} (stage : s.stage = .decode) (refused : i.refusedByDecode = true) :
    exec i s = .fault (.invalidOpcode s.dl.pc i.opcode) := by
  simp [exec_decode i stage, refused]

/-- R213: the first used field that names no register is what Decode raises; a branch uses no field. -/
theorem exec_decode_badField {i : Instr} {s : State} {f : Int} (stage : s.stage = .decode)
    (accepted : i.refusedByDecode = false) (bad : i.operands.badField? s.params = some f) :
    exec i s = .fault (.registerIndexOutOfRange s.dl.pc f) := by
  have noBranch : i.family? = none := by
    by_contra branch
    obtain ⟨family, hf⟩ := Option.ne_none_iff_exists'.1 branch
    obtain ⟨-, inRange⟩ := passesDecode_of_branch (p := s.params) hf
    exact absurd bad (by simp [inRange])
  simp [exec_decode i stage, accepted, noBranch, decodeOperands, bad]

/-- R117: the range check finds the first field out of range. -/
theorem badField?_of_fields {o : Operands} {p : Config.Params} {before after : List Int} {f : Int}
    (fields : o.fields = before ++ f :: after) (inRange : ∀ g ∈ before, 0 ≤ g ∧ g < p.nreg.val)
    (outside : f < 0 ∨ p.nreg.val ≤ f) : o.badField? p = some f := by
  refine List.find?_eq_some_iff_append.2 ⟨?_, before, after, fields, fun g hg => ?_⟩
  · simp only [Config.Params.hasRegister, Bool.not_eq_true', decide_eq_false_iff_not]
    omega
  · simpa [Config.Params.hasRegister] using inRange g hg

/-- Settles O21: `DIV` and `LOADP` with equal registers are refused by name, the others by their first bad field. -/
theorem decodeRefusals : Obligations.DecodeRefusals :=
  ⟨fun _ _ _ _ _ stage => exec_decode_refused stage rfl,
    fun _ _ _ stage => exec_decode_refused stage (by simp [Instr.refusedByDecode]),
    fun _ _ _ _ _ stage accepted fields inRange outside =>
      exec_decode_badField stage accepted (badField?_of_fields fields inRange outside)⟩

/-- Settles O22: `DIV` is the unsupported opcode of R202 in every stage but Fetch. -/
theorem divStopsInEveryStageBehindFetch : Obligations.DivStopsInEveryStageBehindFetch :=
  fun _ rd rs1 rs2 imm => exec_div_faults rd rs1 rs2 imm

/-! ### `HALT` (R200) -/

/-- R122: an instruction without destinations marks no register busy. -/
@[simp] theorem State.issue_nil_busy (s : State) (a b : Word) : (s.issue a b []).busy = s.busy := by
  simp [State.issue, State.markBusy]

/-- A state whose register file and busy table are as they were keeps every frame. -/
theorem frame_of_unwritten {s t : State} {written : List Int} (x : t.x = s.x) (busy : t.busy = s.busy)
    (cycles : t.cycles = s.cycles) (fault : t.fault = s.fault) (code : t.code = s.code) (params : t.params = s.params) :
    Frame written s t :=
  { cycles, fault, code, params
    registers := fun q _ => readReg?_congr x q params
    busyBits := fun q _ => isBusy_congr busy q params }

/-- R120, R122: `HALT` has no source and no destination, so Decode issues it in every state. -/
theorem exec_decode_halt (s : State) :
    exec .halt (s.at .decode) = .next ((s.at .decode).issue s.dl.rs1Value s.dl.rs2Value []) :=
  decodeOperands_of_ready (o := ⟨none, none, []⟩) (by simp [Operands.fields]) rfl rfl (by simp)

/-- R123: Execute only passes `HALT` on. -/
theorem exec_execute_halt (s : State) : exec .halt (s.at .execute) = .next (s.at .execute).advanceExecute := rfl

/-- R128: Memory drives no pair for `HALT`. -/
theorem exec_memory_halt (s : State) :
    exec .halt (s.at .memory) = .next ((s.at .memory).driveMembus []).advanceMemory := rfl

/-- R130: at Writeback `HALT` sets `halted` and retires. -/
theorem exec_writeback_halt (s : State) : exec .halt (s.at .writeback) = .next (s.at .writeback).halt.retire := rfl

/-- Settles O35: the four lines of `HALT` one after the other. -/
theorem haltCompletes : Obligations.HaltCompletes := by
  intro s
  refine ⟨_, _, _, _, exec_decode_halt s, exec_execute_halt _, exec_memory_halt _, exec_writeback_halt _,
    issued_issue s _ _ nofun, ?_⟩
  simp [frame_of_unwritten]

end Sys2Proof.Machine

/-! SUPPORT. Proofs for spec/60_exceptions.md: the data address of a load or store, computed in Execute and checked in Memory
(R63, R214), and the cycle that a stage's fatal condition discards (R216). -/

namespace Sys2Proof.Machine

/-! ### The discarded cycle (R216) -/

/-- R110, R216: a running core whose cycle raises has no next state but the one that records the condition. -/
theorem step_of_cycleStages_fault {s : State} {k : Fault} (running : s.running = true) (raises : cycleStages s = .fault k) :
    step s = .next (s.takeFatal k) := by
  have active : (s.halted || s.fault.isSome) = false := by simpa [s.running_eq] using running
  simp [step, stepCycle, active, raises]

/-- R110: Memory runs right after Writeback, and what it raises ends the cycle. -/
theorem cycleStages_of_memory_fault {s u : State} {k : Fault} (writeback : writebackStage s.clearBuses = .next u)
    (memory : memoryStage u = .fault k) : cycleStages s = .fault k := by
  simp [cycleStages, backEnd, writeback, memory]

/-! ### A data address outside data memory (R63, R214) -/

theorem dataIndex?_of_outside {s : State} {ea : Word} (outside : ea.toInt < 0 ∨ (s.params.dmemWords : Int) ≤ ea.toInt) :
    s.dataIndex? ea = none :=
  if_neg (by omega)

theorem memoryLoad_of_outside {s : State} (ps : Word → List BusPair) (outside : s.dataIndex? s.ml.memAddr = none) :
    memoryLoad ps s = .fault (.memoryAddressOutOfRange s.ml.pc s.ml.memAddr) := by
  simp [memoryLoad, State.memRead?, outside]

theorem memoryStore_of_outside {s : State} (ps : List BusPair) (outside : s.dataIndex? s.ml.memAddr = none) :
    memoryStore ps s = .fault (.memoryAddressOutOfRange s.ml.pc s.ml.memAddr) := by
  simp [memoryStore, State.memWrite?, outside]

/-- R125, R128, R214: the lines of a load or store with respect to its data address: Execute computes it from the base value
that `base` reads in `XL`, and Memory raises where it is outside data memory. -/
structure AddressesMemory (i : Instr) (imm : Word) (base : Latch → Word) : Prop where
  execute : ∀ {s : State}, s.stage = .execute → ∃ ps, exec i s = executeAddress (base s.xl) imm ps s
  raises : ∀ {s : State}, s.stage = .memory → s.dataIndex? s.ml.memAddr = none →
    exec i s = .fault (.memoryAddressOutOfRange s.ml.pc s.ml.memAddr)

section
variable (r q : Int) (imm : Word)

theorem load_addressesMemory : AddressesMemory (.load r q imm) imm Latch.rs1Value where
  execute stage := ⟨[], by simp [exec, execLoad, stage]⟩
  raises stage outside := by simp [exec, execLoad, stage, memoryLoad_of_outside _ outside]

theorem loadp_addressesMemory : AddressesMemory (.loadp r q imm) imm Latch.rs1Value where
  execute {s} stage := ⟨[⟨q, s.pointer s.xl.rs1Value⟩], by simp [exec, execLoadp, stage]⟩
  raises stage outside := by simp [exec, execLoadp, stage, memoryLoad_of_outside _ outside]

theorem store_addressesMemory : AddressesMemory (.store r q imm) imm Latch.rs2Value where
  execute stage := ⟨[], by simp [exec, execStore, stage]⟩
  raises stage outside := by simp [exec, execStore, stage, memoryStore_of_outside _ outside]

theorem storep_addressesMemory : AddressesMemory (.storep r q imm) imm Latch.rs2Value where
  execute {s} stage := ⟨[⟨q, s.pointer s.xl.rs2Value⟩], by simp [exec, execStorep, stage]⟩
  raises stage outside := by simp [exec, execStorep, stage, memoryStore_of_outside _ outside]

/-- R180 to R183: each row of the table of loads and stores addresses memory from the base value in that row. -/
theorem addressesMemory_of_mem {l : Latch} {e : Instr × Word}
    (row : e ∈ [(Instr.load r q imm, l.rs1Value), (.loadp r q imm, l.rs1Value), (.store r q imm, l.rs2Value),
      (.storep r q imm, l.rs2Value)]) :
    ∃ base, AddressesMemory e.1 imm base ∧ base l = e.2 := by
  simp only [List.mem_cons, List.not_mem_nil, or_false] at row
  rcases row with rfl | rfl | rfl | rfl
  · exact ⟨_, load_addressesMemory r q imm, rfl⟩
  · exact ⟨_, loadp_addressesMemory r q imm, rfl⟩
  · exact ⟨_, store_addressesMemory r q imm, rfl⟩
  · exact ⟨_, storep_addressesMemory r q imm, rfl⟩

end

/-- Settles O30: Execute passes any address on; Memory raises on one outside data memory, and that discards the cycle. -/
theorem dataAddressOutOfRangeRaises : Obligations.DataAddressOutOfRangeRaises := by
  intro s r q imm e row
  obtain ⟨base, addresses, value⟩ := addressesMemory_of_mem r q imm row
  refine ⟨fun stage => ?_, fun stage outside => ?_⟩
  · obtain ⟨ps, executes⟩ := addresses.execute stage
    exact ⟨_, executes, by simp [effectiveAddress, value], by simp⟩
  · have raises := addresses.raises stage (dataIndex?_of_outside outside)
    refine ⟨raises, fun u v filled instr running writeback entered => step_of_cycleStages_fault running ?_⟩
    subst entered
    exact cycleStages_of_memory_fault writeback ((runStage_instr v filled instr).trans raises)

end Sys2Proof.Machine

/-! SUPPORT. Proofs for spec/70_reset_and_hazards.md: what Decode meets of the instructions ahead (R250, R251), the results
that are forwarded to it (R252), reset (R37, R240) and the run loop (R246); with the statements they stand beside: the cycle
and its stages (R110 to R119), the flags (R172), data memory (R55) and the words of 95_test_vectors.md 2.1. -/

namespace Sys2Proof

/-- Settles O4: the decoder evaluated on each word. -/
theorem specWordsDecode : Obligations.SpecWordsDecode := by
  unfold Obligations.SpecWordsDecode
  decide

end Sys2Proof

namespace Sys2Proof.Machine

/-! ### Data memory and the flags (R55, R172) -/

/-- Settles O31: a read after a write, and equal words everywhere make equal memories. -/
theorem dataMemoryIsPlainStorage : Obligations.DataMemoryIsPlainStorage :=
  ⟨fun _ a v wf => ⟨Memory.read_write_same wf a v, fun _ other => Memory.read_write_other wf v other,
      Memory.wf_write wf a v⟩,
    fun _ _ wf wf' same => Memory.ext wf wf' same⟩

/-- Settles O23: the signed result is below, at or above 0. -/
theorem flagsAreExclusive : Obligations.FlagsAreExclusive := by
  intro r
  refine ⟨decide_eq_true_iff, decide_eq_true_iff, decide_eq_true_iff, ?_⟩
  rcases lt_trichotomy r.toInt 0 with negative | zero | positive
  · exact .inr (.inr (by simp [flagsOf, negative, negative.ne, negative.le]))
  · exact .inl (by simp [flagsOf, zero])
  · exact .inr (.inl (by simp [flagsOf, positive, positive.ne', positive.le]))

/-! ### Reset (R37, R240) -/

/-- R37: of two `DMEM_INIT` words at one address the first counts, and a word that is not listed is 0. -/
theorem Memory.read_ofWords (ws : List (Nat × Word)) (k : Nat) :
    (Memory.ofWords ws).read k = ((ws.find? fun c => decide (c.1 = k)).map Prod.snd).getD 0 := by
  induction ws with
  | nil => rfl
  | cons c ws ih =>
    obtain ⟨a, v⟩ := c
    rw [Memory.ofWords, Memory.read_write (Memory.wf_ofWords ws), ih, List.find?_cons]
    by_cases own : a = k
    · simp [own]
    · simp [own, Ne.symm own]

theorem State.initialize_of_ne_nil {code : List Record} (h : code ≠ []) (params : Config.Params)
    (init : List (Nat × Word)) : State.initialize code params init =
      .ok (State.resetWith code params (Memory.ofWords (init.filter fun c => decide (c.1 < params.dmemWords)))) := by
  simp [State.initialize, h, State.resetWith]

theorem State.resetWith_readReg? (code : List Record) (params : Config.Params) (dmem : Memory) {r : Int}
    (named : params.hasRegister r = true) : (State.resetWith code params dmem).readReg? r = some 0 := by
  obtain ⟨k, place⟩ := Option.isSome_iff_exists.1 ((regIndex?_isSome params r).trans named)
  simp [State.readReg?, State.resetWith, State.reset, place, Vector.get_eq_getElem]

/-- Settles O5: `State.resetWith`, field by field. -/
theorem initializeGivesTheResetState : Obligations.InitializeGivesTheResetState := by
  refine ⟨fun _ _ => rfl, fun code params init nonempty =>
    ⟨_, State.initialize_of_ne_nil nonempty params init, fun r low high => ?_, State.resetWith_isBusy _ _ _,
      (by decide : (word Config.codeBase).toInt = 4000), rfl, rfl, rfl, rfl, rfl, rfl, rfl, rfl, rfl, rfl, rfl, rfl,
      rfl, rfl, fun k => ?_⟩⟩
  · exact State.resetWith_readReg? _ _ _ (by simp [Config.Params.hasRegister, low, high])
  · refine (Memory.read_ofWords _ k).trans ?_
    split <;> simp [*]

/-! ### One cycle, stage by stage (R110) -/

/-- Settles O7: a step is the identity, a cycle or a recorded condition. -/
theorem everyStateHasANextState : Obligations.EveryStateHasANextState := by
  intro s
  rcases step_cases s with ⟨-, e⟩ | ⟨-, ⟨t, -, e⟩ | ⟨k, -, e⟩⟩
  · exact ⟨_, e⟩
  · exact ⟨_, e⟩
  · exact ⟨_, e⟩

/-- R110: the cycle of `s`: `u`, `v`, `w`, `d`, `x` are the states after Writeback, Memory, Execute, Decode and Fetch. -/
structure State.Cycle (s u v w d x : State) : Prop where
  writeback : writebackStage s.clearBuses = .next u
  memory : memoryStage u = .next v
  execute : executeStage v = .next w
  decode : decodeStage w = .next d
  fetch : fetchStage d = .next x

/-- R216: a step of a running core that records no fatal condition is a whole cycle. -/
theorem exists_cycle_of_step {s t : State} (run : s.running = true) (e : step s = .next t) (noFault : t.fault = none) :
    ∃ u v w d x, s.Cycle u v w d x ∧ t = x.closeCycle := by
  rcases step_cases s with ⟨stopped, -⟩ | ⟨-, ⟨x, cycle, e'⟩ | ⟨k, -, e'⟩⟩
  · simp [s.running_eq, stopped] at run
  · obtain ⟨u, v, w, d, hu, hv, hw, hd, hx⟩ := cycleStages_eq_next.1 cycle
    rw [e'] at e
    cases e
    exact ⟨u, v, w, d, x, ⟨hu, hv, hw, hd, hx⟩, rfl⟩
  · rw [e'] at e
    cases e
    cases noFault

theorem State.Cycle.whole {s u v w d x : State} (c : s.Cycle u v w d x) : cycleStages s = .next x :=
  cycleStages_eq_next.2 ⟨u, v, w, d, c.writeback, c.memory, c.execute, c.decode, c.fetch⟩

/-- R110: a running core steps to the end of its cycle. -/
theorem step_of_cycleStages_next {s x : State} (run : s.running = true) (cycle : cycleStages s = .next x) :
    step s = .next x.closeCycle := by
  have active : (s.halted || s.fault.isSome) = false := by simpa [s.running_eq] using run
  simp [step, stepCycle, active, cycle]

/-- Settles O9: the five states of a whole cycle, or the first stage that raises. -/
theorem stepIsTheFiveStagesInOrder : Obligations.StepIsTheFiveStagesInOrder := by
  intro s run
  have discarded : ∀ k, cycleStages s = .fault k → step s = .next (s.takeFatal k) := fun k =>
    step_of_cycleStages_fault run
  refine ⟨fun u v w d t hw hm hx hd hf => step_of_cycleStages_next run (State.Cycle.whole ⟨hw, hm, hx, hd, hf⟩),
    fun k hw => discarded k ?_,
    fun u k hw hm => discarded k (cycleStages_of_memory_fault hw hm), fun u v k hw hm hx => discarded k ?_,
    fun u v w k hw hm hx hd => discarded k ?_, fetchStage_next, discarded⟩
  all_goals
    change writebackStage s.clearBuses = _ at hw
    simp [cycleStages, backEnd, *]

/-- R111: what a latch has been passed on into: the same instruction, whatever values it has got, or a bubble. -/
structure Latch.PassedOn (l m : Latch) : Prop where
  valid : m.valid = l.valid
  instr : l.valid = true → m.instr? = l.instr?
  pc : l.valid = true → m.pc = l.pc

theorem MemoryDone.passedOn {s u : State} (f : MemoryDone s u) (free : s.wl.valid = false) : s.ml.PassedOn u.wl := by
  cases hv : s.ml.valid with
  | false => exact ⟨by rw [f.wlKept hv, free, hv], by simp [hv], by simp [hv]⟩
  | true =>
    obtain ⟨r, wl⟩ := f.wlFilled hv
    rw [wl]
    exact ⟨rfl, fun _ => rfl, fun _ => rfl⟩

theorem ExecuteDone.passedOn {s u : State} (f : ExecuteDone s u) (free : s.ml.valid = false) : s.xl.PassedOn u.ml := by
  cases hv : s.xl.valid with
  | false => exact ⟨by rw [f.mlKept hv, free, hv], by simp [hv], by simp [hv]⟩
  | true =>
    obtain ⟨r, a, ml⟩ := f.mlFilled hv
    rw [ml]
    exact ⟨rfl, fun _ => rfl, fun _ => rfl⟩

namespace State.Cycle

variable {s u v w d x : State} (c : s.Cycle u v w d x)
include c

/-! At Memory (`u`), at Execute (`v`), at Decode (`w`) and at the end (`x`): what the stages before have left as it was, and
the latch and the bus they have left empty. -/

theorem atMemory_ml : u.ml = s.ml := (writebackStage_done c.writeback).ml
theorem atMemory_dmem : u.dmem = s.dmem := (writebackStage_done c.writeback).dmem
theorem atMemory_wl : u.wl.valid = false := by rw [(writebackStage_done c.writeback).wl]
theorem atMemory_membus : u.membus = [] := (writebackStage_done c.writeback).membus

theorem atExecute_xl : v.xl = s.xl := (memoryStage_done c.memory).xl.trans (writebackStage_done c.writeback).xl
theorem atExecute_params : v.params = s.params :=
  (memoryStage_done c.memory).params.trans (writebackStage_done c.writeback).params
theorem atExecute_ml : v.ml.valid = false := (memoryStage_done c.memory).ml
theorem atExecute_exbus : v.exbus = [] := (memoryStage_done c.memory).exbus.trans (writebackStage_done c.writeback).exbus

theorem atDecode_params : w.params = s.params := (executeStage_done c.execute).params.trans c.atExecute_params
theorem atDecode_xl : w.xl.valid = false := (executeStage_done c.execute).xl
theorem atDecode_wl : w.wl = v.wl := (executeStage_done c.execute).wl
theorem atDecode_membus : w.membus = v.membus := (executeStage_done c.execute).membus

theorem atEnd_xl : x.xl = d.xl := (fetchStage_behind c.fetch).1
theorem atEnd_ml : x.ml = w.ml := (fetchStage_behind c.fetch).2.1.trans (decodeStage_behind c.decode).1
theorem atEnd_wl : x.wl = w.wl := (fetchStage_behind c.fetch).2.2.trans (decodeStage_behind c.decode).2

/-- R111: what is in `XL` goes to `ML`. -/
theorem toMemory : s.xl.PassedOn w.ml := by
  rw [← c.atExecute_xl]
  exact (executeStage_done c.execute).passedOn c.atExecute_ml

/-- R111: what is in `ML` goes to `WL`. -/
theorem toWriteback : s.ml.PassedOn w.wl := by
  rw [c.atDecode_wl, ← c.atMemory_ml]
  exact (memoryStage_done c.memory).passedOn c.atMemory_wl

end State.Cycle

/-- Settles O15: Execute and Memory pass their latches on, and Decode and Fetch leave `ML` and `WL` alone. -/
theorem instructionsBehindDecodeAdvance : Obligations.InstructionsBehindDecodeAdvance := by
  intro s t run e noFault
  obtain ⟨u, v, w, d, x, c, rfl⟩ := exists_cycle_of_step run e noFault
  rw [State.closeCycle_ml, State.closeCycle_wl, c.atEnd_ml, c.atEnd_wl]
  exact ⟨c.toMemory.valid, c.toWriteback.valid, fun hv => ⟨c.toMemory.instr hv, c.toMemory.pc hv⟩,
    fun hv => ⟨c.toWriteback.instr hv, c.toWriteback.pc hv⟩⟩

/-! ### Fetch (R113 to R116) -/

/-- Settles O17: `exec_fetch`. -/
theorem fetchForwardsEveryInstruction : Obligations.FetchForwardsEveryInstruction := by
  intro i s stage
  rw [exec_fetch i stage]
  exact ⟨fun other => by rw [if_neg other]; rfl, fun halt => by rw [if_pos halt]; rfl⟩

/-- Settles O18: the four cases of `fetchStage_cases`; at work, Fetch has delivered what it read at `pc`. -/
theorem fetchFollowsItsRules : Obligations.FetchFollowsItsRules := by
  intro s
  refine ⟨fun off => by simp [fetchStage, off], fun on redirect => by simp [fetchStage, on, redirect],
    fun on noRedirect held => by simp [fetchStage, on, noRedirect, held], fun on noRedirect free => ?_⟩
  obtain ⟨t, e⟩ := fetchStage_next s
  have f : FetchDone s t := fetchDeliver_done on ((fetchStage_of_enabled on noRedirect free).symm.trans e)
  have enabled : t.fl.valid = decide (t.dl.opcode ≠ .op .halt) := by simp [f.fl, Latch.instr?_halt]
  refine ⟨t, e, ?_⟩
  rw [enabled, f.dl, f.pc]
  refine ⟨on, free, rfl, ?_, rfl, rfl, rfl, rfl, rfl, ?_, f.x, f.busy, f.cc, f.dmem, f.btb, f.xl, f.ml, f.wl, f.retired,
    f.halted⟩
  · cases s.codeRead s.pc <;> simp [fetchedLatch]
  · cases btbLookup s.btb s.pc <;> exact ⟨rfl, rfl⟩

/-- R110, R113: a cycle whose older stages leave Fetch at work reads at the `pc` it began with. -/
theorem backEnd_pc_code {s u : State} (e : backEnd s = .next u) (noRedirect : u.redirectPending = false) :
    u.pc = s.pc ∧ u.code = s.code := by
  simp only [backEnd, andThen_eq_next] at e
  obtain ⟨w, ⟨v, ⟨b, hw, hm⟩, hx⟩, hd⟩ := e
  have writeback := writebackStage_done hw
  have memory := memoryStage_done hm
  have execute := executeStage_done hx
  have decode : u.pc = w.pc ∧ u.redirectPending = w.redirectPending ∧ u.code = w.code := by
    rcases decodeStage_cases hd with ⟨-, rfl⟩ | ⟨-, i, -, -, ⟨rfl, -⟩ | ⟨f, -, rfl⟩ | ⟨p, q, -, -, -, -, rfl⟩⟩ <;> simp
  obtain ⟨pc, redirect, code⟩ := decode
  rcases execute.front with ⟨kept, -⟩ | ⟨-, -, -, -, flushed⟩
  · exact ⟨pc.trans (kept.trans (memory.pc.trans writeback.pc)),
      code.trans (execute.code.trans (memory.code.trans writeback.code))⟩
  · simp [redirect, flushed] at noRedirect

/-- Settles O11: Fetch at work fills `FL` with the decoded word's record, and runs the instruction of it. -/
theorem stepFetchesAndRunsTheDecodedInstruction : Obligations.StepFetchesAndRunsTheDecodedInstruction := by
  intro s u w i run decoded read older on noRedirect free
  obtain ⟨pc, code⟩ := backEnd_pc_code older noRedirect
  have record : u.codeRead u.pc = some i.record := by
    rw [codeRead_congr code, pc, read, decodeRecord, decoded]
  have filled : u.fetchFill.fl.instr? = some i ∧ u.fetchFill.fl.pc = s.pc := by
    rw [← pc, ← record_instr? i]
    unfold State.fetchFill
    split <;> exact ⟨by simp [fetchedLatch, record, Latch.instr?], rfl⟩
  have fetch := fetchStage_of_enabled on noRedirect free
  simp only [fetchDeliver, filled.1] at fetch
  obtain ⟨t, e⟩ := fetchStage_next u
  refine ⟨t, fetch.symm.trans e, ?_, filled.1, filled.2, ?_⟩
  · exact step_of_cycleStages_next run (by simp [cycleStages, older, e])
  · rw [fetch, exec_fetch i rfl] at e
    cases e
    split <;> rfl

/-! ### Which stage writes what (R111) -/

/-- R202: only Fetch answers a next state on `DIV`. -/
theorem opcode_ne_div_of_exec {i : Instr} {s t : State} (stage : s.stage ≠ .fetch) (e : exec i s = .next t) :
    i.opcode ≠ .div := by
  intro div
  cases i <;> simp [Instr.opcode, Instr.record] at div
  simp [exec_div_faults _ _ _ _ stage] at e

/-- R94, R120 to R122: Decode writes busy bits, the BTB and the latches of the front end and of Execute. -/
structure DecodeWrites (s t : State) : Prop where
  x : t.x = s.x
  retired : t.retired = s.retired
  halted : t.halted = s.halted
  dmem : t.dmem = s.dmem
  membus : t.membus = s.membus
  cc : t.cc = s.cc
  exbus : t.exbus = s.exbus
  pc : t.pc = s.pc
  redirectPending : t.redirectPending = s.redirectPending
  cycles : t.cycles = s.cycles
  fault : t.fault = s.fault
  code : t.code = s.code
  params : t.params = s.params

theorem exec_decode_writes {i : Instr} {s t : State} (stage : s.stage = .decode) (e : exec i s = .next t) :
    DecodeWrites s t := by
  rw [exec_decode i stage] at e
  split at e
  · cases e
  · split at e
    · cases e
      constructor <;> simp
    · rcases decodeOperands_cases i.operands s with ⟨f, -, e'⟩ | ⟨-, e', -⟩ | ⟨a, b, -, -, -, -, e'⟩ <;>
        rw [e'] at e <;> cases e <;> constructor <;> simp

/-- R113: Fetch moves `pc`, consumes the redirect and fills `FL` and `DL`. -/
theorem fetchStage_writes {s t : State} (e : fetchStage s = .next t) :
    t = { s with pc := t.pc, redirectPending := t.redirectPending, fl := t.fl, dl := t.dl, stage := t.stage } := by
  unfold fetchStage at e
  split at e
  · cases e
    rfl
  · split at e
    · cases e
      rfl
    · split at e
      · cases e
        rfl
      · rw [fetchDeliver_eq] at e
        cases e
        unfold State.fetchFill
        split <;> split <;> rfl

/-- Settles O14: what `exec` writes in each of the five stages, and what the Fetch stage writes. -/
theorem stagesWriteOnlyTheirState : Obligations.StagesWriteOnlyTheirState := by
  refine ⟨fun i s t e => ?_, fun s t => fetchStage_writes⟩
  cases stage : s.stage with
  | writeback =>
    rw [exec_writeback i stage (opcode_ne_div_of_exec (by simp [stage]) e)] at e
    cases e
    split <;> simp
  | memory =>
    rcases exec_memory i stage (opcode_ne_div_of_exec (by simp [stage]) e) with ⟨u, e', f⟩ | e' <;> rw [e'] at e <;> cases e
    simp [f.x, f.retired, f.halted, f.cc, f.exbus, f.pc, f.redirectPending, f.busy, f.btb, f.cycles, f.fault, f.code, f.params]
  | execute =>
    obtain ⟨u, e', f⟩ := exec_execute i stage (opcode_ne_div_of_exec (by simp [stage]) e)
    rw [e'] at e
    cases e
    simp [f.x, f.retired, f.halted, f.dmem, f.membus, f.busy, f.cycles, f.fault, f.code, f.params]
  | decode =>
    have f := exec_decode_writes stage e
    simp [f.x, f.retired, f.halted, f.dmem, f.membus, f.cc, f.exbus, f.pc, f.redirectPending, f.cycles, f.fault, f.code,
      f.params]
  | fetch =>
    rw [exec_fetch i stage] at e
    cases e
    split <;> simp

/-! ### Source resolution (R119) -/

theorem busFind_eq_some {bus : List BusPair} {r : Int} {v : Word} (h : busFind bus r = some v) : ⟨r, v⟩ ∈ bus := by
  obtain ⟨p, found, rfl⟩ := Option.map_eq_some_iff.1 h
  have reg : p.reg = r := by simpa using List.find?_some found
  exact reg ▸ List.mem_of_find?_eq_some found

section
variable {s : State} {r : Int} {v : Word}

theorem State.resolve_of_exbus (found : busFind s.exbus r = some v) : s.resolve r = some v := by
  simp [State.resolve, found]

theorem State.resolve_of_membus (notExecute : busFind s.exbus r = none) (found : busFind s.membus r = some v) :
    s.resolve r = some v := by
  simp [State.resolve, notExecute, found]

theorem State.resolve_of_register (notExecute : busFind s.exbus r = none) (notMemory : busFind s.membus r = none)
    (free : s.isBusy r = false) (value : s.readReg? r = some v) : s.resolve r = some v := by
  simp [State.resolve, notExecute, notMemory, free, value]

theorem State.resolve_of_busy (notExecute : busFind s.exbus r = none) (notMemory : busFind s.membus r = none)
    (busy : s.isBusy r = true) : s.resolve r = none := by
  simp [State.resolve, notExecute, notMemory, busy]

end

/-- Settles O19: `State.resolve` asks the three places in turn, and a bus answers with a pair of its own. -/
theorem resolveFollowsTheStrictPriority : Obligations.ResolveFollowsTheStrictPriority :=
  fun _ _ => ⟨fun _ => State.resolve_of_exbus, fun _ => State.resolve_of_membus, fun _ => State.resolve_of_register,
    State.resolve_of_busy, fun _ _ => busFind_eq_some, fun _ => by simp [busFind]⟩

end Sys2Proof.Machine

namespace Sys2Proof

open Sys2Proof.Machine

/-! ### The registers an instruction drives `EXBUS` for (R125) -/

/-- R251: the register that gets a loaded word. -/
def Instr.loaded? : Instr → Option Int
  | .load rd _ _ => some rd
  | .loadp rd _ _ => some rd
  | _ => none

/-- R125: the registers whose value an instruction has in Execute: its destinations, but for a loaded one. -/
def Instr.bypassed : Instr → List Int
  | .load _ _ _ => []
  | .loadp _ rs1 _ => [rs1]
  | i => i.operands.dests

theorem Instr.loaded?_eq_some {i : Instr} {r : Int} :
    i.loaded? = some r ↔ ∃ b imm, i = .load r b imm ∨ i = .loadp r b imm := by
  cases i <;> simp [Instr.loaded?]

theorem Instr.mem_dests_iff {i : Instr} {r : Int} :
    r ∈ i.operands.dests ↔ r ∈ i.bypassed ∨ i.loaded? = some r := by
  cases i <;> simp [Instr.operands, Instr.bypassed, Instr.loaded?, or_comm, eq_comm]

/-- R181: a loaded register is no base register that is incremented, since Decode refuses `LOADP` with `rd = rs1`. -/
theorem Instr.not_mem_bypassed_of_loaded {i : Instr} {r : Int} (accepted : i.refusedByDecode = false)
    (loaded : i.loaded? = some r) : r ∉ i.bypassed := by
  obtain ⟨b, imm, rfl | rfl⟩ := Instr.loaded?_eq_some.1 loaded
  · exact List.not_mem_nil
  · simpa [Instr.refusedByDecode, Instr.bypassed] using accepted

/-- R118: a conditional branch has no source. -/
theorem Instr.not_reads_of_branch {i : Instr} {f : Family} (h : i.family? = some f) (r : Int) : ¬i.operands.reads r := by
  cases i <;> simp [Instr.family?] at h <;> simp [Operands.reads, Instr.operands]

end Sys2Proof

namespace Sys2Proof.Machine

/-! ### The buses by register (R119, R125, R129) -/

theorem busFind_eq_none {bus : List BusPair} {r : Int} : busFind bus r = none ↔ r ∉ bus.map BusPair.reg := by
  simp [busFind]

/-- R125: Execute drives `EXBUS` for every destination but a loaded one. -/
theorem exec_execute_exbus_regs (i : Instr) {s u : State} (stage : s.stage = .execute) (e : exec i s = .next u) :
    u.exbus.map BusPair.reg = s.exbus.map BusPair.reg ++ i.bypassed := by
  have branch : ∀ b m, executeBranch b m s = .next u → u.exbus = s.exbus := by
    intro b m e
    unfold executeBranch at e
    split at e <;> cases e <;> simp
  cases i <;>
    simp only [exec, stage, execAdd, execSub, execMul, execDiv, execAnd, execOr, execXor, execMovc, execLoad, execStore,
      execBz, execBnz, execHalt, execAddl, execSubl, execLoadp, execStorep, execCmp, execCml, execBp, execBnp, execJump,
      execJalr] at e
  case div => cases e
  case bz | bnz | bp | bnp => simp [branch _ _ e, Instr.bypassed, Instr.operands]
  all_goals
    cases e
    simp [Instr.bypassed, Instr.operands]

/-- R129: Memory drives `MEMBUS` for every destination. -/
theorem exec_memory_membus_regs (i : Instr) {s u : State} (stage : s.stage = .memory) (e : exec i s = .next u) :
    u.membus.map BusPair.reg = s.membus.map BusPair.reg ++ i.operands.dests := by
  have load : ∀ ps, memoryLoad ps s = .next u → ∃ v, u.membus = s.membus ++ ps v := by
    intro ps e
    rcases memoryLoad_cases ps s with ⟨v, -, e'⟩ | ⟨-, e'⟩ <;> rw [e'] at e <;> cases e
    exact ⟨v, by simp⟩
  have store : ∀ ps, memoryStore ps s = .next u → u.membus = s.membus ++ ps := by
    intro ps e
    rcases memoryStore_cases ps s with ⟨k, -, e'⟩ | ⟨-, e'⟩ <;> rw [e'] at e <;> cases e
    simp
  cases i <;>
    simp only [exec, stage, execAdd, execSub, execMul, execDiv, execAnd, execOr, execXor, execMovc, execLoad, execStore,
      execBz, execBnz, execHalt, execAddl, execSubl, execLoadp, execStorep, execCmp, execCml, execBp, execBnp, execJump,
      execJalr] at e
  case div => cases e
  case load | loadp =>
    obtain ⟨v, membus⟩ := load _ e
    simp [membus, Instr.operands]
  case store | storep => simp [store _ e, Instr.operands]
  all_goals
    cases e
    simp [Instr.operands]

/-! ### What a latch has ahead of Decode -/

/-- R21: the registers that the instruction in a latch is to write. -/
def Latch.pending (l : Latch) : List Int := if l.valid then l.dests else []

/-- R125: those of them that the instruction drives `EXBUS` for. -/
def Latch.bypassed (l : Latch) : List Int := if l.valid then l.instr?.elim [] Instr.bypassed else []

theorem Latch.mem_pending {l : Latch} {r : Int} : r ∈ l.pending ↔ l.valid = true ∧ r ∈ l.dests := by
  cases h : l.valid <;> simp [Latch.pending, h]

theorem Latch.pending_of_bubble {l : Latch} (h : l.valid = false) : l.pending = [] := by simp [Latch.pending, h]

theorem Latch.pending_of_instr {l : Latch} {i : Instr} (h : l.valid = true) (hi : l.instr? = some i) :
    l.pending = i.operands.dests := by
  simp [Latch.pending, h, Latch.dests_of_instr? hi]

theorem Latch.bypassed_of_bubble {l : Latch} (h : l.valid = false) : l.bypassed = [] := by simp [Latch.bypassed, h]

theorem Latch.bypassed_of_instr {l : Latch} {i : Instr} (h : l.valid = true) (hi : l.instr? = some i) :
    l.bypassed = i.bypassed := by
  simp [Latch.bypassed, h, hi]

/-- R251: the register that an instruction ahead is still to load is one it writes and does not drive `EXBUS` for. -/
theorem Latch.loaded_iff {l : Latch} {p : Config.Params} {r : Int}
    (supported : l.valid = true → ∃ j, l.instr? = some j ∧ j.passesDecode p) :
    (l.valid = true ∧ ∃ b imm, l.instr? = some (.load r b imm) ∨ l.instr? = some (.loadp r b imm)) ↔
      r ∈ l.pending ∧ r ∉ l.bypassed := by
  cases hv : l.valid with
  | false => simp [Latch.pending_of_bubble hv]
  | true =>
    obtain ⟨j, hj, accepted, -⟩ := supported hv
    have loads : (∃ b imm, l.instr? = some (.load r b imm) ∨ l.instr? = some (.loadp r b imm)) ↔ j.loaded? = some r := by
      simp [hj, Instr.loaded?_eq_some]
    rw [loads, Latch.pending_of_instr hv hj, Latch.bypassed_of_instr hv hj, Instr.mem_dests_iff]
    have separate := Instr.not_mem_bypassed_of_loaded accepted (r := r)
    tauto

/-- R39 (a): no two instructions ahead are to write one register. -/
theorem State.Inv.pending_disjoint {s : State} (h : s.Inv) {r : Int} :
    (r ∈ s.xl.pending → r ∉ s.ml.pending ∧ r ∉ s.wl.pending) ∧ (r ∈ s.ml.pending → r ∉ s.wl.pending) := by
  have pairs := List.pairwise_filter.1 h.oneWriter
  simp only [List.pairwise_cons, List.mem_cons, List.not_mem_nil, or_false, forall_eq_or_imp, forall_eq] at pairs
  obtain ⟨⟨withMemory, withWriteback⟩, behindMemory, -⟩ := pairs
  simp only [Latch.mem_pending]
  exact ⟨fun ⟨hx, hr⟩ => ⟨fun ⟨hm, hr'⟩ => withMemory hx hm r hr hr', fun ⟨hw, hr'⟩ => withWriteback hx hw r hr hr'⟩,
    fun ⟨hm, hr⟩ ⟨hw, hr'⟩ => behindMemory hm hw r hr hr'⟩

/-! ### What makes Decode hold its instruction (R120) -/

/-- R120: what makes Decode hold instruction `i` in `s`: an unresolved source or a busy destination. -/
def State.Blocks (s : State) (i : Instr) : Prop :=
  (∃ r, i.operands.reads r ∧ s.resolve r = none) ∨ ∃ d ∈ i.operands.dests, s.isBusy d = true

theorem State.operand_eq_none {s : State} {src : Option Int} {old : Word} :
    s.operand src old = none ↔ ∃ r, src = some r ∧ s.resolve r = none := by
  cases src <;> simp [State.operand]

theorem State.blocks_iff {s : State} {i : Instr} :
    s.Blocks i ↔ s.operand i.operands.src1 s.dl.rs1Value = none ∨ s.operand i.operands.src2 s.dl.rs2Value = none ∨
      ∃ d ∈ i.operands.dests, s.isBusy d = true := by
  simp only [State.Blocks, State.operand_eq_none, Operands.reads, or_and_right, exists_or, or_assoc]

/-- R119: a register of the file is unresolved when it is busy and neither bus names it. -/
theorem State.resolve_eq_none {s : State} {r : Int} (named : (s.params.regIndex? r).isSome = true) :
    s.resolve r = none ↔ s.isBusy r = true ∧ r ∉ s.exbus.map BusPair.reg ∧ r ∉ s.membus.map BusPair.reg := by
  have readable : s.readReg? r ≠ none := by rw [← Option.isSome_iff_ne_none, readReg?_isSome, named]
  rw [← busFind_eq_none, ← busFind_eq_none]
  unfold State.resolve
  cases busFind s.exbus r <;> cases busFind s.membus r <;> cases s.isBusy r <;> simp [readable]

section
variable {s u : State} {i : Instr} (filled : s.dl.valid = true) (instr : s.dl.instr? = some i)
include filled instr

theorem decodeStage_of_blocks (blocks : s.Blocks i) (e : decodeStage s = .next u) : u = (s.at .decode).stall := by
  rcases decodeStage_cases e with ⟨empty, -⟩ | ⟨-, j, hj, -, ⟨h, -⟩ | ⟨f, branch, -⟩ | ⟨a, b, -, first, second, free, -⟩⟩
  · simp [filled] at empty
  · exact h
  · obtain rfl := Option.some_inj.1 (instr.symm.trans hj)
    rcases blocks with ⟨r, reads, -⟩ | ⟨d, dest, -⟩
    · exact absurd reads (Instr.not_reads_of_branch branch r)
    · simp [Instr.dests_of_branch branch] at dest
  · obtain rfl := Option.some_inj.1 (instr.symm.trans hj)
    rcases State.blocks_iff.1 blocks with unresolved | unresolved | ⟨d, dest, busy⟩
    · simp [first] at unresolved
    · simp [second] at unresolved
    · simp [free d dest] at busy

theorem decodeStage_of_not_blocks (ready : ¬s.Blocks i) (e : decodeStage s = .next u) : DecodeIssued s u i := by
  rcases decodeStage_done e with ⟨empty, -⟩ | ⟨-, j, hj, -, ⟨-, stalls⟩ | issued⟩
  · simp [filled] at empty
  · obtain rfl := Option.some_inj.1 (instr.symm.trans hj)
    exact absurd (State.blocks_iff.2 stalls) ready
  · obtain rfl := Option.some_inj.1 (instr.symm.trans hj)
    exact issued

/-- R117: Decode does not raise on an instruction that passes its checks. -/
theorem decodeStage_next (passes : i.passesDecode s.params) : ∃ u, decodeStage s = .next u := by
  obtain ⟨accepted, inRange⟩ := passes
  rw [decodeStage, runStage_instr s filled instr, exec_decode i rfl, accepted]
  cases i.family? with
  | some f => exact ⟨_, rfl⟩
  | none =>
    rcases decodeOperands_cases i.operands (s.at .decode) with ⟨f, bad, -⟩ | ⟨-, e, -⟩ | ⟨a, b, -, -, -, -, e⟩
    · exact absurd bad (by simp [inRange])
    · exact ⟨_, e⟩
    · exact ⟨_, e⟩

end

theorem Latch.PassedOn.pending {l m : Latch} (h : l.PassedOn m) : m.pending = l.pending := by
  cases hv : l.valid with
  | false => rw [Latch.pending_of_bubble hv, Latch.pending_of_bubble (h.valid.trans hv)]
  | true => rw [Latch.pending, Latch.pending, h.valid, Latch.dests_congr (h.instr hv)]

namespace State.Cycle

variable {s u v w d x : State} (c : s.Cycle u v w d x)
include c

/-! ### The buses and the busy table at Decode (R21, R251) -/

/-- R125: at Decode, `EXBUS` names what the instruction in `XL` bypasses. -/
theorem exbus_regs : w.exbus.map BusPair.reg = s.xl.bypassed := by
  rw [← c.atExecute_xl]
  rcases runStage_eq_next.1 c.execute with ⟨hv, rfl⟩ | ⟨hv, i, hi, e⟩
  · rw [c.atExecute_exbus, Latch.bypassed_of_bubble hv, List.map_nil]
  · rw [exec_execute_exbus_regs i rfl e, Latch.bypassed_of_instr hv hi, State.at_exbus, c.atExecute_exbus, List.map_nil,
      List.nil_append]

/-- R129: at Decode, `MEMBUS` names what the instruction in `ML` writes. -/
theorem membus_regs : w.membus.map BusPair.reg = s.ml.pending := by
  rw [c.atDecode_membus, ← c.atMemory_ml]
  rcases runStage_eq_next.1 c.memory with ⟨hv, rfl⟩ | ⟨hv, i, hi, e⟩
  · rw [c.atMemory_membus, Latch.pending_of_bubble hv, List.map_nil]
  · rw [exec_memory_membus_regs i rfl e, Latch.pending_of_instr hv hi, State.at_membus, c.atMemory_membus, List.map_nil,
      List.nil_append]

/-- R21: at Decode, the busy registers are those that the instructions in `XL` and `ML` write. -/
theorem isBusy_iff (inv : s.Inv) {r : Int} : w.isBusy r = true ↔ r ∈ s.xl.pending ∨ r ∈ s.ml.pending := by
  have writeback := writebackStage_done c.writeback
  have memory := memoryStage_done c.memory
  have execute := executeStage_done c.execute
  have afterMemory := memory.keepsInv (writeback.keepsInv inv.clearBuses) c.atMemory_wl
  obtain ⟨busyExact, -⟩ := w.carries_carried_iff.1 (execute.keepsInv afterMemory memory.ml).carries
  rw [busyExact, ← c.toMemory.pending, ← c.toWriteback.pending, Latch.mem_pending, Latch.mem_pending]
  simp [State.inFlight, execute.xl, or_and_right, exists_or, and_assoc]

/-- R251: at Decode, a source is unresolved exactly when the instruction in `XL` is still to load it. -/
theorem resolve_eq_none (inv : s.Inv) {r : Int} (named : (s.params.regIndex? r).isSome = true) :
    w.resolve r = none ↔ r ∈ s.xl.pending ∧ r ∉ s.xl.bypassed := by
  rw [State.resolve_eq_none (c.atDecode_params ▸ named), c.isBusy_iff inv, c.exbus_regs, c.membus_regs]
  have separate := (inv.pending_disjoint (r := r)).1
  tauto

/-- R251: what `State.Waits` says of the instructions ahead is what makes Decode hold its instruction. -/
theorem blocks_iff_waits (inv : s.Inv) {i : Instr} (passes : i.passesDecode s.params) : w.Blocks i ↔ s.Waits i := by
  have supported : s.xl.valid = true → ∃ j, s.xl.instr? = some j ∧ j.passesDecode s.params := fun hv =>
    inv.supported s.xl (by simp [State.inFlight, hv])
  have source : ∀ r, i.operands.reads r → (w.resolve r = none ↔ s.xl.valid = true ∧
      ∃ b imm, s.xl.instr? = some (.load r b imm) ∨ s.xl.instr? = some (.loadp r b imm)) := by
    intro r reads
    have named := badField?_eq_none passes.2 r (by rcases reads with h | h <;> simp [Operands.fields, h])
    rw [c.resolve_eq_none inv named, Latch.loaded_iff supported]
  unfold State.Blocks State.Waits
  refine or_congr (exists_congr fun r => ?_) (exists_congr fun d => and_congr_right fun _ => ?_)
  · constructor
    · rintro ⟨reads, unresolved⟩
      obtain ⟨hv, b, imm, load⟩ := (source r reads).1 unresolved
      exact ⟨b, imm, reads, hv, load⟩
    · rintro ⟨b, imm, reads, hv, load⟩
      exact ⟨reads, (source r reads).2 ⟨hv, b, imm, load⟩⟩
  · rw [c.isBusy_iff inv, Latch.mem_pending, Latch.mem_pending]

/-- R127: without a flush, Decode meets the front end as the last cycle left it. -/
theorem frontKept (noFlush : s.flushTarget? = none) : s.FrontKept w := by
  have writeback := writebackStage_done c.writeback
  have memory := memoryStage_done c.memory
  have kept := executeStage_noFlush ((State.flushTarget?_congr (memory.xl.trans writeback.xl)
    (memory.cc.trans writeback.cc) (memory.params.trans writeback.params)).trans noFlush) c.execute
  exact ⟨kept.pc.trans (memory.pc.trans writeback.pc), kept.dl.trans (memory.dl.trans writeback.dl),
    kept.fl.trans (memory.fl.trans writeback.fl),
    kept.redirectPending.trans (memory.redirectPending.trans writeback.redirectPending)⟩

end State.Cycle

/-! ### When Decode issues, and when it waits (R250, R251) -/

/-- R122, R251: the step to `t` issues instruction `i` of `DL`, with its sources as Decode resolves them in `w`. -/
structure State.Issues (s w t : State) (i : Instr) : Prop where
  valid : t.xl.valid = true
  instr : t.xl.instr? = some i
  pc : t.xl.pc = s.dl.pc
  receives : ∀ {r : Int} {value : Word}, w.resolve r = some value →
    (i.operands.src1 = some r → t.xl.rs1Value = value) ∧ (i.operands.src2 = some r → t.xl.rs2Value = value)

/-- R251: the step to `t` leaves instruction `i` in `DL`, with a bubble behind it in `XL`. -/
structure State.Stalls (s t : State) (i : Instr) : Prop where
  bubble : t.xl.valid = false
  valid : t.dl.valid = true
  stalled : t.dl.stalled = true
  instr : t.dl.instr? = some i
  dlPc : t.dl.pc = s.dl.pc
  pc : t.pc = s.pc

/-- R121: Fetch, held, leaves `DL` and `pc` as they are. -/
theorem fetchStage_of_held {s u : State} (held : s.fl.stalled = true) (noRedirect : s.redirectPending = false)
    (e : fetchStage s = .next u) : u.dl = s.dl ∧ u.pc = s.pc := by
  rcases fetchStage_cases e with ⟨-, rfl⟩ | ⟨-, redirect, -⟩ | ⟨-, -, -, rfl⟩ | ⟨-, -, free, -⟩
  · exact ⟨rfl, rfl⟩
  · simp [noRedirect] at redirect
  · exact ⟨rfl, rfl⟩
  · simp [held] at free

section
variable {s u v w d x : State} {i : Instr} (inv : s.Inv) (filled : s.dl.valid = true) (instr : s.dl.instr? = some i)
  (passes : i.passesDecode s.params) (noFlush : s.flushTarget? = none) (c : s.Cycle u v w d x)
include inv filled instr passes noFlush c

/-- R251: what waits is held, and Fetch with it. -/
theorem State.Cycle.stalls (waits : s.Waits i) : s.Stalls x.closeCycle i := by
  obtain ⟨pc, dl, fl, redirect⟩ := c.frontKept noFlush
  have held := decodeStage_of_blocks (dl ▸ filled) (dl ▸ instr) ((c.blocks_iff_waits inv passes).2 waits) c.decode
  have noRedirect : d.redirectPending = false := by rw [held]; exact redirect.trans inv.noRedirect
  obtain ⟨dl', pc'⟩ := fetchStage_of_held (by rw [held]; rfl) noRedirect c.fetch
  have kept : x.dl = { s.dl with stalled := true } := by rw [dl', held, ← dl]; rfl
  constructor
  case bubble => rw [State.closeCycle_xl, c.atEnd_xl, held]; exact c.atDecode_xl
  case pc => rw [State.closeCycle_pc, pc', held]; exact pc
  case valid => rw [State.closeCycle_dl, kept]; exact filled
  case instr => rw [State.closeCycle_dl, kept]; exact instr
  all_goals rw [State.closeCycle_dl, kept]

/-- R122: what does not wait is issued. -/
theorem State.Cycle.issues (ready : ¬s.Waits i) : s.Issues w x.closeCycle i := by
  obtain ⟨-, dl, -⟩ := c.frontKept noFlush
  have issued : DecodeIssued w d i :=
    decodeStage_of_not_blocks (dl ▸ filled) (dl ▸ instr) (mt (c.blocks_iff_waits inv passes).1 ready) c.decode
  obtain ⟨a, b, f, xl⟩ := issued.xl
  have moved : x.closeCycle.xl = d.xl := c.atEnd_xl
  rw [dl] at xl
  constructor
  case receives =>
    rw [moved]
    exact fun resolved => ⟨fun source => Option.some_inj.1 ((issued.src1 _ source).symm.trans resolved),
      fun source => Option.some_inj.1 ((issued.src2 _ source).symm.trans resolved)⟩
  all_goals rw [moved, xl]
  · exact filled
  · exact instr

end

/-- R117, R250: nothing ahead but a `WL` that the invariant vouches for: the cycle runs through. -/
theorem exists_cycle_of_nothingAhead {s : State} {i : Instr} (inv : s.Inv) (filled : s.dl.valid = true)
    (instr : s.dl.instr? = some i) (passes : i.passesDecode s.params) (xl : s.xl.valid = false) (ml : s.ml.valid = false) :
    ∃ u v w d x, s.Cycle u v w d x := by
  have committed : ∃ u, writebackStage s.clearBuses = .next u := by
    cases hv : s.wl.valid with
    | false => exact ⟨_, runStage_bubble _ hv⟩
    | true =>
      obtain ⟨j, hj, checked⟩ := inv.supported s.wl (by simp [State.inFlight, hv])
      exact ⟨_, (runStage_instr _ hv hj).trans (exec_writeback j rfl (ArchState.opcode_ne_div_of_passesDecode checked))⟩
  obtain ⟨u, writeback⟩ := committed
  have f := writebackStage_done writeback
  have memory : memoryStage u = .next u := runStage_bubble u (by rw [f.ml]; exact ml)
  have execute : executeStage u = .next u := runStage_bubble u (by rw [f.xl]; exact xl)
  obtain ⟨d, decode⟩ := decodeStage_next (s := u) (i := i) (by rw [f.dl]; exact filled) (by rw [f.dl]; exact instr)
    (by rw [f.params]; exact passes)
  obtain ⟨x, fetch⟩ := fetchStage_next d
  exact ⟨u, u, u, d, x, writeback, memory, execute, decode, fetch⟩

/-- R251: an instruction waits only for one that writes a register it uses. -/
theorem not_waits_of_apart {s : State} {i : Instr}
    (apart : ∀ l ∈ [s.xl, s.ml], l.valid = true → ∀ r ∈ l.dests, r ∉ i.operands.fields) : ¬s.Waits i := by
  have inExecute := apart s.xl (by simp)
  have inMemory := apart s.ml (by simp)
  rintro (⟨r, b, imm, reads, hv, load⟩ | ⟨d, dest, ⟨hv, writes⟩ | ⟨hv, writes⟩⟩)
  · have loaded : r ∈ s.xl.dests := by rcases load with h | h <;> simp [Latch.dests, h, Instr.operands]
    exact inExecute hv r loaded (by rcases reads with h | h <;> simp [Operands.fields, h])
  · exact inExecute hv d writes (by simp [Operands.fields, dest])
  · exact inMemory hv d writes (by simp [Operands.fields, dest])

/-- Settles O16: Decode holds its instruction exactly when `State.Waits` says so, which with nothing ahead, and with nothing
ahead that shares a register, it does not. -/
theorem decodeIssuesWhenNothingIsAhead : Obligations.DecodeIssuesWhenNothingIsAhead := by
  intro s i inv run filled instr passes
  refine ⟨fun xl ml => ?_, fun t noFlush e noFault => ?_⟩
  · obtain ⟨u, v, w, d, x, c⟩ := exists_cycle_of_nothingAhead inv filled instr passes xl ml
    have noFlush : s.flushTarget? = none := by simp [State.flushTarget?, xl]
    have ready : ¬s.Waits i := by simp [State.Waits, xl, ml]
    have issued := c.issues inv filled instr passes noFlush ready
    obtain ⟨cycles, fault, -⟩ := cycleStages_counts c.whole
    obtain ⟨-, noFault⟩ : s.halted = false ∧ s.fault = none := by simpa [State.running] using run
    exact ⟨_, step_of_cycleStages_next run c.whole, fault.trans noFault, issued.valid, issued.instr, issued.pc,
      congrArg (· + 1) cycles⟩
  · obtain ⟨u, v, w, d, x, c, rfl⟩ := exists_cycle_of_step run e noFault
    have issues : ¬s.Waits i → s.Issues w x.closeCycle i := c.issues inv filled instr passes noFlush
    refine ⟨fun apart => ?_, fun ready => ?_, fun waits => ?_⟩
    · have issued := issues (not_waits_of_apart apart)
      exact ⟨issued.valid, issued.instr, issued.pc⟩
    · exact ⟨(issues ready).valid, (issues ready).instr, (issues ready).pc⟩
    · have held := c.stalls inv filled instr passes noFlush waits
      exact ⟨held.bubble, held.valid, held.stalled, held.instr, held.dlPc, held.pc⟩

/-! ### The load and its reader (R250, R251) -/

/-- R115: a core with an instruction past Execute has not halted. -/
theorem State.HaltInv.running {s : State} (halt : s.HaltInv) (noFault : s.fault = none)
    (filled : s.ml.valid = true ∨ s.wl.valid = true) : s.running = true := by
  have notHalted : s.halted = false := Bool.eq_false_iff.2 fun halted => by
    obtain ⟨wl, ml, -⟩ := halt.afterHalt halted
    simp [wl, ml] at filled
  simp [State.running, notHalted, noFault]

/-- R251: with a bubble in `XL`, only an instruction in `ML` can make another wait. -/
theorem not_waits_of_bubble {s : State} {i : Instr} (bubble : s.xl.valid = false)
    (free : ∀ d ∈ i.operands.dests, d ∉ s.ml.pending) : ¬s.Waits i := by
  rintro (⟨_, _, _, -, hv, -⟩ | ⟨d, dest, ⟨hv, -⟩ | writes⟩)
  · simp [bubble] at hv
  · simp [bubble] at hv
  · exact free d dest (Latch.mem_pending.2 writes)

theorem flushTarget?_of_bubble {s : State} (bubble : s.xl.valid = false) : s.flushTarget? = none := by
  simp [State.flushTarget?, bubble]

theorem dataIndex?_eq_some {s : State} {a : Word} {k : Nat} (h : s.dataIndex? a = some k) : (k : Int) = a.toInt := by
  unfold State.dataIndex? at h
  split at h
  · cases h; omega
  · cases h

/-- R180, R181: a supported load has the lines of a load. -/
theorem exists_loads {l : Latch} {p : Config.Params} {rd rs1 : Int} {imm : Word}
    (supported : ∃ j, l.instr? = some j ∧ j.passesDecode p)
    (load : l.instr? = some (.load rd rs1 imm) ∨ l.instr? = some (.loadp rd rs1 imm)) :
    ∃ j incremented, l.instr? = some j ∧ Loads j rd rs1 imm incremented := by
  obtain ⟨j, hj, accepted, -⟩ := supported
  rcases load with h | h
  · exact ⟨_, _, h, load_loads rd rs1 imm⟩
  · obtain rfl := Option.some_inj.1 (hj.symm.trans h)
    exact ⟨_, _, h, loadp_loads imm (by simpa [Instr.refusedByDecode] using accepted)⟩

section
variable {s u : State} {j : Instr} {rd rs1 : Int} {imm : Word} {incremented : List Int}
  (loads : Loads j rd rs1 imm incremented)
include loads

/-- R184: Execute leaves the address of a load in `ML`. -/
theorem Loads.memAddr (hv : s.xl.valid = true) (hj : s.xl.instr? = some j) (e : executeStage s = .next u) :
    u.ml.memAddr = effectiveAddress s.params s.xl.rs1Value imm := by
  rw [executeStage, runStage_instr s hv hj, loads.execute] at e
  cases e
  simp

/-- R129: Memory drives the loaded word. -/
theorem Loads.busFind_membus (hv : s.ml.valid = true) (hj : s.ml.instr? = some j) (empty : s.membus = [])
    (e : memoryStage s = .next u) :
    ∃ k : Nat, (k : Int) = s.ml.memAddr.toInt ∧ busFind u.membus rd = some (s.dmem.read k) := by
  rw [memoryStage, runStage_instr s hv hj, loads.memory] at e
  rcases memoryLoad_cases _ (s.at .memory) with ⟨v, read, e'⟩ | ⟨-, e'⟩ <;> rw [e'] at e <;> cases e
  obtain ⟨k, index, rfl⟩ := Option.map_eq_some_iff.1 read
  exact ⟨k, dataIndex?_eq_some index, by simp [busFind, empty]⟩

end

/-- Settles O41: `State.Waits` holds while the load is in `XL`, and with the load in `ML` no more; then `MEMBUS` has the loaded
word. -/
theorem loadUseStallsOneCycle : Obligations.LoadUseStallsOneCycle := by
  intro s t u rd rs1 imm i inv halt run loading load filled instr passes reads e noFault
  obtain ⟨j, incremented, hj, loads⟩ := exists_loads (inv.supported s.xl (by simp [State.inFlight, loading])) load
  have noFlush : s.flushTarget? = none := by
    rcases load with h | h <;> simp [State.flushTarget?, loading, h, State.flushOf]
  have inv' := stepKeepsTheInvariant s t inv e
  have halt' := stepKeepsTheHaltInvariant s t halt e
  have params := (stepKeepsProgramAndParameters s t e).2
  obtain ⟨_, v, w, d, x, c, rfl⟩ := exists_cycle_of_step run e noFault
  have held := c.stalls inv filled instr passes noFlush (.inl ⟨rd, rs1, imm, reads, loading, load⟩)
  have moved : s.xl.PassedOn x.closeCycle.ml := by rw [State.closeCycle_ml, c.atEnd_ml]; exact c.toMemory
  refine ⟨⟨held.valid, held.stalled, held.instr, held.bubble, held.pc, moved.instr loading⟩,
    fun apart e' noFault' => ?_⟩
  have loadingNext := moved.valid.trans loading
  have ready : ¬x.closeCycle.Waits i := not_waits_of_bubble held.bubble fun r dest => by
    rw [moved.pending, Latch.mem_pending]
    exact fun writes => apart r dest writes.2
  obtain ⟨u', v', w', d', x', c', rfl⟩ := exists_cycle_of_step (halt'.running noFault (.inl loadingNext)) e' noFault'
  have issued := c'.issues inv' held.valid held.instr (params ▸ passes) (flushTarget?_of_bubble held.bubble) ready
  refine ⟨issued.valid, issued.instr, issued.pc.trans held.dlPc, fun k address => ?_⟩
  obtain ⟨k', address', word⟩ := loads.busFind_membus (c'.atMemory_ml ▸ loadingNext)
    (c'.atMemory_ml ▸ (moved.instr loading).trans hj) c'.atMemory_membus c'.memory
  have sameWord : k = k' := by
    have memAddr := loads.memAddr (c.atExecute_xl ▸ loading) (c.atExecute_xl ▸ hj) c.execute
    rw [c.atExecute_xl, c.atExecute_params] at memAddr
    rw [c'.atMemory_ml, State.closeCycle_ml, c.atEnd_ml, memAddr] at address'
    exact Int.natCast_inj.1 (address.trans address'.symm)
  have notExecute : busFind w'.exbus rd = none := by
    rw [busFind_eq_none, c'.exbus_regs, Latch.bypassed_of_bubble held.bubble]
    exact List.not_mem_nil
  refine issued.receives (State.resolve_of_membus notExecute ?_)
  rw [c'.atDecode_membus, word, c'.atMemory_dmem, sameWord]

/-! ### Forwarded results (R251, R252) -/

/-- R129, R130: the lines of an instruction that hands its result for `rd` on through `MEMBUS` into the register. -/
structure PassesResult (p : Instr) (rd : Int) : Prop where
  dests : p.operands.dests = [rd]
  memory : ∀ s : State, exec p (s.at .memory) = memoryPass [⟨rd, s.ml.result⟩] (s.at .memory)
  writeback : ∀ s : State, exec p (s.at .writeback) = writebackCommit [⟨rd, s.wl.result⟩] (s.at .writeback)

section
variable (rd rs1 rs2 : Int) (imm : Word)

theorem jalr_passesResult : PassesResult (.jalr rd rs1 imm) rd :=
  ⟨rfl, fun _ => rfl, fun _ => rfl⟩

/-- R251, row 1: each producer hands its result on. -/
theorem passesResult_of_mem {p : Instr}
    (row : p ∈ [Instr.add rd rs1 rs2, .sub rd rs1 rs2, .mul rd rs1 rs2, .and rd rs1 rs2, .or rd rs1 rs2, .xor rd rs1 rs2,
      .addl rd rs1 imm, .subl rd rs1 imm, .movc rd imm, .jalr rd rs1 imm]) : PassesResult p rd := by
  simp only [List.mem_cons, List.not_mem_nil, or_false] at row
  rcases row with rfl | rfl | rfl | rfl | rfl | rfl | rfl | rfl | rfl | rfl <;>
    exact ⟨rfl, fun _ => rfl, fun _ => rfl⟩

/-- R251, row 1: each producer but `JALR` has its result in Execute, loads nothing and does not flush. -/
theorem deliversResult_of_mem {params : Config.Params} {a b : Word} {e : Instr × Word}
    (row : e ∈ [(Instr.add rd rs1 rs2, params.s32 (a.toInt + b.toInt)), (.sub rd rs1 rs2, params.s32 (a.toInt - b.toInt)),
      (.mul rd rs1 rs2, params.s32 (a.toInt * b.toInt)), (.and rd rs1 rs2, a &&& b), (.or rd rs1 rs2, a ||| b),
      (.xor rd rs1 rs2, a ^^^ b), (.addl rd rs1 imm, params.s32 (a.toInt + imm.toInt)),
      (.subl rd rs1 imm, params.s32 (a.toInt - imm.toInt)), (.movc rd imm, imm)]) :
    (∃ src1 src2 result on, DeliversResult e.1 src1 src2 rd result on ∧ result params a b = e.2) ∧
      e.1.loaded? = none ∧ ∀ s : State, s.flushOf e.1 = none := by
  simp only [List.mem_cons, List.not_mem_nil, or_false] at row
  rcases row with rfl | rfl | rfl | rfl | rfl | rfl | rfl | rfl | rfl <;> refine ⟨?_, rfl, fun _ => rfl⟩
  · exact ⟨_, _, _, _, add_deliversResult rd rs1 rs2, rfl⟩
  · exact ⟨_, _, _, _, sub_deliversResult rd rs1 rs2, rfl⟩
  · exact ⟨_, _, _, _, mul_deliversResult rd rs1 rs2, rfl⟩
  · exact ⟨_, _, _, _, and_deliversResult rd rs1 rs2, rfl⟩
  · exact ⟨_, _, _, _, or_deliversResult rd rs1 rs2, rfl⟩
  · exact ⟨_, _, _, _, xor_deliversResult rd rs1 rs2, rfl⟩
  · exact ⟨_, _, _, _, addl_deliversResult rd rs1 imm, rfl⟩
  · exact ⟨_, _, _, _, subl_deliversResult rd rs1 imm, rfl⟩
  · exact ⟨_, _, _, _, movc_deliversResult rd imm, rfl⟩

end

theorem Latch.bypassed_subset {l : Latch} {r : Int} (h : r ∈ l.bypassed) : r ∈ l.pending := by
  cases hv : l.valid with
  | false => simp [Latch.bypassed_of_bubble hv] at h
  | true =>
    cases hi : l.instr? with
    | none => simp [Latch.bypassed, hv, hi] at h
    | some i =>
      rw [Latch.bypassed_of_instr hv hi] at h
      rw [Latch.pending_of_instr hv hi]
      exact Instr.mem_dests_iff.2 (.inl h)

/-- R251: an instruction waits for one in `XL` only if that one loads, or writes a destination of it. -/
theorem not_waits_of_noLoad {s : State} {i p : Instr} (instr : s.xl.instr? = some p) (noLoad : p.loaded? = none)
    (free : ∀ d ∈ i.operands.dests, d ∉ s.xl.dests ∧ (s.ml.valid = true → d ∉ s.ml.dests)) : ¬s.Waits i := by
  rintro (⟨r, b, imm, -, -, load⟩ | ⟨d, dest, ⟨-, writes⟩ | ⟨hv, writes⟩⟩)
  · have loaded : p.loaded? = some r := by
      rcases load with h | h <;> obtain rfl := Option.some_inj.1 (instr.symm.trans h) <;> rfl
    simp [noLoad] at loaded
  · exact (free d dest).1 writes
  · exact (free d dest).2 hv writes

namespace State.Cycle

variable {s u v w d x : State} {p : Instr} {rd : Int} (c : s.Cycle u v w d x)
include c

/-- R251, distance 1: the result of the instruction in `XL` is on `EXBUS`. -/
theorem resolve_of_execute {src1 src2 : Option Int} {result : Config.Params → Word → Word → Word}
    {on : Config.Params → Bool} (delivers : DeliversResult p src1 src2 rd result on) (filled : s.xl.valid = true)
    (instr : s.xl.instr? = some p) : w.resolve rd = some (result s.params s.xl.rs1Value s.xl.rs2Value) := by
  have e := c.execute
  rw [executeStage, runStage_instr v (c.atExecute_xl ▸ filled) (c.atExecute_xl ▸ instr), delivers.execute, c.atExecute_xl,
    c.atExecute_params] at e
  cases e
  exact State.resolve_of_exbus (by simp [c.atExecute_exbus, busFind])

/-- R125: `EXBUS` does not name what an older instruction than the one in `XL` writes. -/
theorem busFind_exbus_of_behind (inv : s.Inv) (behind : rd ∈ s.ml.pending ∨ rd ∈ s.wl.pending) :
    busFind w.exbus rd = none := by
  rw [busFind_eq_none, c.exbus_regs]
  intro bypassed
  obtain ⟨notMemory, notWriteback⟩ := (inv.pending_disjoint (r := rd)).1 (Latch.bypassed_subset bypassed)
  exact behind.elim notMemory notWriteback

variable (h : PassesResult p rd)
include h

/-- R251, distance 2: the result of the instruction in `ML` is on `MEMBUS`. -/
theorem resolve_of_memory (inv : s.Inv) (filled : s.ml.valid = true) (instr : s.ml.instr? = some p) :
    w.resolve rd = some s.ml.result := by
  have writes : rd ∈ s.ml.pending := by rw [Latch.pending_of_instr filled instr, h.dests]; exact List.mem_singleton_self rd
  refine State.resolve_of_membus (c.busFind_exbus_of_behind inv (.inl writes)) ?_
  have e := c.memory
  rw [memoryStage, runStage_instr u (c.atMemory_ml ▸ filled) (c.atMemory_ml ▸ instr), h.memory, c.atMemory_ml] at e
  cases e
  rw [c.atDecode_membus]
  simp [c.atMemory_membus, busFind]

/-- R251, distance 3: Writeback has put the result of the instruction in `WL` into its register. -/
theorem resolve_of_writeback (inv : s.Inv) (filled : s.wl.valid = true) (instr : s.wl.instr? = some p) :
    w.resolve rd = some s.wl.result := by
  have writes : rd ∈ s.wl.pending := by rw [Latch.pending_of_instr filled instr, h.dests]; exact List.mem_singleton_self rd
  have notExecute : rd ∉ s.xl.pending := fun hx => ((inv.pending_disjoint (r := rd)).1 hx).2 writes
  have notMemory : rd ∉ s.ml.pending := fun hm => (inv.pending_disjoint (r := rd)).2 hm writes
  refine State.resolve_of_register (c.busFind_exbus_of_behind inv (.inr writes)) ?_ ?_ ?_
  · rwa [busFind_eq_none, c.membus_regs]
  · rw [Bool.eq_false_iff, Ne, c.isBusy_iff inv]
    exact not_or.2 ⟨notExecute, notMemory⟩
  · have named : (s.params.regIndex? rd).isSome = true := by
      obtain ⟨j, hj, -, inRange⟩ := inv.supported s.wl (by simp [State.inFlight, filled])
      obtain rfl := Option.some_inj.1 (instr.symm.trans hj)
      exact isSome_of_mem_dests inRange (by simp [h.dests])
    have x : w.x = u.x := (executeStage_done c.execute).x.trans (memoryStage_done c.memory).x
    have e := c.writeback
    rw [writebackStage, runStage_instr (l := s.clearBuses.wl) _ filled instr, h.writeback] at e
    cases e
    rw [readReg?_congr x rd (by simp [c.atDecode_params]), readReg?_congr (State.retire_x _), State.commitAll, State.commitAll,
      readReg?_commit, if_pos ⟨rfl, named⟩]
    rfl

end State.Cycle

/-! #### Behind a `JALR` (R195, R252) -/

/-- R216: no condition was recorded before a step that leaves none. -/
theorem noFault_of_step {s t : State} (e : step s = .next t) (noFault : t.fault = none) : s.fault = none := by
  rcases step_cases s with ⟨-, e'⟩ | ⟨active, -⟩
  · rw [e'] at e
    cases e
    exact noFault
  · simpa using (Bool.or_eq_false_iff.1 active).2

/-- R195: Execute leaves the link address of a `JALR` in `ML`. -/
theorem State.Cycle.link {s u v w d x : State} {rd rs1 : Int} {imm : Word} (c : s.Cycle u v w d x)
    (filled : s.xl.valid = true) (instr : s.xl.instr? = some (.jalr rd rs1 imm)) :
    w.ml.result = s.params.s32 (s.xl.pc.toInt + Config.ilen) := by
  have e := c.execute
  rw [executeStage, runStage_instr v (c.atExecute_xl ▸ filled) (c.atExecute_xl ▸ instr), (jalr_jumps rd rs1 imm).execute,
    c.atExecute_xl, c.atExecute_params] at e
  cases e
  simp

/-- R128: Memory hands the result of an instruction without data access on. -/
theorem State.Cycle.result {s u v w d x : State} {p : Instr} {rd : Int} (c : s.Cycle u v w d x) (h : PassesResult p rd)
    (filled : s.ml.valid = true) (instr : s.ml.instr? = some p) : w.wl.result = s.ml.result := by
  have e := c.memory
  rw [memoryStage, runStage_instr u (c.atMemory_ml ▸ filled) (c.atMemory_ml ▸ instr), h.memory] at e
  cases e
  rw [c.atDecode_wl]
  simp [c.atMemory_ml]

/-- R122: with `DL` empty, Decode puts a bubble into `XL`. -/
theorem State.Cycle.bubble {s u v w d x : State} (c : s.Cycle u v w d x) (noFlush : s.flushTarget? = none)
    (empty : s.dl.valid = false) : x.xl.valid = false := by
  have idle : decodeStage w = .next w := runStage_bubble w (by rw [(c.frontKept noFlush).dl]; exact empty)
  cases c.decode.symm.trans idle
  rw [c.atEnd_xl]
  exact c.atDecode_xl

/-- R251, R252: what stands at the next cycle boundary but one behind a `JALR` in `XL`: the `JALR` in `WL` with its link
address, and bubbles between it and `DL`. -/
structure Linked (p : Instr) (link : Word) (s : State) : Prop where
  running : s.running = true
  inv : s.Inv
  wlValid : s.wl.valid = true
  wlInstr : s.wl.instr? = some p
  wlResult : s.wl.result = link
  mlEmpty : s.ml.valid = false
  xlEmpty : s.xl.valid = false

/-- R126, R252: the flush of a `JALR` empties `DL`, so two bubbles follow it. -/
theorem linked_of_jalr {s u v : State} {rd rs1 : Int} {imm : Word} (inv : s.Inv) (halt : s.HaltInv) (run : s.running = true)
    (filled : s.xl.valid = true) (instr : s.xl.instr? = some (.jalr rd rs1 imm)) (e : step s = .next u)
    (e' : step u = .next v) (noFault : v.fault = none) :
    u.dl.valid = false ∧ Linked (.jalr rd rs1 imm) (s.params.s32 (s.xl.pc.toInt + Config.ilen)) v := by
  have noFaultBefore := noFault_of_step e' noFault
  have inv' := stepKeepsTheInvariant s u inv e
  have halt' := stepKeepsTheHaltInvariant s u halt e
  have flushes : s.flushTarget? = some (s.params.s32 (s.xl.rs1Value.toInt + imm.toInt)) := by
    simp [State.flushTarget?, filled, instr, State.flushOf]
  obtain ⟨-, dl, -, xl, -, -, -, ml, mlInstr, -⟩ := flushLosesDecodeAndOneFetch s u _ run flushes e noFaultBefore
  rw [instr] at mlInstr
  have result : u.ml.result = s.params.s32 (s.xl.pc.toInt + Config.ilen) := by
    obtain ⟨_, _, w, d, x, c, rfl⟩ := exists_cycle_of_step run e noFaultBefore
    rw [State.closeCycle_ml, c.atEnd_ml]
    exact c.link filled instr
  have run' := halt'.running noFaultBefore (.inl ml)
  have inv'' := stepKeepsTheInvariant u v inv' e'
  have halt'' := stepKeepsTheHaltInvariant u v halt' e'
  obtain ⟨_, _, w, d, x, c, rfl⟩ := exists_cycle_of_step run' e' noFault
  have toMl : x.closeCycle.ml = w.ml := c.atEnd_ml
  have toWl : x.closeCycle.wl = w.wl := c.atEnd_wl
  have wl : x.closeCycle.wl.valid = true := by rw [toWl, c.toWriteback.valid]; exact ml
  refine ⟨dl, halt''.running noFault (.inr wl), inv'', wl, ?_, ?_, ?_, c.bubble (flushTarget?_of_bubble xl) dl⟩
  · rw [toWl, c.toWriteback.instr ml, mlInstr]
  · rw [toWl, c.result (jalr_passesResult rd rs1 imm) ml mlInstr, result]
  · rw [toMl, c.toMemory.valid, xl]

/-- Settles O42: a producer in `XL`, `ML` or `WL` has its result on `EXBUS`, on `MEMBUS` or in the register when Decode looks,
and behind a `JALR` in `XL` the first instruction in `DL` finds it in `WL`. -/
theorem aluResultIsForwardedWithoutStall : Obligations.AluResultIsForwardedWithoutStall := by
  intro s t rd rs1 rs2 imm a b i inv run
  refine ⟨?_, ?_, ?_⟩
  · rintro rfl rfl e row producing producer filled instr passes - free stepped noFault
    obtain ⟨⟨src1, src2, result, on, delivers, value⟩, noLoad, neverFlushes⟩ := deliversResult_of_mem rd rs1 rs2 imm row
    have noFlush : s.flushTarget? = none := by simp [State.flushTarget?, producing, producer, neverFlushes]
    have ready := not_waits_of_noLoad producer noLoad free
    obtain ⟨_, v, w, d, x, c, rfl⟩ := exists_cycle_of_step run stepped noFault
    have issues := c.issues inv filled instr passes noFlush ready
    have received := issues.receives (c.resolve_of_execute delivers producing producer)
    exact ⟨issues.valid, issues.instr, issues.pc, value ▸ received⟩
  · rintro p row filled instr passes - noFlush ready stepped noFault
    have passesResult := passesResult_of_mem rd rs1 rs2 imm row
    obtain ⟨_, v, w, d, x, c, rfl⟩ := exists_cycle_of_step run stepped noFault
    have issues := c.issues inv filled instr passes noFlush ready
    exact ⟨fun producing producer => ⟨issues.valid, issues.instr, issues.pc,
        issues.receives (c.resolve_of_memory passesResult inv producing producer)⟩,
      fun producing producer => ⟨issues.valid, issues.instr, issues.pc,
        issues.receives (c.resolve_of_writeback passesResult inv producing producer)⟩⟩
  · rintro u v halt producing producer e e' filled instr passes - stepped noFault
    obtain ⟨dl, linked⟩ := linked_of_jalr inv halt run producing producer e e' (noFault_of_step stepped noFault)
    have params : v.params = s.params :=
      (stepKeepsProgramAndParameters u v e').2.trans (stepKeepsProgramAndParameters s u e).2
    have passes' : i.passesDecode v.params := params ▸ passes
    have noFlush := flushTarget?_of_bubble linked.xlEmpty
    have ready : ¬v.Waits i := not_waits_of_bubble linked.xlEmpty fun _ _ => by simp [Latch.pending_of_bubble linked.mlEmpty]
    obtain ⟨_, _, w, d, x, c, rfl⟩ := exists_cycle_of_step linked.running stepped noFault
    have issues := c.issues linked.inv filled instr passes' noFlush ready
    have received := issues.receives
      (c.resolve_of_writeback (jalr_passesResult rd rs1 imm) linked.inv linked.wlValid linked.wlInstr)
    exact ⟨dl, issues.valid, issues.instr, issues.pc, linked.wlResult ▸ received⟩

/-! ### The run loop (R246) -/

theorem step_eq_stepOneCycle (s : State) : step s = .next (stepOneCycle s).1 := by
  obtain ⟨t, e⟩ := everyStateHasANextState s
  simp [stepOneCycle, e]

theorem runState_of_stopped {s : State} (stopped : (s.halted || s.fault.isSome) = true) (n : ℕ) : runState n s = s := by
  cases n with
  | zero => rfl
  | succ n => exact if_pos stopped

/-- R132, R246: that the loop ends at a stopped state makes no difference, since a step leaves such a state alone. -/
theorem runState_succ (n : ℕ) (s : State) : runState (n + 1) s = runState n (stepOneCycle s).1 := by
  cases stopped : (s.halted || s.fault.isSome) with
  | false => simp [runState, stopped]
  | true =>
    have same : (stepOneCycle s).1 = s := by simp [stepOneCycle, step_of_stopped stopped]
    rw [same, runState_of_stopped stopped, runState_of_stopped stopped]

/-- Settles O43: by induction on the number of steps, with `runState_succ`. -/
theorem runUntilHaltIteratesTheStep : Obligations.RunUntilHaltIteratesTheStep := by
  intro n s
  refine ⟨?_, rfl, ?_⟩
  · induction n generalizing s with
    | zero => rfl
    | succ n ih => rw [runState_succ, ih, Function.iterate_succ_apply]
  · induction n generalizing s with
    | zero => rfl
    | succ n ih => rw [core_run_succ (step_eq_stepOneCycle s), ih, runState_succ]

end Sys2Proof.Machine
